-- ==== Sys2Proof/Word.lean ====
section
/-! DEFINITION. The word types of the block (00_scope.md R8, R10; 30_encoding.md R111). -/

namespace Sys2Proof

/-- One byte of data (`DATA_BITS` = 8, 00_scope.md R8). -/
abbrev Byte := BitVec 8

/-- A guest address (`ADDR_BITS` = 16, 00_scope.md R8). -/
abbrev Addr := BitVec 16

/-- An operation word: `OW[26:24]` the operation, `OW[23:8]` the address, `OW[7:0]` the data (30_encoding.md R111). -/
abbrev OpWord := BitVec 27

end Sys2Proof
end

