-- ==== Sys2Proof/Syntax.lean ====
section
/-! DEFINITION. The controller families (00_scope.md R3) and the instructions: one constructor per row of
spec/opcode_table.json, carrying the bit fields of the operation word that the row's rule reads. The operands that travel
on side ports (30_encoding.md R112) are no part of the word and stand in the machine's `ports`. -/

namespace Sys2Proof

/-- The controller family of the Cartridge Descriptor (00_scope.md R3, 10_state.md R22). -/
inductive Family where
  | NONE | A | B | C | D | E | F
  deriving DecidableEq, Repr

/-- The opcode table's rows (30_encoding.md R129). A field named `off` is the offset inside the window, `addr` the whole
guest address, `data` the whole data byte; a field the rule does not read is not carried. -/
inductive Instr where
  -- reads
  | rdVbk
  | rdDmaSrcHi
  | rdDmaSrcLo
  | rdDmaDstHi
  | rdDmaDstLo
  | rdDmaCtrl
  | rdSvbk
  | rdExt (addr : Addr)
  | rdEcho (addr : Addr)
  | rdWramx (off : BitVec 12)
  | rdWram0 (off : BitVec 12)
  | rdSramOff (off : BitVec 13)
  | rdSramRtc (off : BitVec 13)
  | rdSramNone (off : BitVec 13)
  | rdSramBank (off : BitVec 13)
  | rdVram (off : BitVec 13)
  | rdRomx (off : BitVec 14)
  | rdRom0 (off : BitVec 14)
  -- writes to windows and block registers
  | wrVbk (data : Byte)
  | wrDmaSrcHi (data : Byte)
  | wrDmaSrcLo (data : Byte)
  | wrDmaDstHi (data : Byte)
  | wrDmaDstLo (data : Byte)
  | wrDmaCtrl (mode : BitVec 1) (n : BitVec 7)
  | wrSvbk (data : Byte)
  | wrExt (addr : Addr) (data : Byte)
  | wrEcho (addr : Addr) (data : Byte)
  | wrWramx (off : BitVec 12) (data : Byte)
  | wrWram0 (off : BitVec 12) (data : Byte)
  | wrSramOff (off : BitVec 13) (data : Byte)
  | wrSramRtc (off : BitVec 13) (data : Byte)
  | wrSramNone (off : BitVec 13) (data : Byte)
  | wrSramBank (off : BitVec 13) (data : Byte)
  | wrVram (off : BitVec 13) (data : Byte)
  -- control writes
  | ctlNone (addr : Addr) (data : Byte)
  | ctlEf (addr : Addr) (data : Byte)
  | ramen (nibble : BitVec 4)
  | romloA (bank : BitVec 5)
  | upperARom (upper : BitVec 2)
  | upperARam (upper : BitVec 2)
  | modeA (mode : BitVec 1)
  | rombB (bank : BitVec 4)
  | ignB (addr : Addr) (data : Byte)
  | rombC (bank : BitVec 7)
  | ramselC (sel : BitVec 4)
  | ramselCRsvd (sel : BitVec 4)
  | latchC (data : Byte)
  | romloD (bank : BitVec 8)
  | romhiD (bit8 : BitVec 1)
  | rambD (bank : BitVec 4)
  | rambDRumble (motor : BitVec 1) (bank : BitVec 3)
  | ignD (addr : Addr) (data : Byte)
  -- events
  | hb
  | tick
  | load
  | reset
  | save
  | restore
  deriving DecidableEq, Repr

end Sys2Proof
end

