-- ==== Sys2Proof/Config.lean ====
section
/-! DEFINITION. What an implementation fixes: the parameters the spec leaves open (92_eei_decisions.md, "Parameters left
open"), the configuration record of the block with every parameter of 00_scope.md R8, and the free values
(93_implementation_defined.md U1 to U4; U1, a function of the session, stands beside the state). A free value is a constant
without a body: nothing is known of it, and what is proved holds whatever it is. -/

namespace Sys2Proof

/-- `ZERO_FIX_SCOPE`: whether zero normalisation looks at the index that would be stored or at its low field
(41_bank_switch.md R182). -/
inductive ZeroFixScope where
  | combined | field
  deriving DecidableEq, Repr

/-- `EF_CONTROL_DECODE`: what a control write on families `E` and `F` does: `refuse` sets the sticky mark, `decode` applies
some total function (41_bank_switch.md R206). -/
inductive EfPolicy where
  | refuse | decode
  deriving DecidableEq, Repr

/-- The open parameters of one machine; no step writes them (92_eei_decisions.md). -/
structure Params where
  zeroFixScope : ZeroFixScope
  silentAdvance : Bool
  rumbleStrength : Nat
  efPolicy : EfPolicy
  deriving DecidableEq, Repr

/-- The defaults of 92_eei_decisions.md's last table. -/
def Params.default : Params :=
  { zeroFixScope := .combined, silentAdvance := false, rumbleStrength := 1, efPolicy := .refuse }

/-- The configuration record (00_scope.md R8): every parameter of the block under the name R8 gives it, the four open ones
(`Params`) among them, at their defaults. -/
structure BlockConfig extends Params where
  /-- `ADDR_BITS`, `DATA_BITS`: the widths of `Addr` and `Byte`. -/
  addrBits : Nat
  dataBits : Nat
  romBankSize : Nat
  ramBankSize : Nat
  dmaUnit : Nat
  unmapped : Byte
  /-- The windows of the guest space: lowest and highest address of each. -/
  rom0Lo : Addr
  rom0Hi : Addr
  romxLo : Addr
  romxHi : Addr
  vramLo : Addr
  vramHi : Addr
  sramLo : Addr
  sramHi : Addr
  wram0Lo : Addr
  wram0Hi : Addr
  wramxLo : Addr
  wramxHi : Addr
  echoLo : Addr
  echoHi : Addr
  extLo : Addr
  extHi : Addr
  vramBanks : Nat
  vramBankSize : Nat
  wramBanks : Nat
  wramBankSize : Nat
  regVbk : Addr
  regSvbk : Addr
  regDmaSrcHi : Addr
  regDmaSrcLo : Addr
  regDmaDstHi : Addr
  regDmaDstLo : Addr
  regDmaCtrl : Addr
  dmaSrcMask : Addr
  dmaDstMask : Addr
  dmaDstBase : Addr
  /-- `RAM_ENABLE_MAGIC`, compared with a nibble. -/
  ramEnableMagic : BitVec 4
  zeroFixFamilies : List Family
  /-- `RTC_SEL_S` to `RTC_SEL_DH`: values of `ramBank`. -/
  rtcSelS : BitVec 4
  rtcSelM : BitVec 4
  rtcSelH : BitVec 4
  rtcSelDL : BitVec 4
  rtcSelDH : BitVec 4
  rtcMaskS : Byte
  rtcMaskM : Byte
  rtcMaskH : Byte
  rtcMaskDL : Byte
  rtcMaskDH : Byte
  /-- `SAVE_MAGIC`, its first and its second byte. -/
  saveMagic0 : Byte
  saveMagic1 : Byte
  saveVersion : Byte
  saveLength : Nat
  /-- `TYPE_TABLE`: type byte, family, `hasRTC`, `hasRumble` (40_descriptor.md R162). -/
  typeTable : List (Byte × Family × Bool × Bool)
  /-- `ROM_SIZE_TABLE`: code, `romBanks` (40_descriptor.md R163). -/
  romSizeTable : List (Byte × Nat)
  /-- `RAM_SIZE_TABLE`: code, `ramBanks` (40_descriptor.md R164). -/
  ramSizeTable : List (Byte × Nat)
  deriving DecidableEq, Repr

/-- The block: the values of 00_scope.md R8. -/
def Config.block : BlockConfig where
  toParams := Params.default
  addrBits := 16
  dataBits := 8
  romBankSize := 16384
  ramBankSize := 8192
  dmaUnit := 16
  unmapped := 0xFF#8
  rom0Lo := 0x0000#16
  rom0Hi := 0x3FFF#16
  romxLo := 0x4000#16
  romxHi := 0x7FFF#16
  vramLo := 0x8000#16
  vramHi := 0x9FFF#16
  sramLo := 0xA000#16
  sramHi := 0xBFFF#16
  wram0Lo := 0xC000#16
  wram0Hi := 0xCFFF#16
  wramxLo := 0xD000#16
  wramxHi := 0xDFFF#16
  echoLo := 0xE000#16
  echoHi := 0xFDFF#16
  extLo := 0xFE00#16
  extHi := 0xFFFF#16
  vramBanks := 2
  vramBankSize := 8192
  wramBanks := 8
  wramBankSize := 4096
  regVbk := 0xFF4F#16
  regSvbk := 0xFF70#16
  regDmaSrcHi := 0xFF51#16
  regDmaSrcLo := 0xFF52#16
  regDmaDstHi := 0xFF53#16
  regDmaDstLo := 0xFF54#16
  regDmaCtrl := 0xFF55#16
  dmaSrcMask := 0xFFF0#16
  dmaDstMask := 0x1FF0#16
  dmaDstBase := 0x8000#16
  ramEnableMagic := 0xA#4
  zeroFixFamilies := [.A, .B, .C]
  rtcSelS := 0x8#4
  rtcSelM := 0x9#4
  rtcSelH := 0xA#4
  rtcSelDL := 0xB#4
  rtcSelDH := 0xC#4
  rtcMaskS := 0x3F#8
  rtcMaskM := 0x3F#8
  rtcMaskH := 0x1F#8
  rtcMaskDL := 0xFF#8
  rtcMaskDH := 0xC1#8
  saveMagic0 := 0x47#8
  saveMagic1 := 0x59#8
  saveVersion := 0x01#8
  saveLength := 37
  typeTable := [
    (0x00#8, .NONE, false, false), (0x08#8, .NONE, false, false), (0x09#8, .NONE, false, false),
    (0x01#8, .A, false, false), (0x02#8, .A, false, false), (0x03#8, .A, false, false),
    (0x05#8, .B, false, false), (0x06#8, .B, false, false),
    (0x0F#8, .C, true, false), (0x10#8, .C, true, false),
    (0x11#8, .C, false, false), (0x12#8, .C, false, false), (0x13#8, .C, false, false),
    (0x19#8, .D, false, false), (0x1A#8, .D, false, false), (0x1B#8, .D, false, false),
    (0x1C#8, .D, false, true), (0x1D#8, .D, false, true), (0x1E#8, .D, false, true),
    (0xFF#8, .E, false, false), (0xFE#8, .F, false, false)]
  romSizeTable := [
    (0x00#8, 2), (0x01#8, 4), (0x02#8, 8), (0x03#8, 16), (0x04#8, 32), (0x05#8, 64), (0x06#8, 128), (0x07#8, 256),
    (0x08#8, 512)]
  ramSizeTable := [(0x00#8, 0), (0x01#8, 1), (0x02#8, 1), (0x03#8, 4), (0x04#8, 16), (0x05#8, 8)]

/-- The Bank-Switch State (10_state.md R26 to R31): the stored read-only bank index, the storage bank index or selector,
the mode flag (`false` is mode A), the storage enable, the latch memory and the motor bit. -/
structure BankState where
  romBank : BitVec 9
  ramBank : BitVec 4
  mode : Bool
  ramEnable : Bool
  latchArmed : Bool
  motor : Bool
  deriving DecidableEq, Repr, Inhabited

/-- FREE VALUE (93 U4): the byte the external port answers to the `n`-th external read, of address `a`. -/
opaque Config.extByte (n : Nat) (a : Addr) : Byte

/-- FREE VALUE (93 U3): the byte of `vram[i]` under draw `n`. -/
opaque Config.drawnVram (n : Nat) (i : Nat) : Byte

/-- FREE VALUE (93 U3): the byte of `wram[i]` under draw `n`. -/
opaque Config.drawnWram (n : Nat) (i : Nat) : Byte

/-- FREE VALUE (93 U2): the staging register `dmaSrcHi` under draw `n`. -/
opaque Config.drawnSrcHi (n : Nat) : Byte

/-- FREE VALUE (93 U2): the staging register `dmaSrcLo` under draw `n`. -/
opaque Config.drawnSrcLo (n : Nat) : Byte

/-- FREE VALUE (93 U2): the staging register `dmaDstHi` under draw `n`. -/
opaque Config.drawnDstHi (n : Nat) : Byte

/-- FREE VALUE (93 U2): the staging register `dmaDstLo` under draw `n`. -/
opaque Config.drawnDstLo (n : Nat) : Byte

/-- FREE VALUE (log 9): bits 6:0 of the trigger register's status while a transfer is active with `remaining` < 16 bytes. -/
opaque Config.statusUnderflow (remaining : BitVec 12) : BitVec 7

/-- FREE VALUE (log 9): the units left after a unit that moved although fewer than 16 bytes remained, under draw `n`. -/
opaque Config.underflowUnits (n : Nat) : Byte

end Sys2Proof
end

