-- ==== Sys2Proof/WellFormed.lean ====
section
/-! DEFINITION. Well-formed instructions: the whole addresses an instruction carries lie in its row's window, and a
family `C` selector is of the kind its row names. -/

namespace Sys2Proof

/-- The seven registers the block itself holds in the device-register window (20_memory.md R77). -/
def isBlockRegister (a : Addr) : Bool :=
  a == Config.block.regVbk || a == Config.block.regDmaSrcHi || a == Config.block.regDmaSrcLo ||
    a == Config.block.regDmaDstHi || a == Config.block.regDmaDstLo || a == Config.block.regDmaCtrl ||
    a == Config.block.regSvbk

/-- The addresses forwarded to the external port (30_encoding.md R114, row 8). -/
def isExternal (a : Addr) : Bool :=
  decide (Config.block.extLo ≤ a) && !isBlockRegister a

/-- The echo window, 0xE000 to 0xFDFF (30_encoding.md R114, row 9). -/
def isEcho (a : Addr) : Bool :=
  decide (Config.block.echoLo ≤ a) && decide (a < Config.block.extLo)

/-- The selector values a family `C` selector write accepts: storage banks 0 to 3 and clock registers 0x8 to 0xC
(30_encoding.md R118). -/
def acceptedSelector (v : BitVec 4) : Bool :=
  decide (v < 4#4) || (decide (Config.block.rtcSelS ≤ v) && decide (v ≤ Config.block.rtcSelDH))

/-- An instruction whose fields its row admits. -/
def Instr.wellFormed : Instr → Bool
  | .rdVbk | .rdDmaSrcHi | .rdDmaSrcLo | .rdDmaDstHi | .rdDmaDstLo | .rdDmaCtrl | .rdSvbk => true
  | .rdExt addr => isExternal addr
  | .rdEcho addr => isEcho addr
  | .rdWramx _ | .rdWram0 _ => true
  | .rdSramOff _ | .rdSramRtc _ | .rdSramNone _ | .rdSramBank _ => true
  | .rdVram _ | .rdRomx _ | .rdRom0 _ => true
  | .wrVbk _ | .wrDmaSrcHi _ | .wrDmaSrcLo _ | .wrDmaDstHi _ | .wrDmaDstLo _ | .wrDmaCtrl _ _ | .wrSvbk _ => true
  | .wrExt addr _ => isExternal addr
  | .wrEcho addr _ => isEcho addr
  | .wrWramx _ _ | .wrWram0 _ _ => true
  | .wrSramOff _ _ | .wrSramRtc _ _ | .wrSramNone _ _ | .wrSramBank _ _ | .wrVram _ _ => true
  | .ctlNone addr _ | .ctlEf addr _ => decide (addr < Config.block.vramLo)
  | .ramen _ | .romloA _ | .upperARom _ | .upperARam _ | .modeA _ | .rombB _ => true
  | .ignB addr _ => decide (Config.block.romxLo ≤ addr) && decide (addr < Config.block.vramLo)
  | .rombC _ => true
  | .ramselC sel => acceptedSelector sel
  | .ramselCRsvd sel => !acceptedSelector sel
  | .latchC _ | .romloD _ | .romhiD _ | .rambD _ | .rambDRumble _ _ => true
  | .ignD addr _ => decide (0x6000#16 ≤ addr) && decide (addr < Config.block.vramLo)
  | .hb | .tick | .load | .reset | .save | .restore => true

end Sys2Proof
end

