-- ==== Sys2Proof/Decode.lean ====
section
/-! DEFINITION. Operation words and instructions: the fields of a word (30_encoding.md R111), the decoder (R114 to R118,
R126), the encoder, the condition under which a row applies, the opcode table itself as data (R129), and the decoder's
answer to a bare word. The decoder reads the session's decode-relevant state (R126) besides the word. -/

namespace Sys2Proof

/-! ## Addresses and bit fields -/

/-- `REG_VBK` (00_scope.md R8). -/
def regVbk : Addr := Config.block.regVbk
/-- `REG_DMA_SRC_HI` (00_scope.md R8). -/
def regDmaSrcHi : Addr := Config.block.regDmaSrcHi
/-- `REG_DMA_SRC_LO` (00_scope.md R8). -/
def regDmaSrcLo : Addr := Config.block.regDmaSrcLo
/-- `REG_DMA_DST_HI` (00_scope.md R8). -/
def regDmaDstHi : Addr := Config.block.regDmaDstHi
/-- `REG_DMA_DST_LO` (00_scope.md R8). -/
def regDmaDstLo : Addr := Config.block.regDmaDstLo
/-- `REG_DMA_CTRL` (00_scope.md R8). -/
def regDmaCtrl : Addr := Config.block.regDmaCtrl
/-- `REG_SVBK` (00_scope.md R8). -/
def regSvbk : Addr := Config.block.regSvbk

/-- `OW[26:24]`, the operation select (30_encoding.md R110, R111). -/
def fieldOp (w : OpWord) : BitVec 3 := w.extractLsb' 24 3

/-- `OW[23:8]`, the guest address (30_encoding.md R111). -/
def fieldAddr (w : OpWord) : Addr := w.extractLsb' 8 16

/-- `OW[7:0]`, the data byte (30_encoding.md R111). -/
def fieldData (w : OpWord) : Byte := w.extractLsb' 0 8

/-- The operation word of an operation, an address and a data byte (30_encoding.md R111). -/
def opWord (op : BitVec 3) (a : Addr) (v : Byte) : OpWord := op ++ a ++ v

/-- The operation word of `RD a`; the data field is written as zero (30_encoding.md R111). -/
def rdWord (a : Addr) : OpWord := opWord 0#3 a 0#8

/-- The operation word of `WR a v` (30_encoding.md R111). -/
def wrWord (a : Addr) (v : Byte) : OpWord := opWord 1#3 a v

/-- The control range `k = addr[14:13]` of a control write (30_encoding.md R116). -/
def controlRange (a : Addr) : BitVec 2 := a.extractLsb' 13 2

/-! ## The decoder -/

/-- The pieces of the session that change how a fixed word decodes (30_encoding.md R126), with `ramBanks`, which tells the
absent storage apart (43_mapper.md R275). -/
structure DecodeCtx where
  family : Family
  hasRumble : Bool
  ramBanks : Nat
  mode : Bool
  ramEnable : Bool
  ramBank : BitVec 4
  deriving DecidableEq, Repr

/-- `isRtcSel` (10_state.md R27): family `C` with a selector that names a clock register. -/
def DecodeCtx.isRtcSel (c : DecodeCtx) : Bool :=
  c.family == .C && decide (Config.block.rtcSelS ≤ c.ramBank) && decide (c.ramBank ≤ Config.block.rtcSelDH)

/-- The storage-window read's row, by the order of checks of 43_mapper.md R275. -/
def decodeSramRead (c : DecodeCtx) (off : BitVec 13) : Instr :=
  if c.ramEnable = false then .rdSramOff off
  else if c.isRtcSel = true then .rdSramRtc off
  else if c.ramBanks = 0 then .rdSramNone off
  else .rdSramBank off

/-- The storage-window write's row, by the order of checks of 43_mapper.md R281. -/
def decodeSramWrite (c : DecodeCtx) (off : BitVec 13) (v : Byte) : Instr :=
  if c.ramEnable = false then .wrSramOff off v
  else if c.isRtcSel = true then .wrSramRtc off v
  else if c.ramBanks = 0 then .wrSramNone off v
  else .wrSramBank off v

/-- The row of a read (30_encoding.md R114, 43_mapper.md R270). -/
def decodeRead (c : DecodeCtx) (a : Addr) : Instr :=
  if a = regVbk then .rdVbk
  else if a = regDmaSrcHi then .rdDmaSrcHi
  else if a = regDmaSrcLo then .rdDmaSrcLo
  else if a = regDmaDstHi then .rdDmaDstHi
  else if a = regDmaDstLo then .rdDmaDstLo
  else if a = regDmaCtrl then .rdDmaCtrl
  else if a = regSvbk then .rdSvbk
  else if Config.block.extLo ≤ a then .rdExt a
  else if Config.block.echoLo ≤ a then .rdEcho a
  else if Config.block.wramxLo ≤ a then .rdWramx (a.extractLsb' 0 12)
  else if Config.block.wram0Lo ≤ a then .rdWram0 (a.extractLsb' 0 12)
  else if Config.block.sramLo ≤ a then decodeSramRead c (a.extractLsb' 0 13)
  else if Config.block.vramLo ≤ a then .rdVram (a.extractLsb' 0 13)
  else if Config.block.romxLo ≤ a then .rdRomx (a.extractLsb' 0 14)
  else .rdRom0 (a.extractLsb' 0 14)

/-- The row of a control write on family `A` (30_encoding.md R117). -/
def decodeControlA (c : DecodeCtx) (a : Addr) (v : Byte) : Instr :=
  if controlRange a = 0#2 then .ramen (v.extractLsb' 0 4)
  else if controlRange a = 1#2 then .romloA (v.extractLsb' 0 5)
  else if controlRange a = 2#2 then
    if c.mode = false then .upperARom (v.extractLsb' 0 2) else .upperARam (v.extractLsb' 0 2)
  else .modeA (v.extractLsb' 0 1)

/-- The row of a control write on family `B` (30_encoding.md R117). -/
def decodeControlB (a : Addr) (v : Byte) : Instr :=
  if controlRange a = 0#2 then .ramen (v.extractLsb' 0 4)
  else if controlRange a = 1#2 then .rombB (v.extractLsb' 0 4)
  else .ignB a v

/-- The row of a control write on family `C` (30_encoding.md R117, R118). -/
def decodeControlC (a : Addr) (v : Byte) : Instr :=
  if controlRange a = 0#2 then .ramen (v.extractLsb' 0 4)
  else if controlRange a = 1#2 then .rombC (v.extractLsb' 0 7)
  else if controlRange a = 2#2 then
    if acceptedSelector (v.extractLsb' 0 4) = true then .ramselC (v.extractLsb' 0 4) else .ramselCRsvd (v.extractLsb' 0 4)
  else .latchC v

/-- The row of a control write on family `D` (30_encoding.md R116, R117): the second range is split by `addr[12]`. -/
def decodeControlD (c : DecodeCtx) (a : Addr) (v : Byte) : Instr :=
  if controlRange a = 0#2 then .ramen (v.extractLsb' 0 4)
  else if controlRange a = 1#2 then
    if a.extractLsb' 12 1 = 0#1 then .romloD v else .romhiD (v.extractLsb' 0 1)
  else if controlRange a = 2#2 then
    if c.hasRumble = false then .rambD (v.extractLsb' 0 4) else .rambDRumble (v.extractLsb' 3 1) (v.extractLsb' 0 3)
  else .ignD a v

/-- The row of a control write, a `WR` below 0x8000 (30_encoding.md R116, R117, 41_bank_switch.md R180). -/
def decodeControl (c : DecodeCtx) (a : Addr) (v : Byte) : Instr :=
  match c.family with
  | .NONE => .ctlNone a v
  | .A => decodeControlA c a v
  | .B => decodeControlB a v
  | .C => decodeControlC a v
  | .D => decodeControlD c a v
  | .E => .ctlEf a v
  | .F => .ctlEf a v

/-- The row of a write (30_encoding.md R114, 43_mapper.md R271). -/
def decodeWrite (c : DecodeCtx) (a : Addr) (v : Byte) : Instr :=
  if a = regVbk then .wrVbk v
  else if a = regDmaSrcHi then .wrDmaSrcHi v
  else if a = regDmaSrcLo then .wrDmaSrcLo v
  else if a = regDmaDstHi then .wrDmaDstHi v
  else if a = regDmaDstLo then .wrDmaDstLo v
  else if a = regDmaCtrl then .wrDmaCtrl (v.extractLsb' 7 1) (v.extractLsb' 0 7)
  else if a = regSvbk then .wrSvbk v
  else if Config.block.extLo ≤ a then .wrExt a v
  else if Config.block.echoLo ≤ a then .wrEcho a v
  else if Config.block.wramxLo ≤ a then .wrWramx (a.extractLsb' 0 12) v
  else if Config.block.wram0Lo ≤ a then .wrWram0 (a.extractLsb' 0 12) v
  else if Config.block.sramLo ≤ a then decodeSramWrite c (a.extractLsb' 0 13) v
  else if Config.block.vramLo ≤ a then .wrVram (a.extractLsb' 0 13) v
  else decodeControl c a v

/-- The instruction an operation word stands for in a loaded session: total, since every word finds a row (30_encoding.md
R114, R125, R129). -/
def decode (c : DecodeCtx) (w : OpWord) : Instr :=
  if fieldOp w = 0#3 then decodeRead c (fieldAddr w)
  else if fieldOp w = 1#3 then decodeWrite c (fieldAddr w) (fieldData w)
  else if fieldOp w = 2#3 then .hb
  else if fieldOp w = 3#3 then .tick
  else if fieldOp w = 4#3 then .load
  else if fieldOp w = 5#3 then .reset
  else if fieldOp w = 6#3 then .save
  else .restore

/-- Why bits are no instruction. -/
inductive Reject where
  /-- No session exists and the operation is not `LOAD` (10_state.md R20). -/
  | unloaded
  /-- The bits do not fit a 27-bit operation word (30_encoding.md R111). -/
  | notAnOperationWord
  deriving DecidableEq, Repr

/-- The decoder in either condition of the block: while `Unloaded` only `LOAD` is an operation (10_state.md R20). -/
def decodeIn (c : Option DecodeCtx) (w : OpWord) : Except Reject Instr :=
  match c with
  | some c => .ok (decode c w)
  | none => if fieldOp w = 4#3 then .ok .load else .error .unloaded

/-- The decoder on any bits. -/
def decodeBits (c : Option DecodeCtx) (n : Nat) : Except Reject Instr :=
  if n < 2 ^ 27 then decodeIn c (BitVec.ofNat 27 n) else .error .notAnOperationWord

/-! ## The condition of a row -/

/-- The row's `cond` in spec/opcode_table.json, on the session. -/
def Instr.cond (c : DecodeCtx) : Instr → Bool
  | .rdVbk => true
  | .rdDmaSrcHi => true
  | .rdDmaSrcLo => true
  | .rdDmaDstHi => true
  | .rdDmaDstLo => true
  | .rdDmaCtrl => true
  | .rdSvbk => true
  | .rdExt _ => true
  | .rdEcho _ => true
  | .rdWramx _ => true
  | .rdWram0 _ => true
  | .rdSramOff _ => !c.ramEnable
  | .rdSramRtc _ => c.ramEnable && c.isRtcSel
  | .rdSramNone _ => c.ramEnable && !c.isRtcSel && c.ramBanks == 0
  | .rdSramBank _ => c.ramEnable && !c.isRtcSel && decide (0 < c.ramBanks)
  | .rdVram _ => true
  | .rdRomx _ => true
  | .rdRom0 _ => true
  | .wrVbk _ => true
  | .wrDmaSrcHi _ => true
  | .wrDmaSrcLo _ => true
  | .wrDmaDstHi _ => true
  | .wrDmaDstLo _ => true
  | .wrDmaCtrl _ _ => true
  | .wrSvbk _ => true
  | .wrExt _ _ => true
  | .wrEcho _ _ => true
  | .wrWramx _ _ => true
  | .wrWram0 _ _ => true
  | .wrSramOff _ _ => !c.ramEnable
  | .wrSramRtc _ _ => c.ramEnable && c.isRtcSel
  | .wrSramNone _ _ => c.ramEnable && !c.isRtcSel && c.ramBanks == 0
  | .wrSramBank _ _ => c.ramEnable && !c.isRtcSel && decide (0 < c.ramBanks)
  | .wrVram _ _ => true
  | .ctlNone _ _ => c.family == .NONE
  | .ctlEf _ _ => (c.family == .E || c.family == .F)
  | .ramen _ => (c.family == .A || c.family == .B || c.family == .C || c.family == .D)
  | .romloA _ => c.family == .A
  | .upperARom _ => c.family == .A && !c.mode
  | .upperARam _ => c.family == .A && c.mode
  | .modeA _ => c.family == .A
  | .rombB _ => c.family == .B
  | .ignB _ _ => c.family == .B
  | .rombC _ => c.family == .C
  | .ramselC _ => c.family == .C
  | .ramselCRsvd _ => c.family == .C
  | .latchC _ => c.family == .C
  | .romloD _ => c.family == .D
  | .romhiD _ => c.family == .D
  | .rambD _ => c.family == .D && !c.hasRumble
  | .rambDRumble _ _ => c.family == .D && c.hasRumble
  | .ignD _ _ => c.family == .D
  | .hb => true
  | .tick => true
  | .load => true
  | .reset => true
  | .save => true
  | .restore => true

/-- The row of `i` is the one that applies in the session: its fields are of its window and its condition holds
(30_encoding.md R111). -/
def applies (c : DecodeCtx) (i : Instr) : Bool := i.wellFormed && i.cond c

/-! ## The encoder -/

/-- The operation word of an instruction, from the patterns of 30_encoding.md R111, R114 and R117; bits the row ignores are
written as zero. -/
def encode : Instr → OpWord
  | .rdVbk => rdWord 0xFF4F#16
  | .rdDmaSrcHi => rdWord 0xFF51#16
  | .rdDmaSrcLo => rdWord 0xFF52#16
  | .rdDmaDstHi => rdWord 0xFF53#16
  | .rdDmaDstLo => rdWord 0xFF54#16
  | .rdDmaCtrl => rdWord 0xFF55#16
  | .rdSvbk => rdWord 0xFF70#16
  | .rdExt addr => rdWord addr
  | .rdEcho addr => rdWord addr
  | .rdWramx off => rdWord (0b1101#4 ++ off)
  | .rdWram0 off => rdWord (0b1100#4 ++ off)
  | .rdSramOff off => rdWord (0b101#3 ++ off)
  | .rdSramRtc off => rdWord (0b101#3 ++ off)
  | .rdSramNone off => rdWord (0b101#3 ++ off)
  | .rdSramBank off => rdWord (0b101#3 ++ off)
  | .rdVram off => rdWord (0b100#3 ++ off)
  | .rdRomx off => rdWord (0b01#2 ++ off)
  | .rdRom0 off => rdWord (0b00#2 ++ off)
  | .wrVbk data => wrWord 0xFF4F#16 data
  | .wrDmaSrcHi data => wrWord 0xFF51#16 data
  | .wrDmaSrcLo data => wrWord 0xFF52#16 data
  | .wrDmaDstHi data => wrWord 0xFF53#16 data
  | .wrDmaDstLo data => wrWord 0xFF54#16 data
  | .wrDmaCtrl mode n => wrWord 0xFF55#16 (mode ++ n)
  | .wrSvbk data => wrWord 0xFF70#16 data
  | .wrExt addr data => wrWord addr data
  | .wrEcho addr data => wrWord addr data
  | .wrWramx off data => wrWord (0b1101#4 ++ off) data
  | .wrWram0 off data => wrWord (0b1100#4 ++ off) data
  | .wrSramOff off data => wrWord (0b101#3 ++ off) data
  | .wrSramRtc off data => wrWord (0b101#3 ++ off) data
  | .wrSramNone off data => wrWord (0b101#3 ++ off) data
  | .wrSramBank off data => wrWord (0b101#3 ++ off) data
  | .wrVram off data => wrWord (0b100#3 ++ off) data
  | .ctlNone addr data => wrWord addr data
  | .ctlEf addr data => wrWord addr data
  | .ramen nibble => wrWord 0x0000#16 (0#4 ++ nibble)
  | .romloA bank => wrWord 0x2000#16 (0#3 ++ bank)
  | .upperARom upper => wrWord 0x4000#16 (0#6 ++ upper)
  | .upperARam upper => wrWord 0x4000#16 (0#6 ++ upper)
  | .modeA mode => wrWord 0x6000#16 (0#7 ++ mode)
  | .rombB bank => wrWord 0x2000#16 (0#4 ++ bank)
  | .ignB addr data => wrWord addr data
  | .rombC bank => wrWord 0x2000#16 (0#1 ++ bank)
  | .ramselC sel => wrWord 0x4000#16 (0#4 ++ sel)
  | .ramselCRsvd sel => wrWord 0x4000#16 (0#4 ++ sel)
  | .latchC data => wrWord 0x6000#16 data
  | .romloD bank => wrWord 0x2000#16 bank
  | .romhiD bit8 => wrWord 0x3000#16 (0#7 ++ bit8)
  | .rambD bank => wrWord 0x4000#16 (0#4 ++ bank)
  | .rambDRumble motor bank => wrWord 0x4000#16 (0#4 ++ motor ++ bank)
  | .ignD addr data => wrWord addr data
  | .hb => opWord 2#3 0#16 0#8
  | .tick => opWord 3#3 0#16 0#8
  | .load => opWord 4#3 0#16 0#8
  | .reset => opWord 5#3 0#16 0#8
  | .save => opWord 6#3 0#16 0#8
  | .restore => opWord 7#3 0#16 0#8

/-! ## The opcode table as data -/

/-- One row of spec/opcode_table.json: the row applies to a word when `word & mask = pattern` and `cond` holds
(30_encoding.md R111); `instr` reads the row's fields. -/
structure TableRow where
  mask : OpWord
  pattern : OpWord
  cond : DecodeCtx → OpWord → Bool
  instr : OpWord → Instr

/-- The read rows of spec/opcode_table.json, in the table's order. -/
def rowsRead : List TableRow := [
  ⟨0x7FFFF00#27, 0x0FF4F00#27, fun _ _ => true, fun _ => .rdVbk⟩,
  ⟨0x7FFFF00#27, 0x0FF5100#27, fun _ _ => true, fun _ => .rdDmaSrcHi⟩,
  ⟨0x7FFFF00#27, 0x0FF5200#27, fun _ _ => true, fun _ => .rdDmaSrcLo⟩,
  ⟨0x7FFFF00#27, 0x0FF5300#27, fun _ _ => true, fun _ => .rdDmaDstHi⟩,
  ⟨0x7FFFF00#27, 0x0FF5400#27, fun _ _ => true, fun _ => .rdDmaDstLo⟩,
  ⟨0x7FFFF00#27, 0x0FF5500#27, fun _ _ => true, fun _ => .rdDmaCtrl⟩,
  ⟨0x7FFFF00#27, 0x0FF7000#27, fun _ _ => true, fun _ => .rdSvbk⟩,
  ⟨0x7FE0000#27, 0x0FE0000#27, fun _ _ => true, fun w => .rdExt (fieldAddr w)⟩,
  ⟨0x7E00000#27, 0x0E00000#27, fun _ _ => true, fun w => .rdEcho (fieldAddr w)⟩,
  ⟨0x7F00000#27, 0x0D00000#27, fun _ _ => true, fun w => .rdWramx (w.extractLsb' 8 12)⟩,
  ⟨0x7F00000#27, 0x0C00000#27, fun _ _ => true, fun w => .rdWram0 (w.extractLsb' 8 12)⟩,
  ⟨0x7E00000#27, 0x0A00000#27, fun c _ => !c.ramEnable, fun w => .rdSramOff (w.extractLsb' 8 13)⟩,
  ⟨0x7E00000#27, 0x0A00000#27, fun c _ => c.ramEnable && c.isRtcSel, fun w => .rdSramRtc (w.extractLsb' 8 13)⟩,
  ⟨0x7E00000#27, 0x0A00000#27, fun c _ => c.ramEnable && !c.isRtcSel && c.ramBanks == 0, fun w => .rdSramNone (w.extractLsb' 8 13)⟩,
  ⟨0x7E00000#27, 0x0A00000#27, fun c _ => c.ramEnable && !c.isRtcSel && decide (0 < c.ramBanks), fun w => .rdSramBank (w.extractLsb' 8 13)⟩,
  ⟨0x7E00000#27, 0x0800000#27, fun _ _ => true, fun w => .rdVram (w.extractLsb' 8 13)⟩,
  ⟨0x7C00000#27, 0x0400000#27, fun _ _ => true, fun w => .rdRomx (w.extractLsb' 8 14)⟩,
  ⟨0x7C00000#27, 0x0000000#27, fun _ _ => true, fun w => .rdRom0 (w.extractLsb' 8 14)⟩]

/-- The window and register write rows of spec/opcode_table.json, in the table's order. -/
def rowsWrite : List TableRow := [
  ⟨0x7FFFF00#27, 0x1FF4F00#27, fun _ _ => true, fun w => .wrVbk (fieldData w)⟩,
  ⟨0x7FFFF00#27, 0x1FF5100#27, fun _ _ => true, fun w => .wrDmaSrcHi (fieldData w)⟩,
  ⟨0x7FFFF00#27, 0x1FF5200#27, fun _ _ => true, fun w => .wrDmaSrcLo (fieldData w)⟩,
  ⟨0x7FFFF00#27, 0x1FF5300#27, fun _ _ => true, fun w => .wrDmaDstHi (fieldData w)⟩,
  ⟨0x7FFFF00#27, 0x1FF5400#27, fun _ _ => true, fun w => .wrDmaDstLo (fieldData w)⟩,
  ⟨0x7FFFF00#27, 0x1FF5500#27, fun _ _ => true, fun w => .wrDmaCtrl (w.extractLsb' 7 1) (w.extractLsb' 0 7)⟩,
  ⟨0x7FFFF00#27, 0x1FF7000#27, fun _ _ => true, fun w => .wrSvbk (fieldData w)⟩,
  ⟨0x7FE0000#27, 0x1FE0000#27, fun _ _ => true, fun w => .wrExt (fieldAddr w) (fieldData w)⟩,
  ⟨0x7E00000#27, 0x1E00000#27, fun _ _ => true, fun w => .wrEcho (fieldAddr w) (fieldData w)⟩,
  ⟨0x7F00000#27, 0x1D00000#27, fun _ _ => true, fun w => .wrWramx (w.extractLsb' 8 12) (fieldData w)⟩,
  ⟨0x7F00000#27, 0x1C00000#27, fun _ _ => true, fun w => .wrWram0 (w.extractLsb' 8 12) (fieldData w)⟩,
  ⟨0x7E00000#27, 0x1A00000#27, fun c _ => !c.ramEnable, fun w => .wrSramOff (w.extractLsb' 8 13) (fieldData w)⟩,
  ⟨0x7E00000#27, 0x1A00000#27, fun c _ => c.ramEnable && c.isRtcSel, fun w => .wrSramRtc (w.extractLsb' 8 13) (fieldData w)⟩,
  ⟨0x7E00000#27, 0x1A00000#27, fun c _ => c.ramEnable && !c.isRtcSel && c.ramBanks == 0, fun w => .wrSramNone (w.extractLsb' 8 13) (fieldData w)⟩,
  ⟨0x7E00000#27, 0x1A00000#27, fun c _ => c.ramEnable && !c.isRtcSel && decide (0 < c.ramBanks), fun w => .wrSramBank (w.extractLsb' 8 13) (fieldData w)⟩,
  ⟨0x7E00000#27, 0x1800000#27, fun _ _ => true, fun w => .wrVram (w.extractLsb' 8 13) (fieldData w)⟩]

/-- The control write rows of spec/opcode_table.json, in the table's order. -/
def rowsControl : List TableRow := [
  ⟨0x7800000#27, 0x1000000#27, fun c _ => c.family == .NONE, fun w => .ctlNone (fieldAddr w) (fieldData w)⟩,
  ⟨0x7800000#27, 0x1000000#27, fun c _ => (c.family == .E || c.family == .F), fun w => .ctlEf (fieldAddr w) (fieldData w)⟩,
  ⟨0x7E00000#27, 0x1000000#27, fun c _ => (c.family == .A || c.family == .B || c.family == .C || c.family == .D), fun w => .ramen (w.extractLsb' 0 4)⟩,
  ⟨0x7E00000#27, 0x1200000#27, fun c _ => c.family == .A, fun w => .romloA (w.extractLsb' 0 5)⟩,
  ⟨0x7E00000#27, 0x1400000#27, fun c _ => c.family == .A && !c.mode, fun w => .upperARom (w.extractLsb' 0 2)⟩,
  ⟨0x7E00000#27, 0x1400000#27, fun c _ => c.family == .A && c.mode, fun w => .upperARam (w.extractLsb' 0 2)⟩,
  ⟨0x7E00000#27, 0x1600000#27, fun c _ => c.family == .A, fun w => .modeA (w.extractLsb' 0 1)⟩,
  ⟨0x7E00000#27, 0x1200000#27, fun c _ => c.family == .B, fun w => .rombB (w.extractLsb' 0 4)⟩,
  ⟨0x7C00000#27, 0x1400000#27, fun c _ => c.family == .B, fun w => .ignB (fieldAddr w) (fieldData w)⟩,
  ⟨0x7E00000#27, 0x1200000#27, fun c _ => c.family == .C, fun w => .rombC (w.extractLsb' 0 7)⟩,
  ⟨0x7E00000#27, 0x1400000#27, fun c w => c.family == .C && acceptedSelector (w.extractLsb' 0 4), fun w => .ramselC (w.extractLsb' 0 4)⟩,
  ⟨0x7E00000#27, 0x1400000#27, fun c w => c.family == .C && !acceptedSelector (w.extractLsb' 0 4), fun w => .ramselCRsvd (w.extractLsb' 0 4)⟩,
  ⟨0x7E00000#27, 0x1600000#27, fun c _ => c.family == .C, fun w => .latchC (w.extractLsb' 0 8)⟩,
  ⟨0x7F00000#27, 0x1200000#27, fun c _ => c.family == .D, fun w => .romloD (w.extractLsb' 0 8)⟩,
  ⟨0x7F00000#27, 0x1300000#27, fun c _ => c.family == .D, fun w => .romhiD (w.extractLsb' 0 1)⟩,
  ⟨0x7E00000#27, 0x1400000#27, fun c _ => c.family == .D && !c.hasRumble, fun w => .rambD (w.extractLsb' 0 4)⟩,
  ⟨0x7E00000#27, 0x1400000#27, fun c _ => c.family == .D && c.hasRumble, fun w => .rambDRumble (w.extractLsb' 3 1) (w.extractLsb' 0 3)⟩,
  ⟨0x7E00000#27, 0x1600000#27, fun c _ => c.family == .D, fun w => .ignD (fieldAddr w) (fieldData w)⟩]

/-- The event rows of spec/opcode_table.json, in the table's order. -/
def rowsEvent : List TableRow := [
  ⟨0x7000000#27, 0x2000000#27, fun _ _ => true, fun _ => .hb⟩,
  ⟨0x7000000#27, 0x3000000#27, fun _ _ => true, fun _ => .tick⟩,
  ⟨0x7000000#27, 0x4000000#27, fun _ _ => true, fun _ => .load⟩,
  ⟨0x7000000#27, 0x5000000#27, fun _ _ => true, fun _ => .reset⟩,
  ⟨0x7000000#27, 0x6000000#27, fun _ _ => true, fun _ => .save⟩,
  ⟨0x7000000#27, 0x7000000#27, fun _ _ => true, fun _ => .restore⟩]

/-- The opcode table, most specific row first (30_encoding.md R111, R129). -/
def opcodeTable : List TableRow := rowsRead ++ rowsWrite ++ rowsControl ++ rowsEvent

/-- A row applies to a word in a session (30_encoding.md R111). -/
def TableRow.takes (c : DecodeCtx) (w : OpWord) (r : TableRow) : Bool :=
  w &&& r.mask == r.pattern && r.cond c w

/-! ## The decoder's answer to a bare word -/

/-- The decode-relevant state of the session that stands in where none is given: right after `LOAD 19 00 00` (family `D`,
no motor, no storage; log 1). -/
def standingCtx : DecodeCtx :=
  { family := .D, hasRumble := false, ramBanks := 0, mode := false, ramEnable := false, ramBank := 0#4 }

/-- The instruction the decoder reads from a word numbered as the opcode table numbers it, in the standing session (log 1).
The word arrives whole on the block's ports, so no byte order enters. -/
def decodeTableWord (_nbits w : Nat) : Option Instr :=
  match decodeBits (some standingCtx) w with
  | .ok i => some i
  | .error _ => none

end Sys2Proof
end

