-- ==== Sys2Proof/Machine/State.lean ====
section
/-! DEFINITION. The state of the block as plain data: the session (10_state.md), the environment beside it (R51), the ports
(30_encoding.md R112), and the reasons a step can stop. -/

namespace Sys2Proof.Machine

/-- A backing array: (index, byte) pairs, indices strictly rising; what an unlisted index reads as is said by region
(`Region.unlisted`, log 7, log 13). -/
abbrev Mem := List Host.Cell

/-- The four backing spaces (10_state.md R49). -/
inductive Region where
  | rom | sram | vram | wram
  deriving DecidableEq, Repr

/-- What an unlisted index of a backing array reads as: a fixed byte of the array's notation for the arrays `LOAD` brings
(log 13), no byte for the arrays whose first contents are drawn (10_state.md R47, R48; log 7). -/
def Region.unlisted : Region → Option Byte
  | .rom => some 0x00#8
  | .sram => some 0x00#8
  | .vram => none
  | .wram => none

/-- A byte array of `len` bytes, an argument of `LOAD` (30_encoding.md R112): the bytes listed, every other byte 0x00
(log 13). -/
structure Image where
  len : Nat
  cells : Mem
  deriving DecidableEq, Repr

/-- The Cartridge Descriptor (10_state.md R22). -/
structure Desc where
  family : Family
  romBanks : Nat
  ramBanks : Nat
  hasRTC : Bool
  hasRumble : Bool
  rumbleStrength : Nat
  hasStorage : Bool
  deriving DecidableEq, Repr

/-- A clock register file (10_state.md R34, R37): seconds, minutes, hours, day low, day high with the halt and carry flags. -/
structure ClockRegs where
  S : Byte
  M : Byte
  H : Byte
  DL : Byte
  DH : Byte
  deriving DecidableEq, Repr

/-- The five clock registers by name (10_state.md R34). -/
inductive ClockReg where
  | S | M | H | DL | DH
  deriving DecidableEq, Repr

/-- `dmaPhase` (10_state.md R42). -/
inductive Phase where
  | idle | armed | transferring
  deriving DecidableEq, Repr

/-- The DMA registers: the staging registers (10_state.md R39), the pointers (R40), the length left (R41), the phase (R42). -/
structure Dma where
  srcHi : Byte
  srcLo : Byte
  dstHi : Byte
  dstLo : Byte
  src : Addr
  dst : Addr
  remaining : BitVec 12
  phase : Phase
  deriving DecidableEq, Repr

/-- A cartridge session (10_state.md R20 to R48). `drawn` is the model's own: the number of the draw that fills the unwritten
bytes of `vram` and `wram` (log 7). -/
structure Session where
  desc : Desc
  refused : Bool
  bank : BankState
  vramBank : BitVec 1
  wramBank : BitVec 3
  live : ClockRegs
  snap : ClockRegs
  lastSync : Nat
  dma : Dma
  rom : Mem
  sram : Mem
  vram : Mem
  wram : Mem
  drawn : Nat
  deriving DecidableEq, Repr

end Sys2Proof.Machine

/-- FREE VALUE (93 U1): the function from the family, the address, the byte and the session to a new Bank-Switch State that
`EF_CONTROL_DECODE` names (41_bank_switch.md R206), under the policy `decode`. -/
opaque Sys2Proof.Config.efDecode (f : Sys2Proof.Family) (a : Sys2Proof.Addr) (v : Sys2Proof.Byte)
  (x : Sys2Proof.Machine.Session) : Sys2Proof.BankState

namespace Sys2Proof.Machine

/-- The input side ports (30_encoding.md R112). -/
structure SidePorts where
  delta : Nat
  typeByte : Byte
  romSizeByte : Byte
  ramSizeByte : Byte
  rom : Image
  initSram : Image
  record : List Byte
  trackRealTime : Bool
  deriving DecidableEq, Repr

/-- One operation the host will issue: the operation word, the operands on the side ports, and the seconds by which host
time rises before it where `HOST_TIME_SILENT_ADVANCE` is set (42_rtc.md R235; log 2). -/
structure Request where
  word : OpWord
  ports : SidePorts
  silent : Nat
  deriving DecidableEq, Repr

/-- What the last operation answered on the output ports (30_encoding.md R110, column "result"; log 3). -/
inductive Result where
  /-- The operation has no result, or none has run. -/
  | none
  /-- `rdata` of `RD`. -/
  | data (b : Byte)
  /-- `pending` of `HB`. -/
  | pending (p : Bool)
  /-- `loadOk` of `LOAD`; `false` is `InvalidHeader`. -/
  | loadOk (ok : Bool)
  /-- `record` of `SAVE`. -/
  | record (bytes : List Byte)
  /-- `restoreOk` of `RESTORE`. -/
  | restoreOk (ok : Bool)
  deriving DecidableEq, Repr

/-- An effect seen outside the block (30_encoding.md R113, 60_exceptions.md R415). -/
inductive Event where
  /-- `ExtRead` of an address and the byte it answered. -/
  | extRead (a : Addr) (b : Byte)
  /-- `ExtWrite` of a byte. -/
  | extWrite (a : Addr) (v : Byte)
  /-- A control write changed the `motor` level to this value (45_rumble.md R362; log 4). -/
  | motor (level : Bool)
  deriving DecidableEq, Repr

/-- What stands beside the session: the environment's host time (10_state.md R51), the open parameters, the operations to
come and the ports, the events so far (newest first), and the counters of the free values (log 6, log 7). -/
structure Env where
  hostNow : Nat
  par : Params
  queue : List Request
  ports : SidePorts
  result : Result
  events : List Event
  extCalls : Nat
  draws : Nat
  deriving DecidableEq, Repr

/-- The state: `session = none` is `Unloaded` (10_state.md R20). -/
structure State where
  session : Option Session
  env : Env
  deriving DecidableEq, Repr

/-- `Loaded(s)` with the environment beside it (10_state.md R20). -/
structure Loaded where
  ses : Session
  env : Env
  deriving DecidableEq, Repr

/-- The faults of the machine: none. No operation of a loaded session fails (60_exceptions.md R403, R404), and `InvalidHeader`
leaves the block in the legal state `Unloaded` (R400, R404). -/
inductive Fault where
  deriving DecidableEq, Repr

/-- Why a step has no next state. Each is safe: the machine stops where the spec gives no meaning. -/
inductive Refusal where
  /-- The instruction has no meaning in this model yet; raised by `exec`'s arms alone. Safe. -/
  | notModelled (mnemonic : String)
  /-- An operation other than `LOAD` while `Unloaded` (10_state.md R20); raised by `step` and by every meaning but that of
  `LOAD`. Safe. -/
  | unloaded
  /-- An instruction was given to `exec` in a session whose decoder would read another row from its word (30_encoding.md
  R111); raised by every meaning of a row with a condition, never by `step` (log 12). Safe. -/
  | rowNotSelected
  /-- `LOAD` with arrays whose lengths do not match the header (40_descriptor.md R169); raised by the meaning of `LOAD`. Safe. -/
  | arrayLengths
  /-- `SAVE` when host time or `lastSync` does not fit 64 bits (93_implementation_defined.md U15, 46_host_interface.md R378);
  raised by the meaning of `SAVE`. Safe. -/
  | timeDoesNotFit
  /-- The bits are no operation word (30_encoding.md R111); never raised by `step`, whose port has 27 bits. Safe. -/
  | notAnOperationWord
  deriving DecidableEq, Repr

/-- The side ports with nothing on them (log 2). -/
def SidePorts.idle : SidePorts :=
  { delta := 0, typeByte := 0, romSizeByte := 0, ramSizeByte := 0, rom := ⟨0, []⟩, initSram := ⟨0, []⟩, record := [],
    trackRealTime := false }

/-- The machine before any operation: `Unloaded` (10_state.md R20), host time 0 (70_reset_and_hazards.md R444; log 5), the open
parameters at their defaults (92_eei_decisions.md), no operation to come. -/
def State.reset : State :=
  { session := none
    env :=
      { hostNow := 0, par := Config.block.toParams, queue := [], ports := SidePorts.idle, result := .none, events := [],
        extCalls := 0, draws := 0 } }

end Sys2Proof.Machine
end

