-- ==== Sys2Proof/Machine/Operands.lean ====
section
/-! DEFINITION. The fixed parameters under their names (00_scope.md R8; their values stand in `Config.block`) and every operand
form: bank indices and their resolution, indices into the backing arrays, the assembled quantities of 30_encoding.md R123, the header code tables and the record's fields. -/

namespace Sys2Proof.Machine

/-! ## Parameters -/

/-- `UNMAPPED` (00_scope.md R8). -/
def unmapped : Byte := Config.block.unmapped
/-- `ROM_BANK_SIZE` (00_scope.md R8). -/
def romBankSize : Nat := Config.block.romBankSize
/-- `RAM_BANK_SIZE` (00_scope.md R8). -/
def ramBankSize : Nat := Config.block.ramBankSize
/-- `VRAM_BANK_SIZE` (00_scope.md R8). -/
def vramBankSize : Nat := Config.block.vramBankSize
/-- `VRAM_BANKS` (00_scope.md R8). -/
def vramBanks : Nat := Config.block.vramBanks
/-- `WRAM_BANK_SIZE` (00_scope.md R8). -/
def wramBankSize : Nat := Config.block.wramBankSize
/-- `WRAM_BANKS` (00_scope.md R8). -/
def wramBanks : Nat := Config.block.wramBanks
/-- `DMA_UNIT` (00_scope.md R8). -/
def dmaUnit : Nat := Config.block.dmaUnit
/-- `DMA_SRC_MASK` (00_scope.md R8). -/
def dmaSrcMask : Addr := Config.block.dmaSrcMask
/-- `DMA_DST_MASK` (00_scope.md R8). -/
def dmaDstMask : Addr := Config.block.dmaDstMask
/-- `DMA_DST_BASE` (00_scope.md R8). -/
def dmaDstBase : Addr := Config.block.dmaDstBase
/-- `SAVE_LENGTH` (00_scope.md R8). -/
def saveLength : Nat := Config.block.saveLength
/-- `SAVE_MAGIC`, first byte (00_scope.md R8). -/
def saveMagic0 : Byte := Config.block.saveMagic0
/-- `SAVE_MAGIC`, second byte (00_scope.md R8). -/
def saveMagic1 : Byte := Config.block.saveMagic1
/-- `SAVE_VERSION` (00_scope.md R8). -/
def saveVersion : Byte := Config.block.saveVersion

/-! ## Decode-relevant state -/

/-- The pieces of a session the decoder reads (30_encoding.md R126). -/
def Session.ctx (x : Session) : DecodeCtx :=
  { family := x.desc.family, hasRumble := x.desc.hasRumble, ramBanks := x.desc.ramBanks, mode := x.bank.mode,
    ramEnable := x.bank.ramEnable, ramBank := x.bank.ramBank }

/-- `isRtcSel(s)` (10_state.md R27). -/
def Session.isRtcSel (x : Session) : Bool := x.ctx.isRtcSel

/-! ## Bank indices -/

/-- `ZERO_FIX_FAMILIES` (00_scope.md R8). -/
def zeroFixFamily (f : Family) : Bool := Config.block.zeroFixFamilies.contains f

/-- The low field of a read-only bank index is zero: five bits on family `A`, the whole index on the families with one field
(30_encoding.md R117). -/
def lowFieldZero (f : Family) (x : BitVec 9) : Bool :=
  match f with
  | .A => x &&& 0x1F#9 == 0#9
  | .NONE => x == 0#9
  | .B => x == 0#9
  | .C => x == 0#9
  | .D => x == 0#9
  | .E => x == 0#9
  | .F => x == 0#9

/-- `zfix` in the scope the machine is built with (41_bank_switch.md R182): under `combined` a zero index becomes 1, under
`field` a zero low field becomes 1. -/
def zeroFix (scope : ZeroFixScope) (f : Family) (x : BitVec 9) : BitVec 9 :=
  if zeroFixFamily f = false then x
  else match scope with
    | .combined => if x = 0#9 then 1#9 else x
    | .field => if lowFieldZero f x = true then x ||| 1#9 else x

/-- `resolveReadOnlyBank()` (41_bank_switch.md R210). -/
def resolveReadOnlyBank (x : Session) : Nat := x.bank.romBank.toNat % x.desc.romBanks

/-- `resolvePersistentBank()` (41_bank_switch.md R211). -/
def resolvePersistentBank (x : Session) : Nat := x.bank.ramBank.toNat % x.desc.ramBanks

/-- The `wramBank` a written or restored three-bit field selects: 0 means 1 (43_mapper.md R293). -/
def wramBankOf (v : BitVec 3) : BitVec 3 := if v = 0#3 then 1#3 else v

/-! ## Indices into the backing arrays (20_memory.md R79) -/

/-- `ROMX` offset to `rom` index (43_mapper.md R273). -/
def romxIndex (x : Session) (off : BitVec 14) : Nat := resolveReadOnlyBank x * romBankSize + off.toNat

/-- `VRAM` offset to `vram` index (43_mapper.md R274). -/
def vramIndex (x : Session) (off : BitVec 13) : Nat := x.vramBank.toNat * vramBankSize + off.toNat

/-- `SRAM` offset to `sram` index (43_mapper.md R278). -/
def sramIndex (x : Session) (off : BitVec 13) : Nat := resolvePersistentBank x * ramBankSize + off.toNat

/-- `WRAMX` offset to `wram` index (43_mapper.md R287). -/
def wramxIndex (x : Session) (off : BitVec 12) : Nat := x.wramBank.toNat * wramBankSize + off.toNat

/-- The work-memory address an echo address stands for (43_mapper.md R290). -/
def echoTarget (a : Addr) : Addr := a - 0x2000#16

/-! ## Clock registers -/

/-- The clock register a selector value `RTC_SEL_S` to `RTC_SEL_DH` names (42_rtc.md R245). No other value reaches the
clock. -/
def ClockReg.ofSel (v : BitVec 4) : ClockReg :=
  if v = Config.block.rtcSelS then .S
  else if v = Config.block.rtcSelM then .M
  else if v = Config.block.rtcSelH then .H
  else if v = Config.block.rtcSelDL then .DL
  else .DH

/-- `field(r, sel)` (42_rtc.md R245). -/
def ClockRegs.get (r : ClockRegs) : ClockReg → Byte
  | .S => r.S
  | .M => r.M
  | .H => r.H
  | .DL => r.DL
  | .DH => r.DH

/-- The write masks `RTC_MASK_S` to `RTC_MASK_DH` (42_rtc.md R248). -/
def clockMask : ClockReg → Byte
  | .S => Config.block.rtcMaskS
  | .M => Config.block.rtcMaskM
  | .H => Config.block.rtcMaskH
  | .DL => Config.block.rtcMaskDL
  | .DH => Config.block.rtcMaskDH

/-- A masked write of one register of a file (42_rtc.md R246). -/
def ClockRegs.set (r : ClockRegs) (sel : ClockReg) (v : Byte) : ClockRegs :=
  match sel with
  | .S => { r with S := v &&& clockMask .S }
  | .M => { r with M := v &&& clockMask .M }
  | .H => { r with H := v &&& clockMask .H }
  | .DL => { r with DL := v &&& clockMask .DL }
  | .DH => { r with DH := v &&& clockMask .DH }

/-- Five bytes masked to the widths of the clock registers (46_host_interface.md R379). -/
def ClockRegs.masked (s m h dl dh : Byte) : ClockRegs :=
  { S := s &&& clockMask .S, M := m &&& clockMask .M, H := h &&& clockMask .H, DL := dl &&& clockMask .DL,
    DH := dh &&& clockMask .DH }

/-- `day(r) = DH[0] : DL` (42_rtc.md R231). -/
def ClockRegs.day (r : ClockRegs) : Nat := (r.DH &&& 1#8).toNat * 256 + r.DL.toNat

/-- `total(r)`, in seconds (42_rtc.md R231). -/
def ClockRegs.total (r : ClockRegs) : Nat :=
  r.S.toNat + 60 * r.M.toNat + 3600 * r.H.toNat + 86400 * r.day

/-! ## DMA quantities (30_encoding.md R123) -/

/-- The source address at arming (44_dma.md R330). -/
def Dma.armSrc (d : Dma) : Addr := (d.srcHi ++ d.srcLo) &&& dmaSrcMask

/-- The destination address at arming (44_dma.md R330). -/
def Dma.armDst (d : Dma) : Addr := ((d.dstHi ++ d.dstLo) &&& dmaDstMask) ||| dmaDstBase

/-- The length a trigger write's code names (44_dma.md R329). -/
def dmaLength (n : BitVec 7) : Nat := (n.toNat + 1) * dmaUnit

/-- The status byte of `REG_DMA_CTRL` (44_dma.md R342, 30_encoding.md R121). While a transfer is active with fewer than 16
bytes left, which 10_state.md R43 says never holds, R121 states no value for bits 6:0, and they are a free value (log 9). -/
def dmaStatus (d : Dma) : Byte :=
  if d.phase = .idle then unmapped
  else if dmaUnit ≤ d.remaining.toNat then BitVec.ofNat 8 (d.remaining.toNat / dmaUnit - 1) &&& 0x7F#8
  else 0#1 ++ Config.statusUnderflow d.remaining

/-! ## Header bytes -/

/-- `TYPE_TABLE`: family, `hasRTC`, `hasRumble`; no entry is a malformed byte (40_descriptor.md R162). -/
def typeTable (b : Byte) : Option (Family × Bool × Bool) := Config.block.typeTable.lookup b

/-- `ROM_SIZE_TABLE` (40_descriptor.md R163). -/
def romSizeTable (b : Byte) : Option Nat := Config.block.romSizeTable.lookup b

/-- `RAM_SIZE_TABLE` (40_descriptor.md R164). -/
def ramSizeTable (b : Byte) : Option Nat := Config.block.ramSizeTable.lookup b

/-- The descriptor of three listed codes (40_descriptor.md R160, R166, R167, R168): family `B` has one bank whatever its
RAM-size byte says. -/
def mkDesc (strength : Nat) (t : Family × Bool × Bool) (n m : Nat) : Desc :=
  { family := t.1
    romBanks := n
    ramBanks := if t.1 = .B then 1 else m
    hasRTC := t.2.1
    hasRumble := t.2.2
    rumbleStrength := if t.2.2 = true then strength else 0
    hasStorage := decide (0 < (if t.1 = .B then 1 else m)) }

/-- `loadDescriptor` (40_descriptor.md R160, R165): `none` is `InvalidHeader`. -/
def describe (strength : Nat) (typeByte romSizeByte ramSizeByte : Byte) : Option Desc :=
  match typeTable typeByte, romSizeTable romSizeByte, ramSizeTable ramSizeByte with
  | some t, some n, some m => some (mkDesc strength t n m)
  | none, _, _ => none
  | some _, none, _ => none
  | some _, some _, none => none

/-! ## Multi-byte fields of the save record, least significant byte first (20_memory.md R71) -/

/-- The `k` bytes of a number, least significant first. -/
def bytesOf : Nat → Nat → List Byte
  | 0, _ => []
  | k + 1, n => BitVec.ofNat 8 n :: bytesOf k (n / 256)

/-- The number that bytes stand for, least significant first. -/
def numberOf : List Byte → Nat
  | [] => 0
  | b :: bs => b.toNat + 256 * numberOf bs

/-- The number in bytes `i` to `i + k - 1` of a record. -/
def recordField (r : List Byte) (i k : Nat) : Nat := numberOf ((r.drop i).take k)

/-- Byte `i` of a record. -/
def recordByte (r : List Byte) (i : Nat) : Byte := r.getD i 0#8

end Sys2Proof.Machine
end

