-- ==== Sys2Proof/Machine/Flags.lean ====
section
/-! DEFINITION. The one-bit flags (10_state.md R44): what sets and clears each, and the flag bits of `DH` and of the save
record's flag byte. -/

namespace Sys2Proof.Machine

/-- A one-bit field as a flag. -/
def flagOf (b : BitVec 1) : Bool := b == 1#1

/-- A flag as a one-bit field. -/
def bitOf (b : Bool) : BitVec 1 := if b then 1#1 else 0#1

/-- `RAM_ENABLE_MAGIC` (00_scope.md R8). -/
def ramEnableMagic : BitVec 4 := Config.block.ramEnableMagic

/-- `ramEnable` after an enable write (41_bank_switch.md R183): set if and only if the nibble matches. -/
def ramEnableFlag (nibble : BitVec 4) : Bool := nibble == ramEnableMagic

/-- A latch-range write arms (41_bank_switch.md R198). -/
def latchArms (v : Byte) : Bool := v == 0x00#8

/-- A latch-range write captures: 0x01 while armed (41_bank_switch.md R198). -/
def latchCaptures (armed : Bool) (v : Byte) : Bool := v == 0x01#8 && armed

/-- `halt(r) = DH[6]` (42_rtc.md R231). -/
def ClockRegs.halt (r : ClockRegs) : Bool := r.DH.getLsbD 6

/-- `carry(r) = DH[7]` (42_rtc.md R231). -/
def ClockRegs.carry (r : ClockRegs) : Bool := r.DH.getLsbD 7

/-- `DH` after an advance to `days` days (42_rtc.md R238): carry set when the day counter passed 511 and never cleared, bit 0
the ninth day bit, the other bits kept. -/
def advanceDH (dh : Byte) (days : Nat) : Byte :=
  (dh &&& 0x7E#8) ||| (if 511 < days then 0x80#8 else dh &&& 0x80#8) ||| BitVec.ofNat 8 (days % 512 / 256)

/-- `active(s)` (10_state.md R42, R44). -/
def Dma.active (d : Dma) : Bool := d.phase != .idle

/-- The flag byte of the save record (46_host_interface.md R378, offset 6). -/
def flagByte (x : Session) : Byte :=
  0#3 ++ x.vramBank ++ bitOf x.bank.motor ++ bitOf x.bank.latchArmed ++ bitOf x.bank.ramEnable ++ bitOf x.bank.mode

/-- The `dmaPhase` code of the save record (46_host_interface.md R378, offset 36). -/
def phaseByte : Phase → Byte
  | .idle => 0#8
  | .armed => 1#8
  | .transferring => 2#8

/-- `phase(record[36])` (46_host_interface.md R379); a valid record holds 0, 1 or 2. -/
def phaseOf (b : Byte) : Phase :=
  if b = 0#8 then .idle else if b = 1#8 then .armed else .transferring

end Sys2Proof.Machine
end

