-- ==== Sys2Proof/Machine/Ops.lean ====
section
/-! DEFINITION. The named operations the meanings are written over: backing arrays, the bytes of a session, the external
port, taking the one exception, opening a session, and the frame every meaning of a row runs in. -/

namespace Sys2Proof.Machine

/-- The three outcomes of a step of this machine. -/
abbrev Outcome := Host.Outcome State Fault Refusal

/-! ## Backing arrays -/

/-- The byte listed at an index. -/
def Mem.find : Mem → Nat → Option Byte
  | [], _ => none
  | c :: m, i => if c.1 = i then some c.2 else Mem.find m i

/-- The array with a byte listed at an index. -/
def Mem.put : Mem → Nat → Byte → Mem
  | [], i, v => [(i, v)]
  | c :: m, i, v =>
    if i < c.1 then (i, v) :: c :: m
    else if i = c.1 then (i, v) :: m
    else c :: Mem.put m i v

/-- The array with nothing listed at an index. -/
def Mem.erase : Mem → Nat → Mem
  | [], _ => []
  | c :: m, i => if c.1 = i then m else c :: Mem.erase m i

/-- A store, keeping the canonical form: a byte equal to what an unlisted index reads as is not listed. -/
def Mem.write (unlisted : Option Byte) (m : Mem) (i : Nat) (v : Byte) : Mem :=
  if unlisted = some v then Mem.erase m i else Mem.put m i v

/-- The canonical form of an array of `size` bytes: indices strictly rising and inside the array, no byte listed that an
unlisted index reads as. -/
abbrev Mem.wf (unlisted : Option Byte) (size : Nat) (m : Mem) : Prop :=
  m.Pairwise (fun c d => c.1 < d.1) ∧ ∀ c ∈ m, c.1 < size ∧ unlisted ≠ some c.2

/-- The array an image stands for: pairs beyond its length dropped, a later pair over an earlier one (log 13). -/
def Image.toMem (r : Region) (g : Image) : Mem :=
  (g.cells.filter (fun c => decide (c.1 < g.len))).foldl (fun m c => Mem.write r.unlisted m c.1 c.2) []

/-! ## The bytes of a session (10_state.md R45 to R48) -/

/-- `s.rom[i]`. -/
def Session.romByte (x : Session) (i : Nat) : Byte := (Mem.find x.rom i).getD 0x00#8

/-- `s.sram[i]`. -/
def Session.sramByte (x : Session) (i : Nat) : Byte := (Mem.find x.sram i).getD 0x00#8

/-- `s.vram[i]`: a byte nothing has written is the drawn one (70_reset_and_hazards.md R442). -/
def Session.vramByte (x : Session) (i : Nat) : Byte := (Mem.find x.vram i).getD (Config.drawnVram x.drawn i)

/-- `s.wram[i]`: a byte nothing has written is the drawn one (70_reset_and_hazards.md R442). -/
def Session.wramByte (x : Session) (i : Nat) : Byte := (Mem.find x.wram i).getD (Config.drawnWram x.drawn i)

/-- `s.sram[i] <- v`. -/
def Session.storeSram (x : Session) (i : Nat) (v : Byte) : Session :=
  { x with sram := Mem.write Region.sram.unlisted x.sram i v }

/-- `s.vram[i] <- v`. -/
def Session.storeVram (x : Session) (i : Nat) (v : Byte) : Session :=
  { x with vram := Mem.write Region.vram.unlisted x.vram i v }

/-- `s.wram[i] <- v`. -/
def Session.storeWram (x : Session) (i : Nat) (v : Byte) : Session :=
  { x with wram := Mem.write Region.wram.unlisted x.wram i v }

/-! ## The loaded machine -/

/-- `Loaded(s)` as a state. -/
def Loaded.toState (r : Loaded) : State := { session := some r.ses, env := r.env }

/-- The loaded machine with another session. -/
def Loaded.withSes (r : Loaded) (x : Session) : Loaded := { r with ses := x }

/-- The loaded machine with another Bank-Switch State. -/
def Loaded.withBank (r : Loaded) (b : BankState) : Loaded := { r with ses := { r.ses with bank := b } }

/-- The loaded machine with other DMA registers. -/
def Loaded.withDma (r : Loaded) (d : Dma) : Loaded := { r with ses := { r.ses with dma := d } }

/-- The loaded machine with an answer on the output ports. -/
def Loaded.answer (r : Loaded) (v : Result) : Loaded := { r with env := { r.env with result := v } }

/-- The loaded machine with one more event in the history. -/
def Loaded.record (r : Loaded) (e : Event) : Loaded := { r with env := { r.env with events := e :: r.env.events } }

/-- The loaded machine with another Bank-Switch State after a control write; a change of the motor's level is an observable
effect of it (41_bank_switch.md R214, 30_encoding.md R113). -/
def Loaded.switchTo (r : Loaded) (b : BankState) : Loaded :=
  if r.ses.bank.motor = b.motor then r.withBank b else (r.withBank b).record (.motor b.motor)

/-! ## The external port (43_mapper.md R296, R297) -/

/-- `ExtRead(a)`: any byte; the call is recorded (93_implementation_defined.md U4; log 6). -/
def extRead (a : Addr) (r : Loaded) : Loaded × Byte :=
  let b := Config.extByte r.env.extCalls a
  ({ r with env := { r.env with extCalls := r.env.extCalls + 1, events := .extRead a b :: r.env.events } }, b)

/-- `ExtWrite(a, v)`: recorded, no effect on the block. -/
def extWrite (a : Addr) (v : Byte) (r : Loaded) : Loaded := r.record (.extWrite a v)

/-- The level of the output port `motor` (45_rumble.md R362). -/
def State.motorPort (s : State) : Bool :=
  match s.session with
  | some x => x.bank.motor
  | none => false

/-- The level of the output port `rumbleStrength`, valid while loaded (30_encoding.md R112, 45_rumble.md R364; log 16). -/
def State.rumbleStrengthPort (s : State) : Option Nat :=
  match s.session with
  | some x => some x.desc.rumbleStrength
  | none => none

/-! ## Taking the exception, and opening a session -/

/-- Taking `InvalidHeader`, the block's one exception (60_exceptions.md R400, R408): `loadOk` is 0, a session that existed is
gone (40_descriptor.md R171), nothing else is recorded. There is no return from it (R409). -/
def raiseInvalidHeader (s : State) : State :=
  { session := none, env := { s.env with result := .loadOk false } }

/-- The staging registers and pointers right after draw `n` (10_state.md R53): drawn bytes, no transfer. -/
def freshDma (n : Nat) : Dma :=
  { srcHi := Config.drawnSrcHi n, srcLo := Config.drawnSrcLo n, dstHi := Config.drawnDstHi n, dstLo := Config.drawnDstLo n,
    src := 0x0000#16, dst := 0x0000#16, remaining := 0#12, phase := .idle }

/-- The Bank-Switch State's reset values (10_state.md R53). -/
def freshBank : BankState :=
  { romBank := 1#9, ramBank := 0#4, mode := false, ramEnable := false, latchArmed := false, motor := false }

/-- A clock register file of zeros (10_state.md R53). -/
def zeroClock : ClockRegs := { S := 0#8, M := 0#8, H := 0#8, DL := 0#8, DH := 0#8 }

/-- The session right after a successful `LOAD` (10_state.md R53, column "after LOAD"), with draw `n`. -/
def freshSession (d : Desc) (rom sram : Mem) (now n : Nat) : Session :=
  { desc := d, refused := false, bank := freshBank, vramBank := 0#1, wramBank := 1#3, live := zeroClock, snap := zeroClock,
    lastSync := now, dma := freshDma n, rom := rom, sram := sram, vram := [], wram := [], drawn := n }

/-- The session right after `RESET` (10_state.md R53, column "after RESET"; R54), with draw `n`. -/
def resetSession (x : Session) (n : Nat) : Session :=
  { freshSession x.desc x.rom x.sram x.lastSync n with live := x.live, snap := x.snap }

/-- The state's draw counter moved past the draw just made. -/
def Env.nextDraw (e : Env) : Env := { e with draws := e.draws + 1 }

/-! ## The frame of a meaning -/

/-- The meaning of a row: refused while `Unloaded` (10_state.md R20) and where the session's decoder would read another row
(30_encoding.md R111; log 12), else the row's effect. -/
def onRow (i : Instr) (s : State) (f : Loaded → Loaded) : Outcome :=
  match s.session with
  | none => .refused .unloaded
  | some x => if applies x.ctx i = true then .next (f ⟨x, s.env⟩).toState else .refused .rowNotSelected

/-- A read: `rdata` is the row's byte. -/
def readRow (i : Instr) (s : State) (f : Loaded → Loaded × Byte) : Outcome :=
  onRow i s (fun r => (f r).1.answer (.data (f r).2))

/-- A write: no result. -/
def writeRow (i : Instr) (s : State) (f : Loaded → Loaded) : Outcome :=
  onRow i s (fun r => (f r).answer .none)

/-! ## Taking the next operation -/

/-- The next operation of the queue on the ports, host time risen before it where the machine lets it (42_rtc.md R235; log 2). -/
def takeRequest (s : State) (q : Request) (rest : List Request) : State :=
  { s with
    env :=
      { s.env with
        queue := rest
        ports := q.ports
        hostNow := if s.env.par.silentAdvance = true then s.env.hostNow + q.silent else s.env.hostNow } }

/-- What the decoder reads of the state. -/
def State.ctx (s : State) : Option DecodeCtx := s.session.map Session.ctx

/-- Taking an operation: none where the host issues none, else what the decoder reads from its word in the session, and the
state with its operands on the ports (30_encoding.md R111, R112). -/
def takeNext (s : State) : Option (Except Reject Instr × State) :=
  match s.env.queue with
  | [] => none
  | q :: rest => some (decodeIn s.ctx q.word, takeRequest s q rest)

/-- The refusal a decoder's rejection stands for. -/
def refusalOf : Reject → Refusal
  | .unloaded => .unloaded
  | .notAnOperationWord => .notAnOperationWord

/-! ## Placing an operation -/

/-- The session that stands in where a word is to run and none is loaded: right after `LOAD 19 00 00` with empty read-only
memory (log 1). -/
def standingSession (e : Env) : Session :=
  freshSession (mkDesc e.par.rumbleStrength (.D, false, false) 2 0) [] [] e.hostNow e.draws

/-- Side ports on which every operand is zero and `LOAD`'s arrays have the lengths the zero header declares (log 1). -/
def SidePorts.zero : SidePorts := { SidePorts.idle with rom := ⟨2 * romBankSize, []⟩ }

/-- The state whose next step runs an operation word: the word first in the queue with zero operands, and a session where
none is loaded and the word is not `LOAD`'s. That session takes a number of the draws, so that the next draw is another
(log 1, 70_reset_and_hazards.md R442). -/
def placeWord (s : State) (w : OpWord) : State :=
  let r : Request := { word := w, ports := SidePorts.zero, silent := 0 }
  let queued : Env := { s.env with queue := r :: s.env.queue }
  match s.session with
  | some x => { session := some x, env := queued }
  | none =>
    if fieldOp w = 4#3 then { session := none, env := queued }
    else { session := some (standingSession s.env), env := queued.nextDraw }

end Sys2Proof.Machine
end

