-- ==== Sys2Proof/Machine/Clock.lean ====
section
/-! DEFINITION. The Real-Time Clock Model (42_rtc.md): the advance, the synchronisation with host time, the latch, the
register read and write, and the meaning of `TICK`. -/

namespace Sys2Proof.Machine

/-- `advance(r, e)` (42_rtc.md R238): the seconds added and carried through the fields, the day counter modulo 512. -/
def advance (r : ClockRegs) (e : Nat) : ClockRegs :=
  let t := r.total + e
  { S := BitVec.ofNat 8 (t % 60)
    M := BitVec.ofNat 8 (t / 60 % 60)
    H := BitVec.ofNat 8 (t / 3600 % 24)
    DL := BitVec.ofNat 8 (t / 86400 % 512 % 256)
    DH := advanceDH r.DH (t / 86400) }

/-- `rtcSync()` on a session at a host time (42_rtc.md R236, R237): nothing while halted; a host time behind `lastSync` counts
as no time elapsed. -/
def syncSession (now : Nat) (x : Session) : Session :=
  if x.live.halt = true then x
  else
    { x with
      live := if 0 < now - x.lastSync then advance x.live (now - x.lastSync) else x.live
      lastSync := now }

/-- `rtcSync()` (42_rtc.md R236). -/
def rtcSync (r : Loaded) : Loaded := r.withSes (syncSession r.env.hostNow r.ses)

/-- `latch()` (42_rtc.md R242): the live registers into the snapshot, without a synchronisation (R243). -/
def latch (x : Session) : Session := { x with snap := x.live }

/-- `readRegister(sel)` (42_rtc.md R244): synchronise, then answer the snapshot's register. -/
def readRegister (sel : ClockReg) (r : Loaded) : Loaded × Byte :=
  let r1 := rtcSync r
  (r1, r1.ses.snap.get sel)

/-- The store of a clock register write on a synchronised session (42_rtc.md R246, R247): a write that clears the halt flag
moves `lastSync` to the host time. -/
def writeClock (now : Nat) (sel : ClockReg) (v : Byte) (x : Session) : Session :=
  let live := x.live.set sel v
  { x with
    live := live
    lastSync := if sel = .DH ∧ x.live.halt = true ∧ live.halt = false then now else x.lastSync }

/-- `writeRegister(sel, v)` (42_rtc.md R246): synchronise, then store. -/
def writeRegister (sel : ClockReg) (v : Byte) (r : Loaded) : Loaded :=
  let r1 := rtcSync r
  r1.withSes (writeClock r1.env.hostNow sel v r1.ses)

/-- `TICK` (42_rtc.md R241): host time grows by `delta`, then the clock synchronises. -/
def tickBy (delta : Nat) (r : Loaded) : Loaded :=
  rtcSync { r with env := { r.env with hostNow := r.env.hostNow + delta } }

/-- `TICK` (42_rtc.md R241). -/
def execTick (s : State) : Outcome :=
  onRow .tick s (fun r => (tickBy r.env.ports.delta r).answer .none)

end Sys2Proof.Machine
end

