-- ==== Sys2Proof/Machine/BankSwitch.lean ====
section
/-! DEFINITION. The Bank-Switch Controller (41_bank_switch.md): the control writes, `onWrite`, and the meanings of the rows
`RAMEN` to `IGN_D`, `CTL_NONE` and `CTL_EF`. -/

namespace Sys2Proof.Machine

/-! ## The control registers -/

/-- `RAMEN` (41_bank_switch.md R183). -/
def ctlRamen (nibble : BitVec 4) (r : Loaded) : Loaded :=
  r.withBank { r.ses.bank with ramEnable := ramEnableFlag nibble }

/-- `ROMLO_A` (41_bank_switch.md R185): the low five bits, the upper two kept. -/
def ctlRomloA (bank : BitVec 5) (r : Loaded) : Loaded :=
  r.withBank
    { r.ses.bank with
      romBank := zeroFix r.env.par.zeroFixScope .A ((r.ses.bank.romBank &&& 0x60#9) ||| bank.setWidth 9) }

/-- `UPPER_A` in mode A (41_bank_switch.md R186): the upper two bits, the low five kept. -/
def ctlUpperARom (upper : BitVec 2) (r : Loaded) : Loaded :=
  r.withBank
    { r.ses.bank with
      romBank := zeroFix r.env.par.zeroFixScope .A ((r.ses.bank.romBank &&& 0x1F#9) ||| (upper.setWidth 9 <<< 5)) }

/-- `UPPER_A` in mode B (41_bank_switch.md R187). -/
def ctlUpperARam (upper : BitVec 2) (r : Loaded) : Loaded :=
  r.withBank { r.ses.bank with ramBank := upper.setWidth 4 }

/-- `MODE_A` (41_bank_switch.md R188, R189). -/
def ctlModeA (mode : BitVec 1) (r : Loaded) : Loaded :=
  r.withBank { r.ses.bank with mode := flagOf mode }

/-- `ROMB_B` (41_bank_switch.md R191). -/
def ctlRombB (bank : BitVec 4) (r : Loaded) : Loaded :=
  r.withBank { r.ses.bank with romBank := zeroFix r.env.par.zeroFixScope .B (bank.setWidth 9) }

/-- `ROMB_C` (41_bank_switch.md R195). -/
def ctlRombC (bank : BitVec 7) (r : Loaded) : Loaded :=
  r.withBank { r.ses.bank with romBank := zeroFix r.env.par.zeroFixScope .C (bank.setWidth 9) }

/-- `RAMSEL_C`, an accepted selector (41_bank_switch.md R196). -/
def ctlRamselC (sel : BitVec 4) (r : Loaded) : Loaded :=
  r.withBank { r.ses.bank with ramBank := sel }

/-- `LATCH_C` (41_bank_switch.md R198): 0x00 arms, 0x01 while armed captures, everything else disarms. -/
def ctlLatchC (v : Byte) (r : Loaded) : Loaded :=
  let x := { r.ses with bank := { r.ses.bank with latchArmed := latchArms v } }
  r.withSes (if latchCaptures r.ses.bank.latchArmed v = true then latch x else x)

/-- `ROMLO_D` (41_bank_switch.md R201): the low eight bits, no zero normalisation. -/
def ctlRomloD (bank : BitVec 8) (r : Loaded) : Loaded :=
  r.withBank { r.ses.bank with romBank := (r.ses.bank.romBank &&& 0x100#9) ||| bank.setWidth 9 }

/-- `ROMHI_D` (41_bank_switch.md R202): bit 8. -/
def ctlRomhiD (bit8 : BitVec 1) (r : Loaded) : Loaded :=
  r.withBank { r.ses.bank with romBank := (r.ses.bank.romBank &&& 0x0FF#9) ||| (bit8.setWidth 9 <<< 8) }

/-- `RAMB_D` (41_bank_switch.md R203). -/
def ctlRambD (bank : BitVec 4) (r : Loaded) : Loaded :=
  r.withBank { r.ses.bank with ramBank := bank }

/-- `RAMB_D_RUMBLE` (41_bank_switch.md R204): the motor and the low three bits of the bank; a change of the motor's level is
an observable effect (R214, 30_encoding.md R113). -/
def ctlRambDRumble (motor : BitVec 1) (bank : BitVec 3) (r : Loaded) : Loaded :=
  r.switchTo { r.ses.bank with motor := flagOf motor, ramBank := bank.setWidth 4 }

/-- `CTL_EF` (41_bank_switch.md R206): under the default `refuse` the session is marked refused and nothing else changes
(10_state.md R21); under `decode` the free function gives the whole Bank-Switch State (log 10). -/
def ctlEf (a : Addr) (v : Byte) (r : Loaded) : Loaded :=
  match r.env.par.efPolicy with
  | .refuse => r.withSes { r.ses with refused := true }
  | .decode => r.switchTo (Config.efDecode r.ses.desc.family a v r.ses)

/-! ## `onWrite` (41_bank_switch.md R180) -/

/-- `onWrite` on family `A`. -/
def onWriteA (a : Addr) (v : Byte) (r : Loaded) : Loaded :=
  if controlRange a = 0#2 then ctlRamen (v.extractLsb' 0 4) r
  else if controlRange a = 1#2 then ctlRomloA (v.extractLsb' 0 5) r
  else if controlRange a = 2#2 then
    if r.ses.bank.mode = false then ctlUpperARom (v.extractLsb' 0 2) r else ctlUpperARam (v.extractLsb' 0 2) r
  else ctlModeA (v.extractLsb' 0 1) r

/-- `onWrite` on family `B`. -/
def onWriteB (a : Addr) (v : Byte) (r : Loaded) : Loaded :=
  if controlRange a = 0#2 then ctlRamen (v.extractLsb' 0 4) r
  else if controlRange a = 1#2 then ctlRombB (v.extractLsb' 0 4) r
  else r

/-- `onWrite` on family `C`. -/
def onWriteC (a : Addr) (v : Byte) (r : Loaded) : Loaded :=
  if controlRange a = 0#2 then ctlRamen (v.extractLsb' 0 4) r
  else if controlRange a = 1#2 then ctlRombC (v.extractLsb' 0 7) r
  else if controlRange a = 2#2 then
    if acceptedSelector (v.extractLsb' 0 4) = true then ctlRamselC (v.extractLsb' 0 4) r else r
  else ctlLatchC v r

/-- `onWrite` on family `D`. -/
def onWriteD (a : Addr) (v : Byte) (r : Loaded) : Loaded :=
  if controlRange a = 0#2 then ctlRamen (v.extractLsb' 0 4) r
  else if controlRange a = 1#2 then
    if a.extractLsb' 12 1 = 0#1 then ctlRomloD v r else ctlRomhiD (v.extractLsb' 0 1) r
  else if controlRange a = 2#2 then
    if r.ses.desc.hasRumble = false then ctlRambD (v.extractLsb' 0 4) r
    else ctlRambDRumble (v.extractLsb' 3 1) (v.extractLsb' 0 3) r
  else r

/-- `onWrite(addr, v)` (41_bank_switch.md R180). -/
def onWrite (a : Addr) (v : Byte) (r : Loaded) : Loaded :=
  match r.ses.desc.family with
  | .NONE => r
  | .A => onWriteA a v r
  | .B => onWriteB a v r
  | .C => onWriteC a v r
  | .D => onWriteD a v r
  | .E => ctlEf a v r
  | .F => ctlEf a v r

/-! ## Meanings -/

/-- `CTL_NONE` (41_bank_switch.md R184): the byte is discarded. -/
def execCtlNone (addr : Addr) (data : Byte) (s : State) : Outcome := writeRow (.ctlNone addr data) s (fun r => r)

/-- `CTL_EF` (41_bank_switch.md R206). -/
def execCtlEf (addr : Addr) (data : Byte) (s : State) : Outcome := writeRow (.ctlEf addr data) s (ctlEf addr data)

/-- `RAMEN` (41_bank_switch.md R183). -/
def execRamen (nibble : BitVec 4) (s : State) : Outcome := writeRow (.ramen nibble) s (ctlRamen nibble)

/-- `ROMLO_A` (41_bank_switch.md R185). -/
def execRomloA (bank : BitVec 5) (s : State) : Outcome := writeRow (.romloA bank) s (ctlRomloA bank)

/-- `UPPER_A_ROM` (41_bank_switch.md R186). -/
def execUpperARom (upper : BitVec 2) (s : State) : Outcome := writeRow (.upperARom upper) s (ctlUpperARom upper)

/-- `UPPER_A_RAM` (41_bank_switch.md R187). -/
def execUpperARam (upper : BitVec 2) (s : State) : Outcome := writeRow (.upperARam upper) s (ctlUpperARam upper)

/-- `MODE_A` (41_bank_switch.md R188). -/
def execModeA (mode : BitVec 1) (s : State) : Outcome := writeRow (.modeA mode) s (ctlModeA mode)

/-- `ROMB_B` (41_bank_switch.md R191). -/
def execRombB (bank : BitVec 4) (s : State) : Outcome := writeRow (.rombB bank) s (ctlRombB bank)

/-- `IGN_B` (41_bank_switch.md R192): nothing changes. -/
def execIgnB (addr : Addr) (data : Byte) (s : State) : Outcome := writeRow (.ignB addr data) s (fun r => r)

/-- `ROMB_C` (41_bank_switch.md R195). -/
def execRombC (bank : BitVec 7) (s : State) : Outcome := writeRow (.rombC bank) s (ctlRombC bank)

/-- `RAMSEL_C` (41_bank_switch.md R196). -/
def execRamselC (sel : BitVec 4) (s : State) : Outcome := writeRow (.ramselC sel) s (ctlRamselC sel)

/-- `RAMSEL_C_RSVD` (41_bank_switch.md R197): the write is ignored. -/
def execRamselCRsvd (sel : BitVec 4) (s : State) : Outcome := writeRow (.ramselCRsvd sel) s (fun r => r)

/-- `LATCH_C` (41_bank_switch.md R198). -/
def execLatchC (data : Byte) (s : State) : Outcome := writeRow (.latchC data) s (ctlLatchC data)

/-- `ROMLO_D` (41_bank_switch.md R201). -/
def execRomloD (bank : BitVec 8) (s : State) : Outcome := writeRow (.romloD bank) s (ctlRomloD bank)

/-- `ROMHI_D` (41_bank_switch.md R202). -/
def execRomhiD (bit8 : BitVec 1) (s : State) : Outcome := writeRow (.romhiD bit8) s (ctlRomhiD bit8)

/-- `RAMB_D` (41_bank_switch.md R203). -/
def execRambD (bank : BitVec 4) (s : State) : Outcome := writeRow (.rambD bank) s (ctlRambD bank)

/-- `RAMB_D_RUMBLE` (41_bank_switch.md R204). -/
def execRambDRumble (motor : BitVec 1) (bank : BitVec 3) (s : State) : Outcome :=
  writeRow (.rambDRumble motor bank) s (ctlRambDRumble motor bank)

/-- `IGN_D` (41_bank_switch.md R205): nothing changes. -/
def execIgnD (addr : Addr) (data : Byte) (s : State) : Outcome := writeRow (.ignD addr data) s (fun r => r)

end Sys2Proof.Machine
end

