-- ==== Sys2Proof/Machine/Mapper.lean ====
section
/-! DEFINITION. The Address Space Mapper (43_mapper.md): the windows, `Read`, `Write` over a trigger, and the meanings of the
window rows and of the bank-select registers. -/

namespace Sys2Proof.Machine

/-! ## Reads by window -/

/-- `ROM0` (43_mapper.md R272). -/
def readRom0 (off : BitVec 14) (r : Loaded) : Loaded × Byte := (r, r.ses.romByte off.toNat)

/-- `ROMX` (43_mapper.md R273). -/
def readRomx (off : BitVec 14) (r : Loaded) : Loaded × Byte := (r, r.ses.romByte (romxIndex r.ses off))

/-- `VRAM` (43_mapper.md R274). -/
def readVram (off : BitVec 13) (r : Loaded) : Loaded × Byte := (r, r.ses.vramByte (vramIndex r.ses off))

/-- A storage bank (43_mapper.md R278). -/
def readSramBank (off : BitVec 13) (r : Loaded) : Loaded × Byte := (r, r.ses.sramByte (sramIndex r.ses off))

/-- The clock register the selector names (43_mapper.md R277). -/
def readSramRtc (r : Loaded) : Loaded × Byte := readRegister (ClockReg.ofSel r.ses.bank.ramBank) r

/-- No device answers: the unmapped-bus value (43_mapper.md R276, R280; 44_dma.md R340). -/
def readUnmapped (r : Loaded) : Loaded × Byte := (r, unmapped)

/-- `SRAM`: the order of checks (43_mapper.md R275). -/
def readSram (off : BitVec 13) (r : Loaded) : Loaded × Byte :=
  if r.ses.bank.ramEnable = false then readUnmapped r
  else if r.ses.isRtcSel = true then readSramRtc r
  else if r.ses.desc.ramBanks = 0 then readUnmapped r
  else readSramBank off r

/-- `WRAM0` (43_mapper.md R286). -/
def readWram0 (off : BitVec 12) (r : Loaded) : Loaded × Byte := (r, r.ses.wramByte off.toNat)

/-- `WRAMX` (43_mapper.md R287). -/
def readWramx (off : BitVec 12) (r : Loaded) : Loaded × Byte := (r, r.ses.wramByte (wramxIndex r.ses off))

/-- `ECHO` (43_mapper.md R290): the address less 0x2000, in `WRAM0` or `WRAMX`. -/
def readEcho (a : Addr) (r : Loaded) : Loaded × Byte :=
  if Config.block.wramxLo ≤ echoTarget a then readWramx ((echoTarget a).extractLsb' 0 12) r
  else readWram0 ((echoTarget a).extractLsb' 0 12) r

/-- `REG_DMA_CTRL` (44_dma.md R342). -/
def readDmaCtrl (r : Loaded) : Loaded × Byte := (r, dmaStatus r.ses.dma)

/-- `Read(a)` (43_mapper.md R270). -/
def read (a : Addr) (r : Loaded) : Loaded × Byte :=
  if a = regVbk then extRead a r
  else if a = regSvbk then extRead a r
  else if a = regDmaSrcHi then readUnmapped r
  else if a = regDmaSrcLo then readUnmapped r
  else if a = regDmaDstHi then readUnmapped r
  else if a = regDmaDstLo then readUnmapped r
  else if a = regDmaCtrl then readDmaCtrl r
  else if Config.block.extLo ≤ a then extRead a r
  else if Config.block.echoLo ≤ a then readEcho a r
  else if Config.block.wramxLo ≤ a then readWramx (a.extractLsb' 0 12) r
  else if Config.block.wram0Lo ≤ a then readWram0 (a.extractLsb' 0 12) r
  else if Config.block.sramLo ≤ a then readSram (a.extractLsb' 0 13) r
  else if Config.block.vramLo ≤ a then readVram (a.extractLsb' 0 13) r
  else if Config.block.romxLo ≤ a then readRomx (a.extractLsb' 0 14) r
  else readRom0 (a.extractLsb' 0 14) r

/-! ## Writes by window -/

/-- `VRAM` (43_mapper.md R295). -/
def writeVram (off : BitVec 13) (v : Byte) (r : Loaded) : Loaded :=
  r.withSes (r.ses.storeVram (vramIndex r.ses off) v)

/-- A storage bank (43_mapper.md R285). -/
def writeSramBank (off : BitVec 13) (v : Byte) (r : Loaded) : Loaded :=
  r.withSes (r.ses.storeSram (sramIndex r.ses off) v)

/-- The clock register the selector names (43_mapper.md R283). -/
def writeSramRtc (v : Byte) (r : Loaded) : Loaded := writeRegister (ClockReg.ofSel r.ses.bank.ramBank) v r

/-- `SRAM`: the order of checks (43_mapper.md R281, R282, R284). -/
def writeSram (off : BitVec 13) (v : Byte) (r : Loaded) : Loaded :=
  if r.ses.bank.ramEnable = false then r
  else if r.ses.isRtcSel = true then writeSramRtc v r
  else if r.ses.desc.ramBanks = 0 then r
  else writeSramBank off v r

/-- `WRAM0` (43_mapper.md R288). -/
def writeWram0 (off : BitVec 12) (v : Byte) (r : Loaded) : Loaded :=
  r.withSes (r.ses.storeWram off.toNat v)

/-- `WRAMX` (43_mapper.md R289). -/
def writeWramx (off : BitVec 12) (v : Byte) (r : Loaded) : Loaded :=
  r.withSes (r.ses.storeWram (wramxIndex r.ses off) v)

/-- `ECHO` (43_mapper.md R291). -/
def writeEcho (a : Addr) (v : Byte) (r : Loaded) : Loaded :=
  if Config.block.wramxLo ≤ echoTarget a then writeWramx ((echoTarget a).extractLsb' 0 12) v r
  else writeWram0 ((echoTarget a).extractLsb' 0 12) v r

/-- `REG_VBK` (43_mapper.md R292): snooped and forwarded. -/
def writeVbk (v : Byte) (r : Loaded) : Loaded :=
  extWrite regVbk v (r.withSes { r.ses with vramBank := v.extractLsb' 0 1 })

/-- `REG_SVBK` (43_mapper.md R293): snooped and forwarded. -/
def writeSvbk (v : Byte) (r : Loaded) : Loaded :=
  extWrite regSvbk v (r.withSes { r.ses with wramBank := wramBankOf (v.extractLsb' 0 3) })

/-- `REG_DMA_SRC_HI` (44_dma.md R320). -/
def writeDmaSrcHi (v : Byte) (r : Loaded) : Loaded := r.withDma { r.ses.dma with srcHi := v }

/-- `REG_DMA_SRC_LO` (44_dma.md R321). -/
def writeDmaSrcLo (v : Byte) (r : Loaded) : Loaded := r.withDma { r.ses.dma with srcLo := v }

/-- `REG_DMA_DST_HI` (44_dma.md R322). -/
def writeDmaDstHi (v : Byte) (r : Loaded) : Loaded := r.withDma { r.ses.dma with dstHi := v }

/-- `REG_DMA_DST_LO` (44_dma.md R323). -/
def writeDmaDstLo (v : Byte) (r : Loaded) : Loaded := r.withDma { r.ses.dma with dstLo := v }

/-- `Write(a, v)` (43_mapper.md R271), with what a write of `REG_DMA_CTRL` does given as `trig`: the DMA engine writes through
`Write`, and its own trigger is one of the writes (44_dma.md R326, R336; log 15). -/
def writeWith (trig : Byte → Loaded → Loaded) (a : Addr) (v : Byte) (r : Loaded) : Loaded :=
  if a = regVbk then writeVbk v r
  else if a = regSvbk then writeSvbk v r
  else if a = regDmaSrcHi then writeDmaSrcHi v r
  else if a = regDmaSrcLo then writeDmaSrcLo v r
  else if a = regDmaDstHi then writeDmaDstHi v r
  else if a = regDmaDstLo then writeDmaDstLo v r
  else if a = regDmaCtrl then trig v r
  else if Config.block.extLo ≤ a then extWrite a v r
  else if Config.block.echoLo ≤ a then writeEcho a v r
  else if Config.block.wramxLo ≤ a then writeWramx (a.extractLsb' 0 12) v r
  else if Config.block.wram0Lo ≤ a then writeWram0 (a.extractLsb' 0 12) v r
  else if Config.block.sramLo ≤ a then writeSram (a.extractLsb' 0 13) v r
  else if Config.block.vramLo ≤ a then writeVram (a.extractLsb' 0 13) v r
  else onWrite a v r

/-! ## Meanings of the reads -/

/-- `RD_VBK` (43_mapper.md R294). -/
def execRdVbk (s : State) : Outcome := readRow .rdVbk s (extRead regVbk)

/-- `RD_SVBK` (43_mapper.md R294). -/
def execRdSvbk (s : State) : Outcome := readRow .rdSvbk s (extRead regSvbk)

/-- `RD_EXT` (43_mapper.md R296). -/
def execRdExt (addr : Addr) (s : State) : Outcome := readRow (.rdExt addr) s (extRead addr)

/-- `RD_ECHO` (43_mapper.md R290). -/
def execRdEcho (addr : Addr) (s : State) : Outcome := readRow (.rdEcho addr) s (readEcho addr)

/-- `RD_WRAMX` (43_mapper.md R287). -/
def execRdWramx (off : BitVec 12) (s : State) : Outcome := readRow (.rdWramx off) s (readWramx off)

/-- `RD_WRAM0` (43_mapper.md R286). -/
def execRdWram0 (off : BitVec 12) (s : State) : Outcome := readRow (.rdWram0 off) s (readWram0 off)

/-- `RD_SRAM_OFF` (43_mapper.md R276). -/
def execRdSramOff (off : BitVec 13) (s : State) : Outcome := readRow (.rdSramOff off) s readUnmapped

/-- `RD_SRAM_RTC` (43_mapper.md R277). -/
def execRdSramRtc (off : BitVec 13) (s : State) : Outcome := readRow (.rdSramRtc off) s readSramRtc

/-- `RD_SRAM_NONE` (43_mapper.md R280). -/
def execRdSramNone (off : BitVec 13) (s : State) : Outcome := readRow (.rdSramNone off) s readUnmapped

/-- `RD_SRAM_BANK` (43_mapper.md R278). -/
def execRdSramBank (off : BitVec 13) (s : State) : Outcome := readRow (.rdSramBank off) s (readSramBank off)

/-- `RD_VRAM` (43_mapper.md R274). -/
def execRdVram (off : BitVec 13) (s : State) : Outcome := readRow (.rdVram off) s (readVram off)

/-- `RD_ROMX` (43_mapper.md R273). -/
def execRdRomx (off : BitVec 14) (s : State) : Outcome := readRow (.rdRomx off) s (readRomx off)

/-- `RD_ROM0` (43_mapper.md R272). -/
def execRdRom0 (off : BitVec 14) (s : State) : Outcome := readRow (.rdRom0 off) s (readRom0 off)

/-! ## Meanings of the writes -/

/-- `WR_VBK` (43_mapper.md R292). -/
def execWrVbk (data : Byte) (s : State) : Outcome := writeRow (.wrVbk data) s (writeVbk data)

/-- `WR_SVBK` (43_mapper.md R293). -/
def execWrSvbk (data : Byte) (s : State) : Outcome := writeRow (.wrSvbk data) s (writeSvbk data)

/-- `WR_EXT` (43_mapper.md R297). -/
def execWrExt (addr : Addr) (data : Byte) (s : State) : Outcome := writeRow (.wrExt addr data) s (extWrite addr data)

/-- `WR_ECHO` (43_mapper.md R291). -/
def execWrEcho (addr : Addr) (data : Byte) (s : State) : Outcome := writeRow (.wrEcho addr data) s (writeEcho addr data)

/-- `WR_WRAMX` (43_mapper.md R289). -/
def execWrWramx (off : BitVec 12) (data : Byte) (s : State) : Outcome := writeRow (.wrWramx off data) s (writeWramx off data)

/-- `WR_WRAM0` (43_mapper.md R288). -/
def execWrWram0 (off : BitVec 12) (data : Byte) (s : State) : Outcome := writeRow (.wrWram0 off data) s (writeWram0 off data)

/-- `WR_SRAM_OFF` (43_mapper.md R282): the byte is discarded. -/
def execWrSramOff (off : BitVec 13) (data : Byte) (s : State) : Outcome := writeRow (.wrSramOff off data) s (fun r => r)

/-- `WR_SRAM_RTC` (43_mapper.md R283). -/
def execWrSramRtc (off : BitVec 13) (data : Byte) (s : State) : Outcome := writeRow (.wrSramRtc off data) s (writeSramRtc data)

/-- `WR_SRAM_NONE` (43_mapper.md R284): the byte is discarded. -/
def execWrSramNone (off : BitVec 13) (data : Byte) (s : State) : Outcome := writeRow (.wrSramNone off data) s (fun r => r)

/-- `WR_SRAM_BANK` (43_mapper.md R285). -/
def execWrSramBank (off : BitVec 13) (data : Byte) (s : State) : Outcome :=
  writeRow (.wrSramBank off data) s (writeSramBank off data)

/-- `WR_VRAM` (43_mapper.md R295). -/
def execWrVram (off : BitVec 13) (data : Byte) (s : State) : Outcome := writeRow (.wrVram off data) s (writeVram off data)

end Sys2Proof.Machine
end

