-- ==== Sys2Proof/Machine/DmaEngine.lean ====
section
/-! DEFINITION. The DMA Engine (44_dma.md): arming, moving one unit, the trigger write, the Mapper's `Write` closed over it,
and the meanings of the five DMA registers and of `HB`. -/

namespace Sys2Proof.Machine

/-- `arm(src, dst, len)` (44_dma.md R324, R325): silent on a length that is zero or no multiple of 16; the phase is not looked
at. -/
def arm (src dst : Addr) (len : Nat) (r : Loaded) : Loaded :=
  if len = 0 ∨ len % dmaUnit ≠ 0 then r
  else r.withDma { r.ses.dma with src := src, dst := dst, remaining := BitVec.ofNat 12 len, phase := .armed }

/-- Byte `i` of a unit (44_dma.md R336): one `Read`, then one `Write`, each at the pointer as it stands. After a foreign
`RESTORE` record the destination can lie outside the reach R332 derives; the byte is then written there as R336 says, with all
that this write does, a control write's change of the motor included, although 45_rumble.md R361 lists `HB` among the
operations that never change it (log 18). -/
def moveByte (wr : Addr → Byte → Loaded → Loaded) (r : Loaded) (i : Nat) : Loaded :=
  let p := read (r.ses.dma.src + BitVec.ofNat 16 i) r
  wr (p.1.ses.dma.dst + BitVec.ofNat 16 i) p.2 p.1

/-- The sixteen bytes of a unit, ascending (44_dma.md R336). -/
def moveBytes (wr : Addr → Byte → Loaded → Loaded) (r : Loaded) : Loaded :=
  (List.range dmaUnit).foldl (moveByte wr) r

/-- `dmaRemaining` after a unit (44_dma.md R336); with fewer than 16 bytes left the spec states no value, and it is a free
multiple of 16 up to 2048 (10_state.md R43; log 9). -/
def remainingAfter (draw : Nat) (remaining : BitVec 12) : BitVec 12 :=
  if 16#12 ≤ remaining then remaining - 16#12
  else BitVec.ofNat 12 (16 * ((Config.underflowUnits draw).toNat % 129))

/-- The pointers, the length and the phase after a unit (44_dma.md R336). -/
def afterUnit (draw : Nat) (d : Dma) : Dma :=
  { d with
    src := d.src + 16#16
    dst := d.dst + 16#16
    remaining := remainingAfter draw d.remaining
    phase := if remainingAfter draw d.remaining = 0#12 then .idle else .transferring }

/-- The end of a unit (44_dma.md R336); the draw counter moves where a free value was drawn (log 9). -/
def finishUnit (r : Loaded) : Loaded :=
  { ses := { r.ses with dma := afterUnit r.env.draws r.ses.dma }
    env := if 16#12 ≤ r.ses.dma.remaining then r.env else r.env.nextDraw }

/-- `advanceOneUnit()` (44_dma.md R336) over a `Write`: nothing while `Idle`, else one unit. -/
def advanceOneUnit (wr : Addr → Byte → Loaded → Loaded) (r : Loaded) : Loaded :=
  match r.ses.dma.phase with
  | .idle => r
  | .armed => finishUnit (moveBytes wr r)
  | .transferring => finishUnit (moveBytes wr r)

/-- `n` units. -/
def runUnits (wr : Addr → Byte → Loaded → Loaded) : Nat → Loaded → Loaded
  | 0, r => r
  | n + 1, r => runUnits wr n (advanceOneUnit wr r)

/-- The arming of a trigger write (44_dma.md R326, R329, R330). -/
def armFrom (n : BitVec 7) (r : Loaded) : Loaded :=
  arm r.ses.dma.armSrc r.ses.dma.armDst (dmaLength n) r

/-- The trigger write (44_dma.md R326, R327, R328) over a `Write`: arm, and in immediate mode move every unit, `n + 1` of
them, before it returns. -/
def trigger (wr : Addr → Byte → Loaded → Loaded) (mode : BitVec 1) (n : BitVec 7) (r : Loaded) : Loaded :=
  if mode = 1#1 then armFrom n r else runUnits wr (n.toNat + 1) (armFrom n r)

/-- The trigger write of a data byte (44_dma.md R326). -/
def triggerByte (wr : Addr → Byte → Loaded → Loaded) (v : Byte) (r : Loaded) : Loaded :=
  trigger wr (v.extractLsb' 7 1) (v.extractLsb' 0 7) r

/-- The writes of an immediate transfer: they never reach `REG_DMA_CTRL` (44_dma.md R332), so what a write there would do is
not said again; it arms (log 15). -/
def unitWrite : Addr → Byte → Loaded → Loaded :=
  writeWith (fun v r => armFrom (v.extractLsb' 0 7) r)

/-- `Write(a, v)` (43_mapper.md R271). -/
def write : Addr → Byte → Loaded → Loaded :=
  writeWith (triggerByte unitWrite)

/-- `HB` (44_dma.md R337): one unit, and whether a transfer is still pending. -/
def horizontalBlank (r : Loaded) : Loaded :=
  let t := advanceOneUnit write r
  t.answer (.pending t.ses.dma.active)

/-! ## Meanings -/

/-- `RD_DMA_SRC_HI` (44_dma.md R340). -/
def execRdDmaSrcHi (s : State) : Outcome := readRow .rdDmaSrcHi s readUnmapped

/-- `RD_DMA_SRC_LO` (44_dma.md R343). -/
def execRdDmaSrcLo (s : State) : Outcome := readRow .rdDmaSrcLo s readUnmapped

/-- `RD_DMA_DST_HI` (44_dma.md R344). -/
def execRdDmaDstHi (s : State) : Outcome := readRow .rdDmaDstHi s readUnmapped

/-- `RD_DMA_DST_LO` (44_dma.md R345). -/
def execRdDmaDstLo (s : State) : Outcome := readRow .rdDmaDstLo s readUnmapped

/-- `RD_DMA_CTRL` (44_dma.md R342). -/
def execRdDmaCtrl (s : State) : Outcome := readRow .rdDmaCtrl s readDmaCtrl

/-- `WR_DMA_SRC_HI` (44_dma.md R320). -/
def execWrDmaSrcHi (data : Byte) (s : State) : Outcome := writeRow (.wrDmaSrcHi data) s (writeDmaSrcHi data)

/-- `WR_DMA_SRC_LO` (44_dma.md R321). -/
def execWrDmaSrcLo (data : Byte) (s : State) : Outcome := writeRow (.wrDmaSrcLo data) s (writeDmaSrcLo data)

/-- `WR_DMA_DST_HI` (44_dma.md R322). -/
def execWrDmaDstHi (data : Byte) (s : State) : Outcome := writeRow (.wrDmaDstHi data) s (writeDmaDstHi data)

/-- `WR_DMA_DST_LO` (44_dma.md R323). -/
def execWrDmaDstLo (data : Byte) (s : State) : Outcome := writeRow (.wrDmaDstLo data) s (writeDmaDstLo data)

/-- `WR_DMA_CTRL` (44_dma.md R326). -/
def execWrDmaCtrl (mode : BitVec 1) (n : BitVec 7) (s : State) : Outcome :=
  writeRow (.wrDmaCtrl mode n) s (trigger unitWrite mode n)

/-- `HB` (44_dma.md R337). -/
def execHb (s : State) : Outcome := onRow .hb s horizontalBlank

end Sys2Proof.Machine
end

