-- ==== Sys2Proof/Machine/HostOps.lean ====
section
/-! DEFINITION. The host's operations: `LOAD` (40_descriptor.md), `RESET`, `SAVE` and `RESTORE` (46_host_interface.md). -/

namespace Sys2Proof.Machine

/-! ## `LOAD` -/

/-- The arrays on the ports have the lengths the descriptor declares (40_descriptor.md R169). -/
def lengthsMatch (d : Desc) (p : SidePorts) : Bool :=
  decide (p.rom.len = d.romBanks * romBankSize) && decide (p.initSram.len = d.ramBanks * ramBankSize)

/-- A fresh session of a descriptor and the arrays on the ports, with a new draw (40_descriptor.md R160, 10_state.md R53). -/
def openSession (d : Desc) (s : State) : State :=
  { session :=
      some
        (freshSession d (s.env.ports.rom.toMem .rom) (s.env.ports.initSram.toMem .sram) s.env.hostNow s.env.draws)
    env := { s.env.nextDraw with result := .loadOk true } }

/-- `LOAD` (40_descriptor.md R160): the exception on a malformed header, a refusal on arrays of other lengths (R169), else a
fresh session. It runs in either condition of the block. -/
def execLoad (s : State) : Outcome :=
  match describe s.env.par.rumbleStrength s.env.ports.typeByte s.env.ports.romSizeByte s.env.ports.ramSizeByte with
  | none => .next (raiseInvalidHeader s)
  | some d => if lengthsMatch d s.env.ports = true then .next (openSession d s) else .refused .arrayLengths

/-! ## `RESET` -/

/-- `RESET` (46_host_interface.md R370, 10_state.md R53, R54). -/
def resetMachine (r : Loaded) : Loaded :=
  { ses := resetSession r.ses r.env.draws, env := { r.env.nextDraw with result := .none } }

/-- `RESET` (46_host_interface.md R370). -/
def execReset (s : State) : Outcome := onRow .reset s resetMachine

/-! ## `SAVE` -/

/-- The five registers of a clock file in the record's order (46_host_interface.md R378). -/
def ClockRegs.bytes (r : ClockRegs) : List Byte := [r.S, r.M, r.H, r.DL, r.DH]

/-- The save record, version 1 (46_host_interface.md R378). -/
def saveRecord (x : Session) : List Byte :=
  [saveMagic0, saveMagic1, saveVersion] ++ bytesOf 2 x.bank.romBank.toNat ++
    [x.bank.ramBank.setWidth 8, flagByte x, x.wramBank.setWidth 8] ++ x.live.bytes ++ x.snap.bytes ++
    bytesOf 8 x.lastSync ++ [x.dma.srcHi, x.dma.srcLo, x.dma.dstHi, x.dma.dstLo] ++ bytesOf 2 x.dma.src.toNat ++
    bytesOf 2 x.dma.dst.toNat ++ bytesOf 2 x.dma.remaining.toNat ++ [phaseByte x.dma.phase]

/-- The premise of `SAVE`: host time and `lastSync` fit 64 bits (46_host_interface.md R378, 93_implementation_defined.md U15;
log 14). -/
def timeFits (r : Loaded) : Bool := decide (r.env.hostNow < 2 ^ 64) && decide (r.ses.lastSync < 2 ^ 64)

/-- `SAVE` (46_host_interface.md R371): the record is the answer, no state changes. -/
def execSave (s : State) : Outcome :=
  match s.session with
  | none => .refused .unloaded
  | some x =>
    if timeFits ⟨x, s.env⟩ = true then .next (Loaded.answer ⟨x, s.env⟩ (.record (saveRecord x))).toState
    else .refused .timeDoesNotFit

/-! ## `RESTORE` -/

/-- `valid(record)` (46_host_interface.md R380). -/
def validRecord (b : List Byte) : Bool :=
  b.length == saveLength && recordByte b 0 == saveMagic0 && recordByte b 1 == saveMagic1 && recordByte b 2 == saveVersion &&
    decide (recordByte b 36 ≤ 2#8) && recordField b 34 2 % 16 == 0 && decide (recordField b 34 2 ≤ 2048) &&
    ((recordField b 34 2 == 0) == (recordByte b 36 == 0#8))

/-- The Bank-Switch State of a record (46_host_interface.md R379). -/
def recordBank (b : List Byte) : BankState :=
  { romBank := BitVec.ofNat 9 (recordField b 3 2)
    ramBank := (recordByte b 5).extractLsb' 0 4
    mode := (recordByte b 6).getLsbD 0
    ramEnable := (recordByte b 6).getLsbD 1
    latchArmed := (recordByte b 6).getLsbD 2
    motor := (recordByte b 6).getLsbD 3 }

/-- The DMA registers of a record (46_host_interface.md R379). -/
def recordDma (b : List Byte) : Dma :=
  { srcHi := recordByte b 26
    srcLo := recordByte b 27
    dstHi := recordByte b 28
    dstLo := recordByte b 29
    src := BitVec.ofNat 16 (recordField b 30 2)
    dst := BitVec.ofNat 16 (recordField b 32 2)
    remaining := BitVec.ofNat 12 (recordField b 34 2)
    phase := phaseOf (recordByte b 36) }

/-- The session with a record's fields (46_host_interface.md R379), before the timestamp is reconciled: the descriptor, the
arrays and the mark `refused` stay. -/
def restoreFields (b : List Byte) (x : Session) : Session :=
  { x with
    bank := recordBank b
    vramBank := (recordByte b 6).extractLsb' 4 1
    wramBank := wramBankOf ((recordByte b 7).extractLsb' 0 3)
    live := ClockRegs.masked (recordByte b 8) (recordByte b 9) (recordByte b 10) (recordByte b 11) (recordByte b 12)
    snap := ClockRegs.masked (recordByte b 13) (recordByte b 14) (recordByte b 15) (recordByte b 16) (recordByte b 17)
    dma := recordDma b }

/-- `reconcile(t, trackRealTime)` (46_host_interface.md R381, 92_eei_decisions.md D30). Without tracking the timestamp becomes
the host time, also where R383 would have the recorded one back (log 19). -/
def reconcile (now t : Nat) (track : Bool) (x : Session) : Session :=
  if track = true then syncSession now { x with lastSync := t } else { x with lastSync := now }

/-- `RESTORE` of a record (46_host_interface.md R379): a bad one is ignored. -/
def restoreFrom (b : List Byte) (track : Bool) (r : Loaded) : Loaded :=
  if validRecord b = true then
    (r.withSes (reconcile r.env.hostNow (recordField b 18 8) track (restoreFields b r.ses))).answer (.restoreOk true)
  else r.answer (.restoreOk false)

/-- `RESTORE` (46_host_interface.md R379). -/
def execRestore (s : State) : Outcome :=
  onRow .restore s (fun r => restoreFrom r.env.ports.record r.env.ports.trackRealTime r)

end Sys2Proof.Machine
end

