-- ==== Sys2Proof/Machine/Dispatch.lean ====
section
/-! DEFINITION. The meaning of every instruction, one arm per constructor. -/

namespace Sys2Proof.Machine

def exec (i : Instr) (s : State) : Host.Outcome State Fault Refusal :=
  match i with
  | .rdVbk => Sys2Proof.Machine.execRdVbk s
  | .rdDmaSrcHi => Sys2Proof.Machine.execRdDmaSrcHi s
  | .rdDmaSrcLo => Sys2Proof.Machine.execRdDmaSrcLo s
  | .rdDmaDstHi => Sys2Proof.Machine.execRdDmaDstHi s
  | .rdDmaDstLo => Sys2Proof.Machine.execRdDmaDstLo s
  | .rdDmaCtrl => Sys2Proof.Machine.execRdDmaCtrl s
  | .rdSvbk => Sys2Proof.Machine.execRdSvbk s
  | .rdExt addr => Sys2Proof.Machine.execRdExt addr s
  | .rdEcho addr => Sys2Proof.Machine.execRdEcho addr s
  | .rdWramx off => Sys2Proof.Machine.execRdWramx off s
  | .rdWram0 off => Sys2Proof.Machine.execRdWram0 off s
  | .rdSramOff off => Sys2Proof.Machine.execRdSramOff off s
  | .rdSramRtc off => Sys2Proof.Machine.execRdSramRtc off s
  | .rdSramNone off => Sys2Proof.Machine.execRdSramNone off s
  | .rdSramBank off => Sys2Proof.Machine.execRdSramBank off s
  | .rdVram off => Sys2Proof.Machine.execRdVram off s
  | .rdRomx off => Sys2Proof.Machine.execRdRomx off s
  | .rdRom0 off => Sys2Proof.Machine.execRdRom0 off s
  | .wrVbk data => Sys2Proof.Machine.execWrVbk data s
  | .wrDmaSrcHi data => Sys2Proof.Machine.execWrDmaSrcHi data s
  | .wrDmaSrcLo data => Sys2Proof.Machine.execWrDmaSrcLo data s
  | .wrDmaDstHi data => Sys2Proof.Machine.execWrDmaDstHi data s
  | .wrDmaDstLo data => Sys2Proof.Machine.execWrDmaDstLo data s
  | .wrDmaCtrl mode n => Sys2Proof.Machine.execWrDmaCtrl mode n s
  | .wrSvbk data => Sys2Proof.Machine.execWrSvbk data s
  | .wrExt addr data => Sys2Proof.Machine.execWrExt addr data s
  | .wrEcho addr data => Sys2Proof.Machine.execWrEcho addr data s
  | .wrWramx off data => Sys2Proof.Machine.execWrWramx off data s
  | .wrWram0 off data => Sys2Proof.Machine.execWrWram0 off data s
  | .wrSramOff off data => Sys2Proof.Machine.execWrSramOff off data s
  | .wrSramRtc off data => Sys2Proof.Machine.execWrSramRtc off data s
  | .wrSramNone off data => Sys2Proof.Machine.execWrSramNone off data s
  | .wrSramBank off data => Sys2Proof.Machine.execWrSramBank off data s
  | .wrVram off data => Sys2Proof.Machine.execWrVram off data s
  | .ctlNone addr data => Sys2Proof.Machine.execCtlNone addr data s
  | .ctlEf addr data => Sys2Proof.Machine.execCtlEf addr data s
  | .ramen nibble => Sys2Proof.Machine.execRamen nibble s
  | .romloA bank => Sys2Proof.Machine.execRomloA bank s
  | .upperARom upper => Sys2Proof.Machine.execUpperARom upper s
  | .upperARam upper => Sys2Proof.Machine.execUpperARam upper s
  | .modeA mode => Sys2Proof.Machine.execModeA mode s
  | .rombB bank => Sys2Proof.Machine.execRombB bank s
  | .ignB addr data => Sys2Proof.Machine.execIgnB addr data s
  | .rombC bank => Sys2Proof.Machine.execRombC bank s
  | .ramselC sel => Sys2Proof.Machine.execRamselC sel s
  | .ramselCRsvd sel => Sys2Proof.Machine.execRamselCRsvd sel s
  | .latchC data => Sys2Proof.Machine.execLatchC data s
  | .romloD bank => Sys2Proof.Machine.execRomloD bank s
  | .romhiD bit8 => Sys2Proof.Machine.execRomhiD bit8 s
  | .rambD bank => Sys2Proof.Machine.execRambD bank s
  | .rambDRumble motor bank => Sys2Proof.Machine.execRambDRumble motor bank s
  | .ignD addr data => Sys2Proof.Machine.execIgnD addr data s
  | .hb => Sys2Proof.Machine.execHb s
  | .tick => Sys2Proof.Machine.execTick s
  | .load => Sys2Proof.Machine.execLoad s
  | .reset => Sys2Proof.Machine.execReset s
  | .save => Sys2Proof.Machine.execSave s
  | .restore => Sys2Proof.Machine.execRestore s

end Sys2Proof.Machine
end

