-- ==== Sys2Proof/Machine/Step.lean ====
section
/-! DEFINITION. One step: the next operation of the host's queue, decoded in the session and run (46_host_interface.md R386);
where the host issues none nothing happens (R389, log 1). -/

namespace Sys2Proof.Machine

/-- One step of the machine. -/
def step (s : State) : Host.Outcome State Fault Refusal :=
  match takeNext s with
  | none => .next s
  | some (.ok i, t) => exec i t
  | some (.error e, _) => .refused (refusalOf e)

/-- The state whose next step runs the operation word `w` (log 1). -/
def State.withFetchWord (s : State) (_nbits w : Nat) : State := placeWord s (BitVec.ofNat 27 w)

end Sys2Proof.Machine
end

