-- ==== Sys2Proof/Safety.lean ====
section
/-! DEFINITION. The conditions claims are stated in: the invariants of the session (10_state.md R22, R33, R36, R43, R45 to
R48), the reachable bank values (R26, R27), the reach of the DMA engine (44_dma.md R332), and the launch premises
(70_reset_and_hazards.md R445). -/

namespace Sys2Proof.Machine

/-- A descriptor `LOAD` can make (10_state.md R22, 40_descriptor.md R163, R164, R166, R168). -/
abbrev Desc.legal (d : Desc) : Prop :=
  d.romBanks ∈ [2, 4, 8, 16, 32, 64, 128, 256, 512] ∧ d.ramBanks ∈ [0, 1, 4, 8, 16] ∧
    d.hasStorage = decide (0 < d.ramBanks) ∧ (d.family = .B → d.ramBanks = 1)

/-- A clock register file inside the write masks (10_state.md R36, 42_rtc.md R248). -/
abbrev ClockRegs.wired (r : ClockRegs) : Prop :=
  r.S &&& clockMask .S = r.S ∧ r.M &&& clockMask .M = r.M ∧ r.H &&& clockMask .H = r.H ∧ r.DH &&& clockMask .DH = r.DH

/-- A canonical clock register file (42_rtc.md R231). -/
abbrev ClockRegs.canonical (r : ClockRegs) : Prop := r.S.toNat < 60 ∧ r.M.toNat < 60 ∧ r.H.toNat < 24

/-- The invariants of the DMA state (10_state.md R43). -/
abbrev Dma.consistent (d : Dma) : Prop :=
  d.remaining.toNat % 16 = 0 ∧ (d.phase = .idle ↔ d.remaining = 0#12) ∧ d.remaining.toNat ≤ 2048

/-- The four backing arrays in canonical form and inside their sizes (10_state.md R45 to R48). -/
abbrev Session.arraysOk (x : Session) : Prop :=
  Mem.wf Region.rom.unlisted (x.desc.romBanks * romBankSize) x.rom ∧
    Mem.wf Region.sram.unlisted (x.desc.ramBanks * ramBankSize) x.sram ∧
    Mem.wf Region.vram.unlisted (vramBanks * vramBankSize) x.vram ∧
    Mem.wf Region.wram.unlisted (wramBanks * wramBankSize) x.wram

/-- The invariant of a session. -/
abbrev Session.ok (x : Session) : Prop :=
  x.desc.legal ∧ x.wramBank ≠ 0#3 ∧ x.live.wired ∧ x.snap.wired ∧ x.dma.consistent ∧ x.arraysOk

/-- The invariant of the machine: no session, or one that keeps the session's invariant. -/
abbrev State.ok (s : State) : Prop := ∀ x, s.session = some x → x.ok

/-- The stored bank indices a guest can reach, by family (10_state.md R26, R27). The families the spec gives no control
registers to are not bounded. -/
abbrev Session.banksReachable (x : Session) : Prop :=
  match x.desc.family with
  | .NONE => x.bank.romBank = 1#9 ∧ x.bank.ramBank = 0#4
  | .A => (1 ≤ x.bank.romBank.toNat ∧ x.bank.romBank.toNat ≤ 127) ∧ x.bank.ramBank.toNat ≤ 3
  | .B => (1 ≤ x.bank.romBank.toNat ∧ x.bank.romBank.toNat ≤ 15) ∧ x.bank.ramBank = 0#4
  | .C =>
    (1 ≤ x.bank.romBank.toNat ∧ x.bank.romBank.toNat ≤ 127) ∧
      (x.bank.ramBank.toNat ≤ 3 ∨ (8 ≤ x.bank.ramBank.toNat ∧ x.bank.ramBank.toNat ≤ 12))
  | .D => x.desc.hasRumble = true → x.bank.ramBank.toNat ≤ 7
  | .E => True
  | .F => True

/-- A transfer in progress writes only the video-memory window and the bytes just above it (44_dma.md R332). -/
abbrev Session.dmaInReach (x : Session) : Prop :=
  x.dma.phase ≠ .idle → 0x8000 ≤ x.dma.dst.toNat ∧ x.dma.dst.toNat + x.dma.remaining.toNat ≤ 0xA7F0

/-- The storage window, 0xA000 to 0xBFFF (30_encoding.md R114). -/
abbrev inStorageWindow (a : Addr) : Prop := 0xA000 ≤ a.toNat ∧ a.toNat < 0xC000

/-- What moving `n` bytes, read from `src` on and written from `dst` on, may change from a session `x` and an environment `e`
to `y` and `f`, besides the DMA registers, when all it writes lies in the video-memory and the storage window (44_dma.md R332,
R336). Byte `i` is written at `dst + i`, so at `vramIndex` or `sramIndex` of that address's offset. -/
structure TransferFrame (src dst : Addr) (n : Nat) (x : Session) (e : Env) (y : Session) (f : Env) : Prop where
  /-- Every byte of video memory that no byte moved is written to reads as before. -/
  vram : ∀ j,
    (∀ i < n, (dst + BitVec.ofNat 16 i).toNat < 0xA000 → j ≠ vramIndex x ((dst + BitVec.ofNat 16 i).extractLsb' 0 13)) →
      y.vramByte j = x.vramByte j
  /-- Every byte of the storage that no byte moved is written to reads as before. -/
  sram : x.arraysOk → ∀ j,
    (∀ i < n, inStorageWindow (dst + BitVec.ofNat 16 i) → j ≠ sramIndex x ((dst + BitVec.ofNat 16 i).extractLsb' 0 13)) →
      y.sramByte j = x.sramByte j
  /-- The storage is as before where its window is disabled, shows a clock register or no bank, or is not written to. -/
  sramStays : x.bank.ramEnable = false ∨ x.isRtcSel = true ∨ x.desc.ramBanks = 0 ∨
    (∀ i < n, ¬ inStorageWindow (dst + BitVec.ofNat 16 i)) → y.sram = x.sram
  /-- The clock is as before where no clock register is shown, or the storage window is neither read nor written. -/
  clockStays : x.bank.ramEnable = false ∨ x.isRtcSel = false ∨
    (∀ i < n, ¬ inStorageWindow (src + BitVec.ofNat 16 i) ∧ ¬ inStorageWindow (dst + BitVec.ofNat 16 i)) →
      y.live = x.live ∧ y.lastSync = x.lastSync
  /-- The arrays stay in canonical form. -/
  arrays : x.arraysOk → y.arraysOk
  /-- The external port sees reads of source addresses alone; no write is forwarded and the motor's level does not change. -/
  port : ∃ new : List Event, f.events = new ++ e.events ∧ f.extCalls = e.extCalls + new.length ∧
    ∀ ev ∈ new, ∃ i < n, ∃ b, ev = .extRead (src + BitVec.ofNat 16 i) b

/-- The session's free values are those of its own draw: the next draw has a number it has not (70_reset_and_hazards.md
R442). -/
abbrev State.drawsFresh (s : State) : Prop := ∀ x, s.session = some x → x.drawn < s.env.draws

/-- The operation the next step takes, if the host issues one. -/
def State.nextWord (s : State) : Option OpWord := s.env.queue.head?.map Request.word

/-! ## The launch premises (70_reset_and_hazards.md R445)

Each premise of the rule's table, under its name there, as what it asks of one state or of one step of a run: a run meets it
where each of its states, or steps, does. `Launch.Loaded` is asked of the run's first step alone. -/

/-- `Loaded` (10_state.md R20): the step is a `LOAD` that returned `loadOk = 1`. -/
abbrev Launch.Loaded (s t : State) : Prop :=
  (∃ w, s.nextWord = some w ∧ fieldOp w = 4#3) ∧ step s = .next t ∧ t.env.result = .loadOk true

/-- `LengthsMatch` (40_descriptor.md R169): the arrays of the `LOAD` to come have the lengths its header declares. -/
abbrev Launch.LengthsMatch (s : State) : Prop :=
  ∀ q rest d, s.env.queue = q :: rest → fieldOp q.word = 4#3 →
    describe s.env.par.rumbleStrength q.ports.typeByte q.ports.romSizeByte q.ports.ramSizeByte = some d →
    lengthsMatch d q.ports = true

/-- `NoRefusal` (10_state.md R21): the state carries no refusal mark. -/
abbrev Launch.NoRefusal (s : State) : Prop := ∀ x, s.session = some x → x.refused = false

/-- `HostSerial`: the step takes one operation of the host, or none where none waits, and leaves the others in their order
(log 17). -/
abbrev Launch.HostSerial (s t : State) : Prop := t.env.queue = s.env.queue.tail

/-- `HostTimeMonotone`: host time does not fall in the step (log 17). -/
abbrev Launch.HostTimeMonotone (s t : State) : Prop := s.env.hostNow ≤ t.env.hostNow

/-- `HostTimeByTick` (42_rtc.md R235): host time rises only by `TICK`, the default configuration. -/
abbrev Launch.HostTimeByTick (s : State) : Prop := s.env.par.silentAdvance = false

/-- `TimeFits` (46_host_interface.md R378): host time is below 2^64 where the operation to come is `SAVE`. -/
abbrev Launch.TimeFits (s : State) : Prop :=
  ∀ q rest, s.env.queue = q :: rest → fieldOp q.word = 6#3 → (takeRequest s q rest).env.hostNow < 2 ^ 64

/-- The record is one that `SAVE` answers in the state `u`, on the cartridge of the session `x` (46_host_interface.md
R382). -/
abbrev Launch.SavedOn (x : Session) (u : State) (record : List Byte) : Prop :=
  (∃ y, u.session = some y ∧ y.desc = x.desc ∧ y.rom = x.rom) ∧
    (∃ w, u.nextWord = some w ∧ fieldOp w = 6#3) ∧ ∃ v, step u = .next v ∧ v.env.result = .record record

/-- `OwnRecords` (46_host_interface.md R382): the record of the `RESTORE` to come is one that `SAVE` answered on the same
cartridge, in one of the states `saved`. -/
abbrev Launch.OwnRecords (saved : State → Prop) (s : State) : Prop :=
  ∀ x q rest, s.session = some x → s.env.queue = q :: rest → fieldOp q.word = 7#3 →
    ∃ u, saved u ∧ Launch.SavedOn x u q.ports.record

/-- The states of the runs that meet `Loaded` and `OwnRecords`. A record may come from another such run on the same
cartridge. -/
inductive Launch.Reached : State → Prop
  /-- The first step of the run. -/
  | launch {s t : State} : Launch.Loaded s t → Reached t
  /-- A step that does not take `RESTORE`. -/
  | other {s t : State} : Reached s → (∀ w, s.nextWord = some w → fieldOp w ≠ 7#3) → step s = .next t → Reached t
  /-- A step that takes `RESTORE` with a record of the same cartridge. -/
  | restore {s t u : State} {x : Session} {q : Request} {rest : List Request} :
    Reached s → Reached u → s.session = some x → s.env.queue = q :: rest → Launch.SavedOn x u q.ports.record →
    step s = .next t → Reached t

/-- `k` executions of one instruction, stopping at the first that gives no next state. -/
def repeatInstr (i : Instr) : Nat → State → Host.Outcome State Fault Refusal
  | 0, s => .next s
  | k + 1, s =>
    match exec i s with
    | .next t => repeatInstr i k t
    | .fault f => .fault f
    | .refused q => .refused q

/-- One second on a seconds, minutes, hours and days counter, counted field by field (42_rtc.md R238): each field that is
full starts again at 0 and hands one on; a full day counter starts again and sets the carry. -/
def oneSecond (r : ClockRegs) : ClockRegs :=
  if r.S.toNat < 59 then { r with S := r.S + 1#8 }
  else if r.M.toNat < 59 then { r with S := 0#8, M := r.M + 1#8 }
  else if r.H.toNat < 23 then { r with S := 0#8, M := 0#8, H := r.H + 1#8 }
  else if r.DL.toNat < 255 then { r with S := 0#8, M := 0#8, H := 0#8, DL := r.DL + 1#8 }
  else if r.DH.getLsbD 0 = false then { r with S := 0#8, M := 0#8, H := 0#8, DL := 0#8, DH := r.DH ||| 0x01#8 }
  else { r with S := 0#8, M := 0#8, H := 0#8, DL := 0#8, DH := (r.DH &&& 0xFE#8) ||| 0x80#8 }

/-- `e` seconds counted one by one. -/
def countSeconds : Nat → ClockRegs → ClockRegs
  | 0, r => r
  | e + 1, r => countSeconds e (oneSecond r)

end Sys2Proof.Machine
end

