-- ==== Sys2Proof/Certificates/Slice0/Obligations.lean ====
section
/-! DEFINITION. The statements for the provers. A loaded machine is written `⟨some x, e⟩`: the session `x`, the environment
`e`. A conclusion `exec i ⟨some x, e⟩ = .next ⟨some y, f⟩` with `y` and `f` written out is the instruction's result, its
completion and its frame at once: whatever it does not name is unchanged. -/

open Sys2Proof Sys2Proof.Machine

/-! ## Reads -/

/-- 43_mapper.md R272, R273, R274, R286, R287: the fixed read-only window reads bank 0, the switchable one the bank
`romBank mod romBanks`; video memory is read through `vramBank`, work memory through bank 0 and `wramBank`. -/
def Obligations.PlainWindowReads : Prop :=
  ∀ (x : Session) (e : Env) (o14 : BitVec 14) (o13 : BitVec 13) (o12 : BitVec 12),
    exec (.rdRom0 o14) ⟨some x, e⟩ = .next ⟨some x, { e with result := .data (x.romByte o14.toNat) }⟩ ∧
    exec (.rdRomx o14) ⟨some x, e⟩ =
      .next ⟨some x, { e with
        result := .data (x.romByte ((x.bank.romBank.toNat % x.desc.romBanks) * 16384 + o14.toNat)) }⟩ ∧
    exec (.rdVram o13) ⟨some x, e⟩ =
      .next ⟨some x, { e with result := .data (x.vramByte (x.vramBank.toNat * 8192 + o13.toNat)) }⟩ ∧
    exec (.rdWram0 o12) ⟨some x, e⟩ = .next ⟨some x, { e with result := .data (x.wramByte o12.toNat) }⟩ ∧
    exec (.rdWramx o12) ⟨some x, e⟩ =
      .next ⟨some x, { e with result := .data (x.wramByte (x.wramBank.toNat * 4096 + o12.toNat)) }⟩

/-- 43_mapper.md R290, 30_encoding.md R115: an echo read gives the work-memory byte of the address less 0x2000, in bank 0
below 0xF000 and in bank `wramBank` from there on. -/
def Obligations.EchoWindowReadsWorkMemory : Prop :=
  ∀ (x : Session) (e : Env) (a : Addr), 0xE000 ≤ a.toNat → a.toNat < 0xFE00 →
    exec (.rdEcho a) ⟨some x, e⟩ =
      .next ⟨some x, { e with
        result := .data
          (if a.toNat < 0xF000 then x.wramByte (a.toNat - 0xE000)
           else x.wramByte (x.wramBank.toNat * 4096 + (a.toNat - 0xF000))) }⟩

/-- 43_mapper.md R276, R280, R282, R284: a storage window that is disabled, or enabled with no storage and no clock selector,
reads 0xFF and discards what is written. -/
def Obligations.DeadStorageWindow : Prop :=
  ∀ (x : Session) (e : Env) (off : BitVec 13) (v : Byte),
    (x.bank.ramEnable = false →
      exec (.rdSramOff off) ⟨some x, e⟩ = .next ⟨some x, { e with result := .data 0xFF#8 }⟩ ∧
      exec (.wrSramOff off v) ⟨some x, e⟩ = .next ⟨some x, { e with result := .none }⟩) ∧
    (x.bank.ramEnable = true → x.isRtcSel = false → x.desc.ramBanks = 0 →
      exec (.rdSramNone off) ⟨some x, e⟩ = .next ⟨some x, { e with result := .data 0xFF#8 }⟩ ∧
      exec (.wrSramNone off v) ⟨some x, e⟩ = .next ⟨some x, { e with result := .none }⟩)

/-- 43_mapper.md R278, 41_bank_switch.md R211: an enabled storage window reads the bank `ramBank mod ramBanks`. -/
def Obligations.StorageBankRead : Prop :=
  ∀ (x : Session) (e : Env) (off : BitVec 13),
    x.bank.ramEnable = true → x.isRtcSel = false → 0 < x.desc.ramBanks →
    exec (.rdSramBank off) ⟨some x, e⟩ =
      .next ⟨some x, { e with
        result := .data (x.sramByte ((x.bank.ramBank.toNat % x.desc.ramBanks) * 8192 + off.toNat)) }⟩

/-- 42_rtc.md R244, R245, R236: a clock register read synchronises the live registers and answers the snapshot's register;
the offset is ignored. -/
def Obligations.ClockReadSynchronisesAndServesSnapshot : Prop :=
  ∀ (x : Session) (e : Env) (off : BitVec 13),
    x.bank.ramEnable = true → x.desc.family = .C → 8 ≤ x.bank.ramBank.toNat → x.bank.ramBank.toNat ≤ 12 →
    exec (.rdSramRtc off) ⟨some x, e⟩ =
      .next
        ⟨some (if x.live.halt = true then x
          else { x with
            live := if x.lastSync < e.hostNow then advance x.live (e.hostNow - x.lastSync) else x.live
            lastSync := e.hostNow }),
         { e with
           result := .data
            (if x.bank.ramBank = 8#4 then x.snap.S else if x.bank.ramBank = 9#4 then x.snap.M
             else if x.bank.ramBank = 10#4 then x.snap.H else if x.bank.ramBank = 11#4 then x.snap.DL
             else x.snap.DH) }⟩

/-- 44_dma.md R340, R342, R343, R344, R345: the staging registers read 0xFF; the trigger register reads 0xFF when idle, else
the units left minus one with bit 7 clear; nothing changes. An active transfer has a unit left (10_state.md R43,
`StepKeepsInvariant`). -/
def Obligations.DmaRegisterReads : Prop :=
  ∀ (x : Session) (e : Env),
    exec .rdDmaSrcHi ⟨some x, e⟩ = .next ⟨some x, { e with result := .data 0xFF#8 }⟩ ∧
    exec .rdDmaSrcLo ⟨some x, e⟩ = .next ⟨some x, { e with result := .data 0xFF#8 }⟩ ∧
    exec .rdDmaDstHi ⟨some x, e⟩ = .next ⟨some x, { e with result := .data 0xFF#8 }⟩ ∧
    exec .rdDmaDstLo ⟨some x, e⟩ = .next ⟨some x, { e with result := .data 0xFF#8 }⟩ ∧
    (x.dma.phase = .idle ∨ 16 ≤ x.dma.remaining.toNat →
      exec .rdDmaCtrl ⟨some x, e⟩ =
        .next ⟨some x, { e with
          result := .data
            (if x.dma.phase = .idle then 0xFF#8 else BitVec.ofNat 8 (x.dma.remaining.toNat / 16 - 1) &&& 0x7F#8) }⟩)

/-- 43_mapper.md R294, R296: the bank-select registers and the external space answer whatever the external port gives (a free
byte); the call is recorded and no state of the block changes. -/
def Obligations.ForwardedReadsAnswerTheOracle : Prop :=
  ∀ (x : Session) (e : Env),
    (exec .rdVbk ⟨some x, e⟩ =
      .next ⟨some x, { e with
        extCalls := e.extCalls + 1
        events := .extRead 0xFF4F#16 (Config.extByte e.extCalls 0xFF4F#16) :: e.events
        result := .data (Config.extByte e.extCalls 0xFF4F#16) }⟩) ∧
    (exec .rdSvbk ⟨some x, e⟩ =
      .next ⟨some x, { e with
        extCalls := e.extCalls + 1
        events := .extRead 0xFF70#16 (Config.extByte e.extCalls 0xFF70#16) :: e.events
        result := .data (Config.extByte e.extCalls 0xFF70#16) }⟩) ∧
    (∀ a : Addr, 0xFE00 ≤ a.toNat → a.toNat ∉ [0xFF4F, 0xFF51, 0xFF52, 0xFF53, 0xFF54, 0xFF55, 0xFF70] →
      exec (.rdExt a) ⟨some x, e⟩ =
        .next ⟨some x, { e with
          extCalls := e.extCalls + 1
          events := .extRead a (Config.extByte e.extCalls a) :: e.events
          result := .data (Config.extByte e.extCalls a) }⟩)

/-! ## Writes to windows and block registers -/

/-- 43_mapper.md R295, R288, R289: a store to video or work memory changes exactly the byte the banks name. -/
def Obligations.VideoAndWorkMemoryStores : Prop :=
  ∀ (x : Session) (e : Env) (o13 : BitVec 13) (o12 : BitVec 12) (v : Byte),
    (∃ m : Mem, exec (.wrVram o13 v) ⟨some x, e⟩ = .next ⟨some { x with vram := m }, { e with result := .none }⟩ ∧
      ∀ i, ({ x with vram := m } : Session).vramByte i =
        if i = x.vramBank.toNat * 8192 + o13.toNat then v else x.vramByte i) ∧
    (∃ m : Mem, exec (.wrWram0 o12 v) ⟨some x, e⟩ = .next ⟨some { x with wram := m }, { e with result := .none }⟩ ∧
      ∀ i, ({ x with wram := m } : Session).wramByte i = if i = o12.toNat then v else x.wramByte i) ∧
    (∃ m : Mem, exec (.wrWramx o12 v) ⟨some x, e⟩ = .next ⟨some { x with wram := m }, { e with result := .none }⟩ ∧
      ∀ i, ({ x with wram := m } : Session).wramByte i =
        if i = x.wramBank.toNat * 4096 + o12.toNat then v else x.wramByte i)

/-- 43_mapper.md R291, 30_encoding.md R115: an echo store changes exactly the work-memory byte of the address less 0x2000. -/
def Obligations.EchoWindowStoresWorkMemory : Prop :=
  ∀ (x : Session) (e : Env) (a : Addr) (v : Byte), 0xE000 ≤ a.toNat → a.toNat < 0xFE00 →
    ∃ m : Mem, exec (.wrEcho a v) ⟨some x, e⟩ = .next ⟨some { x with wram := m }, { e with result := .none }⟩ ∧
      ∀ i, ({ x with wram := m } : Session).wramByte i =
        if i = (if a.toNat < 0xF000 then a.toNat - 0xE000 else x.wramBank.toNat * 4096 + (a.toNat - 0xF000)) then v
        else x.wramByte i

/-- 43_mapper.md R285: a store to an enabled storage bank changes exactly the byte the bank index names. The array is in its
canonical form (`StepKeepsInvariant`). -/
def Obligations.StorageBankStore : Prop :=
  ∀ (x : Session) (e : Env) (off : BitVec 13) (v : Byte),
    x.bank.ramEnable = true → x.isRtcSel = false → 0 < x.desc.ramBanks → x.arraysOk →
    ∃ m : Mem, exec (.wrSramBank off v) ⟨some x, e⟩ = .next ⟨some { x with sram := m }, { e with result := .none }⟩ ∧
      ∀ i, ({ x with sram := m } : Session).sramByte i =
        if i = (x.bank.ramBank.toNat % x.desc.ramBanks) * 8192 + off.toNat then v else x.sramByte i

/-- 42_rtc.md R246, R247: a clock register write synchronises, then stores the masked byte in the live register the selector
names; a `DH` write that clears the halt flag moves `lastSync` to the host time. The snapshot and the storage stay. -/
def Obligations.ClockWriteSynchronisesAndStores : Prop :=
  ∀ (x : Session) (e : Env) (off : BitVec 13) (v : Byte),
    x.bank.ramEnable = true → x.desc.family = .C → 8 ≤ x.bank.ramBank.toNat → x.bank.ramBank.toNat ≤ 12 →
    ∀ (live : ClockRegs) (last : Nat),
      live = (if x.live.halt = true ∨ e.hostNow ≤ x.lastSync then x.live else advance x.live (e.hostNow - x.lastSync)) →
      last = (if x.live.halt = true then x.lastSync else e.hostNow) →
      exec (.wrSramRtc off v) ⟨some x, e⟩ =
        .next
          ⟨some { x with
            live :=
              if x.bank.ramBank = 8#4 then { live with S := v &&& 0x3F#8 }
              else if x.bank.ramBank = 9#4 then { live with M := v &&& 0x3F#8 }
              else if x.bank.ramBank = 10#4 then { live with H := v &&& 0x1F#8 }
              else if x.bank.ramBank = 11#4 then { live with DL := v }
              else { live with DH := v &&& 0xC1#8 }
            lastSync :=
              if x.bank.ramBank = 12#4 ∧ x.live.halt = true ∧ v.getLsbD 6 = false then e.hostNow else last },
           { e with result := .none }⟩

/-- 43_mapper.md R292, R293, R297: a write to a bank-select register updates the block's bank and is forwarded to the external
port; a write to the external space is forwarded and changes no state of the block. -/
def Obligations.ForwardedWrites : Prop :=
  ∀ (x : Session) (e : Env) (v : Byte),
    exec (.wrVbk v) ⟨some x, e⟩ =
      .next ⟨some { x with vramBank := v.extractLsb' 0 1 },
        { e with events := .extWrite 0xFF4F#16 v :: e.events, result := .none }⟩ ∧
    exec (.wrSvbk v) ⟨some x, e⟩ =
      .next ⟨some { x with wramBank := if v.extractLsb' 0 3 = 0#3 then 1#3 else v.extractLsb' 0 3 },
        { e with events := .extWrite 0xFF70#16 v :: e.events, result := .none }⟩ ∧
    (∀ a : Addr, 0xFE00 ≤ a.toNat → a.toNat ∉ [0xFF4F, 0xFF51, 0xFF52, 0xFF53, 0xFF54, 0xFF55, 0xFF70] →
      exec (.wrExt a v) ⟨some x, e⟩ =
        .next ⟨some x, { e with events := .extWrite a v :: e.events, result := .none }⟩)

/-- 44_dma.md R320, R321, R322, R323: a staging write stores all eight bits of its own register; a transfer in progress and
the external port are not touched. -/
def Obligations.StagingRegisterWrites : Prop :=
  ∀ (x : Session) (e : Env) (v : Byte),
    exec (.wrDmaSrcHi v) ⟨some x, e⟩ =
      .next ⟨some { x with dma := { x.dma with srcHi := v } }, { e with result := .none }⟩ ∧
    exec (.wrDmaSrcLo v) ⟨some x, e⟩ =
      .next ⟨some { x with dma := { x.dma with srcLo := v } }, { e with result := .none }⟩ ∧
    exec (.wrDmaDstHi v) ⟨some x, e⟩ =
      .next ⟨some { x with dma := { x.dma with dstHi := v } }, { e with result := .none }⟩ ∧
    exec (.wrDmaDstLo v) ⟨some x, e⟩ =
      .next ⟨some { x with dma := { x.dma with dstLo := v } }, { e with result := .none }⟩

/-! ## The DMA engine -/

/-- 44_dma.md R326, R327, R330, R325: a paced trigger write only arms, with the masked staging addresses and `(n + 1) * 16`
bytes, whatever transfer was in progress. -/
def Obligations.PacedTriggerArms : Prop :=
  ∀ (x : Session) (e : Env) (n : BitVec 7),
    exec (.wrDmaCtrl 1#1 n) ⟨some x, e⟩ =
      .next
        ⟨some { x with
          dma := { x.dma with
            src := (x.dma.srcHi ++ x.dma.srcLo) &&& 0xFFF0#16
            dst := ((x.dma.dstHi ++ x.dma.dstLo) &&& 0x1FF0#16) ||| 0x8000#16
            remaining := BitVec.ofNat 12 ((n.toNat + 1) * 16)
            phase := .armed } },
         { e with result := .none }⟩

/-- 44_dma.md R328, R329, R330, R332: an immediate trigger write ends idle with both pointers past the last byte. Its
`(n + 1) * 16` bytes are written from the masked destination on, in video memory and storage: every other byte reads as before,
the clock moves only through the storage window, and the external port sees reads alone (`TransferFrame`). -/
def Obligations.ImmediateTriggerCompletes : Prop :=
  ∀ (x : Session) (e : Env) (n : BitVec 7),
    ∃ (vram sram : Mem) (live : ClockRegs) (last calls : Nat) (events : List Event),
      exec (.wrDmaCtrl 0#1 n) ⟨some x, e⟩ =
        .next
          ⟨some { x with
            vram := vram
            sram := sram
            live := live
            lastSync := last
            dma := { x.dma with
              src := ((x.dma.srcHi ++ x.dma.srcLo) &&& 0xFFF0#16) + BitVec.ofNat 16 ((n.toNat + 1) * 16)
              dst := (((x.dma.dstHi ++ x.dma.dstLo) &&& 0x1FF0#16) ||| 0x8000#16) + BitVec.ofNat 16 ((n.toNat + 1) * 16)
              remaining := 0#12
              phase := .idle } },
           { e with extCalls := calls, events := events, result := .none }⟩ ∧
      TransferFrame x.dma.armSrc x.dma.armDst (dmaLength n) x e
        { x with vram := vram, sram := sram, live := live, lastSync := last }
        { e with extCalls := calls, events := events }

/-- 44_dma.md R337, R336, R331: `HB` while idle changes nothing and answers 0. With a transfer it moves one unit: both pointers
advance by 16 modulo 65536, 16 bytes fewer remain, the phase is idle exactly when none remain, and the answer says whether some
do. Byte `i` of the unit is written at the destination plus `i`: in video memory, or in a storage bank where the window shows
one, it ends as what `Read` gave at its turn, after the `i` bytes before it; every other byte reads as before, the clock moves
only through the storage window, and the external port sees reads alone (`TransferFrame`). -/
def Obligations.HorizontalBlankMovesOneUnit : Prop :=
  ∀ (x : Session) (e : Env),
    (x.dma.phase = .idle → exec .hb ⟨some x, e⟩ = .next ⟨some x, { e with result := .pending false }⟩) ∧
    (x.dma.phase ≠ .idle → x.dma.consistent → x.dmaInReach →
      ∃ (vram sram : Mem) (live : ClockRegs) (last calls : Nat) (events : List Event),
        exec .hb ⟨some x, e⟩ =
          .next
            ⟨some { x with
              vram := vram
              sram := sram
              live := live
              lastSync := last
              dma := { x.dma with
                src := x.dma.src + 16#16
                dst := x.dma.dst + 16#16
                remaining := x.dma.remaining - 16#12
                phase := if x.dma.remaining = 16#12 then .idle else .transferring } },
             { e with
               extCalls := calls, events := events, result := .pending (decide (x.dma.remaining ≠ 16#12)) }⟩ ∧
        TransferFrame x.dma.src x.dma.dst 16 x e
          { x with vram := vram, sram := sram, live := live, lastSync := last }
          { e with extCalls := calls, events := events } ∧
        ∀ i < 16, ∀ b : Byte,
          b = (read (x.dma.src + BitVec.ofNat 16 i) ((List.range i).foldl (moveByte write) ⟨x, e⟩)).2 →
          ((x.dma.dst + BitVec.ofNat 16 i).toNat < 0xA000 →
            ({ x with vram := vram } : Session).vramByte
              (vramIndex x ((x.dma.dst + BitVec.ofNat 16 i).extractLsb' 0 13)) = b) ∧
          (inStorageWindow (x.dma.dst + BitVec.ofNat 16 i) → x.bank.ramEnable = true → x.isRtcSel = false →
            0 < x.desc.ramBanks → x.arraysOk →
            ({ x with sram := sram } : Session).sramByte
              (sramIndex x ((x.dma.dst + BitVec.ofNat 16 i).extractLsb' 0 13)) = b))

/-- 44_dma.md R336: a unit whose source is read-only or work memory and whose destination is video memory copies the sixteen
bytes that `Read` gives before it, and changes no other byte. -/
def Obligations.UnitCopiesSixteenBytes : Prop :=
  ∀ (x : Session) (e : Env), x.dma.phase ≠ .idle → x.dma.consistent →
    (x.dma.src.toNat + 16 ≤ 0x8000 ∨ (0xC000 ≤ x.dma.src.toNat ∧ x.dma.src.toNat + 16 ≤ 0xFE00)) →
    0x8000 ≤ x.dma.dst.toNat → x.dma.dst.toNat + 16 ≤ 0xA000 →
    ∃ m : Mem,
      exec .hb ⟨some x, e⟩ =
        .next
          ⟨some { x with
            vram := m
            dma := { x.dma with
              src := x.dma.src + 16#16
              dst := x.dma.dst + 16#16
              remaining := x.dma.remaining - 16#12
              phase := if x.dma.remaining = 16#12 then .idle else .transferring } },
           { e with result := .pending (decide (x.dma.remaining ≠ 16#12)) }⟩ ∧
      ∀ i, ({ x with vram := m } : Session).vramByte i =
        if x.vramBank.toNat * 8192 + (x.dma.dst.toNat - 0x8000) ≤ i ∧
            i < x.vramBank.toNat * 8192 + (x.dma.dst.toNat - 0x8000) + 16 then
          (read (x.dma.src + BitVec.ofNat 16 (i - (x.vramBank.toNat * 8192 + (x.dma.dst.toNat - 0x8000)))) ⟨x, e⟩).2
        else x.vramByte i

/-- 44_dma.md R337, R338: a transfer of `k` units is over after exactly `k` executions of `HB` and no fewer: after `j < k` of
them it is still in progress. -/
def Obligations.PacedTransferEndsAfterItsUnits : Prop :=
  ∀ (x : Session) (e : Env) (j : Nat), x.dma.phase ≠ .idle → x.dma.consistent → x.dmaInReach →
    j ≤ x.dma.remaining.toNat / 16 →
    ∃ (y : Session) (f : Env), repeatInstr .hb j ⟨some x, e⟩ = .next ⟨some y, f⟩ ∧
      y.dma.src = x.dma.src + BitVec.ofNat 16 (16 * j) ∧ y.dma.dst = x.dma.dst + BitVec.ofNat 16 (16 * j) ∧
      y.dma.remaining.toNat = x.dma.remaining.toNat - 16 * j ∧
      (y.dma.phase = .idle ↔ j = x.dma.remaining.toNat / 16)

/-- 44_dma.md R328, R336: an immediate trigger write leaves the machine as a paced one followed by an `HB` for each unit does,
but for the answer on the output ports. -/
def Obligations.ImmediateTransferIsPacedTransferAtOnce : Prop :=
  ∀ (x : Session) (e : Env) (n : BitVec 7),
    ∃ (s1 s2 : State), exec (.wrDmaCtrl 1#1 n) ⟨some x, e⟩ = .next s1 ∧
      repeatInstr .hb (n.toNat + 1) s1 = .next s2 ∧
      exec (.wrDmaCtrl 0#1 n) ⟨some x, e⟩ = .next ⟨s2.session, { s2.env with result := .none }⟩

/-- 44_dma.md R326, R336, 43_mapper.md R304: the writes the engine makes are the Mapper's `Write`, trigger included: `Write`
satisfies its own equation with the engine's `while` loop of `HB` units inside. -/
def Obligations.EngineWritesThroughTheMapper : Prop :=
  ∀ (a : Addr) (v : Byte) (r : Loaded), write a v r = writeWith (triggerByte write) a v r

/-! ## Control writes -/

/-- 41_bank_switch.md R184, R192, R197, R205: the discarded and ignored control writes change no state. -/
def Obligations.IgnoredControlWritesChangeNothing : Prop :=
  ∀ (x : Session) (e : Env) (a : Addr) (v : Byte) (sel : BitVec 4),
    (x.desc.family = .NONE → a.toNat < 0x8000 →
      exec (.ctlNone a v) ⟨some x, e⟩ = .next ⟨some x, { e with result := .none }⟩) ∧
    (x.desc.family = .B → 0x4000 ≤ a.toNat → a.toNat < 0x8000 →
      exec (.ignB a v) ⟨some x, e⟩ = .next ⟨some x, { e with result := .none }⟩) ∧
    (x.desc.family = .C → ((4 ≤ sel.toNat ∧ sel.toNat ≤ 7) ∨ 13 ≤ sel.toNat) →
      exec (.ramselCRsvd sel) ⟨some x, e⟩ = .next ⟨some x, { e with result := .none }⟩) ∧
    (x.desc.family = .D → 0x6000 ≤ a.toNat → a.toNat < 0x8000 →
      exec (.ignD a v) ⟨some x, e⟩ = .next ⟨some x, { e with result := .none }⟩)

/-- 41_bank_switch.md R206, 10_state.md R21: under the default policy a control write on family `E` or `F` sets the mark
`refused` and changes nothing else; under the policy `decode` (log 10) the new Bank-Switch State is the free function's, and a change
of the motor's level is reported. In either case the run goes on. -/
def Obligations.UnspecifiedFamiliesMarkTheSession : Prop :=
  ∀ (x : Session) (e : Env) (a : Addr) (v : Byte), (x.desc.family = .E ∨ x.desc.family = .F) → a.toNat < 0x8000 →
    (e.par.efPolicy = .refuse →
      exec (.ctlEf a v) ⟨some x, e⟩ = .next ⟨some { x with refused := true }, { e with result := .none }⟩) ∧
    (e.par.efPolicy = .decode →
      exec (.ctlEf a v) ⟨some x, e⟩ =
        .next
          ⟨some { x with bank := Config.efDecode x.desc.family a v x },
           { e with
             events :=
               if x.bank.motor = (Config.efDecode x.desc.family a v x).motor then e.events
               else .motor (Config.efDecode x.desc.family a v x).motor :: e.events
             result := .none }⟩)

/-- 41_bank_switch.md R183: on families `A` to `D` storage is enabled exactly when the low nibble is 0xA. -/
def Obligations.EnableWrite : Prop :=
  ∀ (x : Session) (e : Env) (nib : BitVec 4), x.desc.family ∈ [Family.A, Family.B, Family.C, Family.D] →
    exec (.ramen nib) ⟨some x, e⟩ =
      .next ⟨some { x with bank := { x.bank with ramEnable := decide (nib = 0xA#4) } }, { e with result := .none }⟩

/-- 41_bank_switch.md R185, R186, R182: family `A`'s two index fields in mode A. Under the default `combined` a zero index is
stored as 1; under `field` a zero low field is stored as 1 beside the upper bits, on either write (log 11, the model's
reading), so that 0x20 becomes 0x21. -/
def Obligations.FamilyAIndexWrites : Prop :=
  ∀ (x : Session) (e : Env) (lo : BitVec 5) (hi : BitVec 2), x.desc.family = .A →
    (e.par.zeroFixScope = .combined →
      exec (.romloA lo) ⟨some x, e⟩ =
        .next
          ⟨some { x with
            bank := { x.bank with
              romBank :=
                if (x.bank.romBank &&& 0x60#9) ||| lo.setWidth 9 = 0#9 then 1#9
                else (x.bank.romBank &&& 0x60#9) ||| lo.setWidth 9 } },
           { e with result := .none }⟩) ∧
    (e.par.zeroFixScope = .field →
      exec (.romloA lo) ⟨some x, e⟩ =
        .next
          ⟨some { x with
            bank := { x.bank with
              romBank :=
                if lo = 0#5 then (x.bank.romBank &&& 0x60#9) ||| 1#9
                else (x.bank.romBank &&& 0x60#9) ||| lo.setWidth 9 } },
           { e with result := .none }⟩) ∧
    (e.par.zeroFixScope = .combined → x.bank.mode = false →
      exec (.upperARom hi) ⟨some x, e⟩ =
        .next
          ⟨some { x with
            bank := { x.bank with
              romBank :=
                if (x.bank.romBank &&& 0x1F#9) ||| (hi.setWidth 9 <<< 5) = 0#9 then 1#9
                else (x.bank.romBank &&& 0x1F#9) ||| (hi.setWidth 9 <<< 5) } },
           { e with result := .none }⟩) ∧
    (e.par.zeroFixScope = .field → x.bank.mode = false →
      exec (.upperARom hi) ⟨some x, e⟩ =
        .next
          ⟨some { x with
            bank := { x.bank with
              romBank :=
                if x.bank.romBank &&& 0x1F#9 = 0#9 then (hi.setWidth 9 <<< 5) ||| 1#9
                else (x.bank.romBank &&& 0x1F#9) ||| (hi.setWidth 9 <<< 5) } },
           { e with result := .none }⟩)

/-- 41_bank_switch.md R187, R188: in mode B the upper bits are the storage bank; the mode flag is the written bit. -/
def Obligations.FamilyAModeAndStorageBank : Prop :=
  ∀ (x : Session) (e : Env) (hi : BitVec 2) (m : BitVec 1), x.desc.family = .A →
    (x.bank.mode = true →
      exec (.upperARam hi) ⟨some x, e⟩ =
        .next ⟨some { x with bank := { x.bank with ramBank := hi.setWidth 4 } }, { e with result := .none }⟩) ∧
    exec (.modeA m) ⟨some x, e⟩ =
      .next ⟨some { x with bank := { x.bank with mode := decide (m = 1#1) } }, { e with result := .none }⟩

/-- 41_bank_switch.md R191, R195, R182: the one-field read-only bank indices of families `B` and `C`; zero is stored as 1 in
either scope. -/
def Obligations.FamilyBAndCIndexWrites : Prop :=
  ∀ (x : Session) (e : Env) (b : BitVec 4) (c : BitVec 7),
    (x.desc.family = .B →
      exec (.rombB b) ⟨some x, e⟩ =
        .next ⟨some { x with bank := { x.bank with romBank := if b = 0#4 then 1#9 else b.setWidth 9 } },
          { e with result := .none }⟩) ∧
    (x.desc.family = .C →
      exec (.rombC c) ⟨some x, e⟩ =
        .next ⟨some { x with bank := { x.bank with romBank := if c = 0#7 then 1#9 else c.setWidth 9 } },
          { e with result := .none }⟩)

/-- 41_bank_switch.md R196: an accepted selector of family `C` is stored, and it names a clock register exactly from 8 on. -/
def Obligations.FamilyCSelectorWrite : Prop :=
  ∀ (x : Session) (e : Env) (sel : BitVec 4), x.desc.family = .C →
    (sel.toNat ≤ 3 ∨ (8 ≤ sel.toNat ∧ sel.toNat ≤ 12)) →
    exec (.ramselC sel) ⟨some x, e⟩ =
      .next ⟨some { x with bank := { x.bank with ramBank := sel } }, { e with result := .none }⟩ ∧
    (({ x with bank := { x.bank with ramBank := sel } } : Session).isRtcSel = true ↔ 8 ≤ sel.toNat)

/-- 41_bank_switch.md R198, 42_rtc.md R242: 0x00 arms the latch; 0x01 while armed captures the five live registers and
disarms; any other write only disarms. -/
def Obligations.LatchWrite : Prop :=
  ∀ (x : Session) (e : Env) (v : Byte), x.desc.family = .C →
    exec (.latchC v) ⟨some x, e⟩ =
      .next
        ⟨some { x with
          bank := { x.bank with latchArmed := decide (v = 0x00#8) }
          snap := if v = 0x01#8 ∧ x.bank.latchArmed = true then x.live else x.snap },
         { e with result := .none }⟩

/-- 41_bank_switch.md R201, R202, R203: family `D`'s 9-bit index in two parts, with no zero normalisation, and its 4-bit
storage bank on a cartridge without a motor. -/
def Obligations.FamilyDIndexWrites : Prop :=
  ∀ (x : Session) (e : Env) (lo : BitVec 8) (b8 : BitVec 1) (bank : BitVec 4), x.desc.family = .D →
    exec (.romloD lo) ⟨some x, e⟩ =
      .next ⟨some { x with bank := { x.bank with romBank := (x.bank.romBank &&& 0x100#9) ||| lo.setWidth 9 } },
        { e with result := .none }⟩ ∧
    exec (.romhiD b8) ⟨some x, e⟩ =
      .next ⟨some { x with bank := { x.bank with romBank := (x.bank.romBank &&& 0x0FF#9) ||| (b8.setWidth 9 <<< 8) } },
        { e with result := .none }⟩ ∧
    (x.desc.hasRumble = false →
      exec (.rambD bank) ⟨some x, e⟩ =
        .next ⟨some { x with bank := { x.bank with ramBank := bank } }, { e with result := .none }⟩)

/-- 41_bank_switch.md R204, 45_rumble.md R362: on a motor cartridge bit 3 is the motor and the low three bits the bank; the
change of the motor's level, and only a change, is an observable effect. -/
def Obligations.MotorWrite : Prop :=
  ∀ (x : Session) (e : Env) (m : BitVec 1) (bank : BitVec 3), x.desc.family = .D → x.desc.hasRumble = true →
    exec (.rambDRumble m bank) ⟨some x, e⟩ =
      .next
        ⟨some { x with bank := { x.bank with motor := decide (m = 1#1), ramBank := bank.setWidth 4 } },
         { e with
           events := if x.bank.motor = decide (m = 1#1) then e.events else .motor (decide (m = 1#1)) :: e.events
           result := .none }⟩

/-! ## The clock -/

/-- 42_rtc.md R241, R236, R247: `TICK` raises host time by `delta` and, unless the clock is halted, brings the live registers
up to it; the snapshot stays. -/
def Obligations.TickAdvancesTheClock : Prop :=
  ∀ (x : Session) (e : Env),
    exec .tick ⟨some x, e⟩ =
      .next
        ⟨some (if x.live.halt = true then x
          else { x with
            live :=
              if x.lastSync < e.hostNow + e.ports.delta then
                advance x.live (e.hostNow + e.ports.delta - x.lastSync)
              else x.live
            lastSync := e.hostNow + e.ports.delta }),
         { e with hostNow := e.hostNow + e.ports.delta, result := .none }⟩

/-- 42_rtc.md R238, R239: what an advance by `e` seconds leaves in each register: the total split into seconds, minutes, hours
and a 9-bit day, the carry set past day 511 and never cleared, the halt bit and the unwired bits kept. -/
def Obligations.AdvanceSplitsTheTotal : Prop :=
  ∀ (r : ClockRegs) (e : Nat),
    (advance r e).S.toNat = (r.total + e) % 60 ∧
    (advance r e).M.toNat = (r.total + e) / 60 % 60 ∧
    (advance r e).H.toNat = (r.total + e) / 3600 % 24 ∧
    (advance r e).day = (r.total + e) / 86400 % 512 ∧
    (advance r e).carry = (r.carry || decide (511 < (r.total + e) / 86400)) ∧
    (∀ i, 1 ≤ i → i ≤ 6 → (advance r e).DH.getLsbD i = r.DH.getLsbD i)

/-- 42_rtc.md R238: from a canonical register file an advance is the same as counting the seconds one by one. -/
def Obligations.AdvanceIsSecondBySecondCounting : Prop :=
  ∀ (r : ClockRegs) (e : Nat), r.canonical → 0 < e → advance r e = countSeconds e r

/-- 70_reset_and_hazards.md R461: two ticks leave the session and host time as one tick of the sum does. -/
def Obligations.TickCadenceIsFree : Prop :=
  ∀ (x : Session) (e : Env) (a b : Nat), x.lastSync ≤ e.hostNow →
    ∃ s1 s2 s3 : State,
      exec .tick ⟨some x, { e with ports := { e.ports with delta := a } }⟩ = .next s1 ∧
      exec .tick { s1 with env := { s1.env with ports := { s1.env.ports with delta := b } } } = .next s2 ∧
      exec .tick ⟨some x, { e with ports := { e.ports with delta := a + b } }⟩ = .next s3 ∧
      s2.session = s3.session ∧ s2.env.hostNow = s3.env.hostNow

/-! ## The host's operations -/

/-- 40_descriptor.md R160, R162, R163, R164, R166, R168, 10_state.md R53: a header of listed codes with arrays of the declared
lengths opens a session at its `LOAD` values; the staging registers and the video and work memory are drawn. -/
def Obligations.LoadOpensASession : Prop :=
  ∀ (s : State) (t : Family × Bool × Bool) (m : Nat),
    typeTable s.env.ports.typeByte = some t → s.env.ports.romSizeByte.toNat ≤ 8 →
    ramSizeTable s.env.ports.ramSizeByte = some m →
    s.env.ports.rom.len = 2 ^ (s.env.ports.romSizeByte.toNat + 1) * 16384 →
    s.env.ports.initSram.len = (if t.1 = .B then 1 else m) * 8192 →
    Mem.wf (some 0x00#8) s.env.ports.rom.len s.env.ports.rom.cells →
    Mem.wf (some 0x00#8) s.env.ports.initSram.len s.env.ports.initSram.cells →
    exec .load s =
      .next
        ⟨some {
          desc := {
            family := t.1
            romBanks := 2 ^ (s.env.ports.romSizeByte.toNat + 1)
            ramBanks := if t.1 = .B then 1 else m
            hasRTC := t.2.1
            hasRumble := t.2.2
            rumbleStrength := if t.2.2 = true then s.env.par.rumbleStrength else 0
            hasStorage := decide (0 < (if t.1 = .B then 1 else m)) }
          refused := false
          bank := { romBank := 1#9, ramBank := 0#4, mode := false, ramEnable := false, latchArmed := false, motor := false }
          vramBank := 0#1
          wramBank := 1#3
          live := { S := 0#8, M := 0#8, H := 0#8, DL := 0#8, DH := 0#8 }
          snap := { S := 0#8, M := 0#8, H := 0#8, DL := 0#8, DH := 0#8 }
          lastSync := s.env.hostNow
          dma := {
            srcHi := Config.drawnSrcHi s.env.draws
            srcLo := Config.drawnSrcLo s.env.draws
            dstHi := Config.drawnDstHi s.env.draws
            dstLo := Config.drawnDstLo s.env.draws
            src := 0#16
            dst := 0#16
            remaining := 0#12
            phase := .idle }
          rom := s.env.ports.rom.cells
          sram := s.env.ports.initSram.cells
          vram := []
          wram := []
          drawn := s.env.draws },
         { s.env with draws := s.env.draws + 1, result := .loadOk true }⟩

/-- 60_exceptions.md R400, R401, R408, 40_descriptor.md R171: a header byte that is in no table is `InvalidHeader`: the block is
`Unloaded`, whatever it was before, and `loadOk` is 0. -/
def Obligations.MalformedHeaderUnloads : Prop :=
  ∀ s : State,
    (s.env.ports.typeByte.toNat ∉
        [0x00, 0x01, 0x02, 0x03, 0x05, 0x06, 0x08, 0x09, 0x0F, 0x10, 0x11, 0x12, 0x13, 0x19, 0x1A, 0x1B, 0x1C, 0x1D, 0x1E,
          0xFE, 0xFF] ∨
      8 < s.env.ports.romSizeByte.toNat ∨ 5 < s.env.ports.ramSizeByte.toNat) →
    exec .load s = .next ⟨none, { s.env with result := .loadOk false }⟩

/-- 40_descriptor.md R169: a `LOAD` of listed codes with arrays of other lengths is refused. -/
def Obligations.LoadRefusesOtherLengths : Prop :=
  ∀ (s : State) (d : Desc),
    describe s.env.par.rumbleStrength s.env.ports.typeByte s.env.ports.romSizeByte s.env.ports.ramSizeByte = some d →
    (s.env.ports.rom.len ≠ d.romBanks * 16384 ∨ s.env.ports.initSram.len ≠ d.ramBanks * 8192) →
    exec .load s = .refused .arrayLengths

/-- 46_host_interface.md R370, 10_state.md R53, R54: `RESET` keeps the descriptor, the cartridge's memories and the clock, and
gives every other field its reset value. -/
def Obligations.ResetKeepsTheCartridge : Prop :=
  ∀ (x : Session) (e : Env),
    exec .reset ⟨some x, e⟩ =
      .next
        ⟨some {
          desc := x.desc
          refused := false
          bank := { romBank := 1#9, ramBank := 0#4, mode := false, ramEnable := false, latchArmed := false, motor := false }
          vramBank := 0#1
          wramBank := 1#3
          live := x.live
          snap := x.snap
          lastSync := x.lastSync
          dma := {
            srcHi := Config.drawnSrcHi e.draws
            srcLo := Config.drawnSrcLo e.draws
            dstHi := Config.drawnDstHi e.draws
            dstLo := Config.drawnDstLo e.draws
            src := 0#16
            dst := 0#16
            remaining := 0#12
            phase := .idle }
          rom := x.rom
          sram := x.sram
          vram := []
          wram := []
          drawn := e.draws },
         { e with draws := e.draws + 1, result := .none }⟩

/-- 46_host_interface.md R371, R378: `SAVE` changes nothing and answers 37 bytes laid out field by field as version 1 says;
where a time does not fit 64 bits it is refused by name (log 14). -/
def Obligations.SaveRecordLayout : Prop :=
  ∀ (x : Session) (e : Env),
    (¬ (e.hostNow < 2 ^ 64 ∧ x.lastSync < 2 ^ 64) → exec .save ⟨some x, e⟩ = .refused .timeDoesNotFit) ∧
    (e.hostNow < 2 ^ 64 → x.lastSync < 2 ^ 64 → ∃ r : List Byte, exec .save ⟨some x, e⟩ = .next ⟨some x, { e with result := .record r }⟩ ∧ r.length = 37 ∧
      r.take 3 = [0x47#8, 0x59#8, 0x01#8] ∧ recordField r 3 2 = x.bank.romBank.toNat ∧
      (recordByte r 5).toNat = x.bank.ramBank.toNat ∧
      (recordByte r 6).toNat =
        x.bank.mode.toNat + 2 * x.bank.ramEnable.toNat + 4 * x.bank.latchArmed.toNat + 8 * x.bank.motor.toNat +
          16 * x.vramBank.toNat ∧
      (recordByte r 7).toNat = x.wramBank.toNat ∧
      (r.drop 8).take 5 = [x.live.S, x.live.M, x.live.H, x.live.DL, x.live.DH] ∧
      (r.drop 13).take 5 = [x.snap.S, x.snap.M, x.snap.H, x.snap.DL, x.snap.DH] ∧
      recordField r 18 8 = x.lastSync ∧
      (r.drop 26).take 4 = [x.dma.srcHi, x.dma.srcLo, x.dma.dstHi, x.dma.dstLo] ∧
      recordField r 30 2 = x.dma.src.toNat ∧ recordField r 32 2 = x.dma.dst.toNat ∧
      recordField r 34 2 = x.dma.remaining.toNat ∧
      (recordByte r 36).toNat = (match x.dma.phase with | .idle => 0 | .armed => 1 | .transferring => 2))

/-- 46_host_interface.md R380, R379: a record of another length, another magic or version, a phase above 2, a length that is no
multiple of 16 or above 2048, or a length and phase that disagree, is ignored. -/
def Obligations.BadRecordsAreIgnored : Prop :=
  ∀ (x : Session) (e : Env) (b : List Byte), b = e.ports.record →
    (b.length ≠ 37 ∨ b.take 3 ≠ [0x47#8, 0x59#8, 0x01#8] ∨ 2 < (recordByte b 36).toNat ∨ recordField b 34 2 % 16 ≠ 0 ∨
      2048 < recordField b 34 2 ∨ ¬ (recordField b 34 2 = 0 ↔ recordByte b 36 = 0#8)) →
    exec .restore ⟨some x, e⟩ = .next ⟨some x, { e with result := .restoreOk false }⟩

/-- 46_host_interface.md R379, R381: a valid record replaces the mutable state field by field, each masked to its width, and
the timestamp is reconciled; the descriptor, the arrays and the mark stay. -/
def Obligations.RestoreLoadsTheRecord : Prop :=
  ∀ (x : Session) (e : Env) (b : List Byte) (live : ClockRegs), b = e.ports.record →
    b.length = 37 → b.take 3 = [0x47#8, 0x59#8, 0x01#8] → (recordByte b 36).toNat ≤ 2 → recordField b 34 2 % 16 = 0 →
    recordField b 34 2 ≤ 2048 → (recordField b 34 2 = 0 ↔ recordByte b 36 = 0#8) →
    live = {
      S := recordByte b 8 &&& 0x3F#8, M := recordByte b 9 &&& 0x3F#8, H := recordByte b 10 &&& 0x1F#8
      DL := recordByte b 11, DH := recordByte b 12 &&& 0xC1#8 } →
    exec .restore ⟨some x, e⟩ =
      .next
        ⟨some { x with
          bank := {
            romBank := BitVec.ofNat 9 (recordField b 3 2)
            ramBank := (recordByte b 5).extractLsb' 0 4
            mode := (recordByte b 6).getLsbD 0
            ramEnable := (recordByte b 6).getLsbD 1
            latchArmed := (recordByte b 6).getLsbD 2
            motor := (recordByte b 6).getLsbD 3 }
          vramBank := (recordByte b 6).extractLsb' 4 1
          wramBank := if (recordByte b 7).extractLsb' 0 3 = 0#3 then 1#3 else (recordByte b 7).extractLsb' 0 3
          live :=
            if e.ports.trackRealTime = true ∧ live.halt = false ∧ recordField b 18 8 < e.hostNow then
              advance live (e.hostNow - recordField b 18 8)
            else live
          snap := {
            S := recordByte b 13 &&& 0x3F#8, M := recordByte b 14 &&& 0x3F#8, H := recordByte b 15 &&& 0x1F#8
            DL := recordByte b 16, DH := recordByte b 17 &&& 0xC1#8 }
          lastSync := if e.ports.trackRealTime = true ∧ live.halt = true then recordField b 18 8 else e.hostNow
          dma := {
            srcHi := recordByte b 26, srcLo := recordByte b 27, dstHi := recordByte b 28, dstLo := recordByte b 29
            src := BitVec.ofNat 16 (recordField b 30 2)
            dst := BitVec.ofNat 16 (recordField b 32 2)
            remaining := BitVec.ofNat 12 (recordField b 34 2)
            phase :=
              if recordByte b 36 = 0#8 then .idle else if recordByte b 36 = 1#8 then .armed else .transferring } },
         { e with result := .restoreOk true }⟩

/-- 46_host_interface.md R383: a record made by `SAVE` of `x`, restored without tracking real time into any session, gives
back every field of the record. The timestamp becomes the host time, as R381 orders; where that was the recorded timestamp,
it too comes back, and the restored session holds every field of R378 as `x` did (log 19 for a clock that lagged). -/
def Obligations.SaveRestoreRoundTrip : Prop :=
  ∀ (x y : Session) (e f : Env) (r : List Byte), x.ok → e.hostNow < 2 ^ 64 → x.lastSync < 2 ^ 64 →
    exec .save ⟨some x, e⟩ = .next ⟨some x, { e with result := .record r }⟩ →
    f.ports.record = r → f.ports.trackRealTime = false →
    exec .restore ⟨some y, f⟩ =
      .next
        ⟨some { y with
          bank := x.bank, vramBank := x.vramBank, wramBank := x.wramBank, live := x.live, snap := x.snap
          lastSync := f.hostNow, dma := x.dma },
         { f with result := .restoreOk true }⟩ ∧
    (x.lastSync = f.hostNow →
      exec .restore ⟨some y, f⟩ =
        .next
          ⟨some { y with
            bank := x.bank, vramBank := x.vramBank, wramBank := x.wramBank, live := x.live, snap := x.snap
            lastSync := x.lastSync, dma := x.dma },
           { f with result := .restoreOk true }⟩)

/-! ## Words and steps -/

/-- 30_encoding.md R111, R114, R117: every instruction whose row applies decodes back from its encoding, with every operand at
every value. -/
def Obligations.DecodeOfEncode : Prop :=
  ∀ (c : DecodeCtx) (i : Instr), applies c i = true → decode c (encode i) = i

/-- 30_encoding.md R111, R129: the decoder takes the first row of the opcode table that applies, for every word in every
session. -/
def Obligations.DecoderTakesTheFirstRowThatApplies : Prop :=
  ∀ (c : DecodeCtx) (w : OpWord),
    (opcodeTable.find? (fun row => row.takes c w)).map (fun row => row.instr w) = some (decode c w)

/-- 30_encoding.md R111, R125: what the decoder reads from a word is an instruction whose row applies, so that no operation of
a loaded session is without a meaning; an instruction whose row does not apply, which no word stands for there, is refused by
name (log 12, the model's choice). `LOAD` and `SAVE` have no condition. -/
def Obligations.DecodedRowApplies : Prop :=
  (∀ (c : DecodeCtx) (w : OpWord), applies c (decode c w) = true) ∧
  (∀ (i : Instr) (x : Session) (e : Env), applies x.ctx i = false → exec i ⟨some x, e⟩ = .refused .rowNotSelected)

/-- 30_encoding.md R111, R127, 95_test_vectors.md: some of the spec's own words decode to the instructions they stand for. -/
def Obligations.SpecWordsDecode : Prop :=
  decode { standingCtx with family := .A } 0x120001F#27 = .romloA 0x1F#5 ∧
  decode { standingCtx with family := .B } 0x120001F#27 = .rombB 0xF#4 ∧
  decode { standingCtx with family := .C } 0x14000F8#27 = .ramselC 0x8#4 ∧
  decode standingCtx 0x12FFFFF#27 = .romloD 0xFF#8 ∧
  decode standingCtx 0x1FF5581#27 = .wrDmaCtrl 1#1 1#7 ∧
  decode { standingCtx with ramEnable := true, ramBanks := 4 } 0x0A12300#27 = .rdSramBank 0x123#13 ∧
  decode standingCtx 0x2000000#27 = .hb

/-- 43_mapper.md R270, R271, R300: on the bus the opcode table's row and the Mapper's dispatch agree: running the row a word
decodes to is `Read` or `Write` at its address. -/
def Obligations.BusRowsAreReadAndWrite : Prop :=
  ∀ (x : Session) (e : Env) (a : Addr) (v : Byte),
    exec (decode x.ctx (rdWord a)) ⟨some x, e⟩ =
      .next ⟨some (read a ⟨x, e⟩).1.ses, { (read a ⟨x, e⟩).1.env with result := .data (read a ⟨x, e⟩).2 }⟩ ∧
    exec (decode x.ctx (wrWord a v)) ⟨some x, e⟩ =
      .next ⟨some (write a v ⟨x, e⟩).ses, { (write a v ⟨x, e⟩).env with result := .none }⟩

/-- 46_host_interface.md R386, 30_encoding.md R111, R112: a step takes the first operation of the queue, puts its operands on
the ports, and runs the instruction its word decodes to in the session; with none to take nothing changes. -/
def Obligations.StepRunsTheDecodedInstruction : Prop :=
  (∀ s : State, s.env.queue = [] → step s = .next s) ∧
  (∀ (s : State) (x : Session) (q : Request) (rest : List Request),
    s.session = some x → s.env.queue = q :: rest →
    step s =
      exec (decode x.ctx q.word)
        { s with env := { s.env with
          queue := rest
          ports := q.ports
          hostNow := if s.env.par.silentAdvance = true then s.env.hostNow + q.silent else s.env.hostNow } }) ∧
  (∀ (s : State) (q : Request) (rest : List Request),
    s.session = none → s.env.queue = q :: rest → fieldOp q.word = 4#3 →
    step s =
      exec .load
        { s with env := { s.env with
          queue := rest
          ports := q.ports
          hostNow := if s.env.par.silentAdvance = true then s.env.hostNow + q.silent else s.env.hostNow } })

/-- 10_state.md R20: while `Unloaded` every operation other than `LOAD` is refused. -/
def Obligations.UnloadedRefusesAllButLoad : Prop :=
  ∀ (s : State) (w : OpWord), s.session = none → s.nextWord = some w → fieldOp w ≠ 4#3 → step s = .refused .unloaded

/-- 60_exceptions.md R403, R404: in a loaded session every operation but `LOAD` and `SAVE` has a next state, whatever the state;
`SAVE` has one when the time fits, and `LOAD`, in either condition of the block, when the lengths match
(70_reset_and_hazards.md R445). -/
def Obligations.LoadedOperationsComplete : Prop :=
  (∀ (s : State) (x : Session) (w : OpWord), s.session = some x → s.nextWord = some w → fieldOp w ≠ 4#3 →
    Launch.TimeFits s → (fieldOp w = 6#3 → x.lastSync < 2 ^ 64) → ∃ t, step s = .next t) ∧
  (∀ (s : State) (w : OpWord), s.nextWord = some w → fieldOp w = 4#3 → Launch.LengthsMatch s → ∃ t, step s = .next t)

/-! ## Invariants and whole-machine rules -/

/-- 10_state.md R22, R33, R36, R43, R45 to R48: every step keeps the machine's invariant. 70_reset_and_hazards.md R442: it
keeps the numbers of the draws apart, so that the next `LOAD` or `RESET` draws under a number of its own (logs 7 and 8). -/
def Obligations.StepKeepsInvariant : Prop :=
  ∀ s t : State, step s = .next t → (s.ok → t.ok) ∧ (s.drawsFresh → t.drawsFresh)

/-- The machine before any operation meets the invariant. -/
def Obligations.ResetMeetsInvariant : Prop :=
  State.reset.ok ∧ State.reset.drawsFresh ∧ State.reset.session = none

/-- 44_dma.md R332: a step keeps a transfer's writes within the video-memory window and the 0x7F0 bytes above it. A step that
takes `RESTORE` does where the record came from `SAVE` on the same cartridge, of a session with its transfer in reach
(46_host_interface.md R382; 70_reset_and_hazards.md R445, `OwnRecords`). -/
def Obligations.StepKeepsDmaInReach : Prop :=
  ∀ s t : State, s.ok → (∀ x, s.session = some x → x.dmaInReach) →
    Launch.OwnRecords (fun u => ∀ y, u.session = some y → y.dmaInReach) s →
    step s = .next t → ∀ y, t.session = some y → y.dmaInReach

/-- 10_state.md R26, R27, 41_bank_switch.md R190: a step keeps the stored bank indices in the range the family can reach; a
step that takes `RESTORE` does where the record came from `SAVE` on the same cartridge, of a session in that range
(46_host_interface.md R382). So every session of a run that meets `Loaded` and `OwnRecords` (70_reset_and_hazards.md R445) has
its indices in that range, its transfer in reach, and the session's invariant. -/
def Obligations.StepKeepsBanksReachable : Prop :=
  (∀ s t : State, s.ok → (∀ x, s.session = some x → x.dmaInReach ∧ x.banksReachable) →
    Launch.OwnRecords (fun u => ∀ y, u.session = some y → y.banksReachable) s →
    step s = .next t → ∀ y, t.session = some y → y.banksReachable) ∧
  (∀ s : State, Launch.Reached s → s.ok ∧ ∀ y, s.session = some y → y.dmaInReach ∧ y.banksReachable)

/-- 43_mapper.md R302, 10_state.md R22, 40_descriptor.md R170: no operation but `LOAD` writes the read-only memory or the
descriptor, or ends the session. -/
def Obligations.OnlyLoadWritesRomAndDescriptor : Prop :=
  ∀ (s t : State) (x : Session), s.session = some x → (∀ w, s.nextWord = some w → fieldOp w ≠ 4#3) → step s = .next t →
    ∃ y, t.session = some y ∧ y.rom = x.rom ∧ y.desc = x.desc

/-- 45_rumble.md R361, 10_state.md R21, 41_bank_switch.md R206: reads and writes change the motor only through the motor
cartridge's storage-bank write (or, under the policy `decode`, which gives the whole Bank-Switch State, through a control write
on family `E` or `F`, log 10), and the mark `refused` only through a control write on family `E` or `F`; the mark is never
cleared by them. `HB` in reach and `TICK` change neither. -/
def Obligations.MotorAndMarkHaveTheirWriters : Prop :=
  ∀ (i : Instr) (x y : Session) (e f : Env), i ≠ .load → i ≠ .reset → i ≠ .restore → x.dma.consistent → x.dmaInReach →
    exec i ⟨some x, e⟩ = .next ⟨some y, f⟩ →
    (y.bank.motor ≠ x.bank.motor →
      (∃ m b, i = .rambDRumble m b) ∨ (e.par.efPolicy = .decode ∧ ∃ a v, i = .ctlEf a v)) ∧
    (y.refused ≠ x.refused → (∃ a v, i = .ctlEf a v) ∧ y.refused = true)

/-- 42_rtc.md R235, 10_state.md R51: where host time rises only by `TICK`, a step adds the operand of `TICK` to it and nothing
else moves it; no step changes the machine's parameters. In every configuration a step takes the operations one at a time and
host time never falls (70_reset_and_hazards.md R445, `HostSerial` and `HostTimeMonotone`). -/
def Obligations.HostTimeMovesOnlyByTick : Prop :=
  ∀ (s t : State), step s = .next t →
    t.env.par = s.env.par ∧ Launch.HostSerial s t ∧ Launch.HostTimeMonotone s t ∧
    (Launch.HostTimeByTick s →
      t.env.hostNow =
        s.env.hostNow +
          (match s.env.queue with
           | [] => 0
           | q :: _ => if fieldOp q.word = 3#3 then q.ports.delta else 0))

/-- 20_memory.md R73, 70_reset_and_hazards.md R463: a read changes nothing of the session but the live clock registers and
their timestamp, and those only where it is routed to the clock. -/
def Obligations.ReadsChangeOnlyTheClock : Prop :=
  ∀ (x y : Session) (e f : Env) (a : Addr),
    exec (decode x.ctx (rdWord a)) ⟨some x, e⟩ = .next ⟨some y, f⟩ →
    (∃ (live : ClockRegs) (last : Nat), y = { x with live := live, lastSync := last }) ∧
    (¬ (0xA000 ≤ a.toNat ∧ a.toNat < 0xC000 ∧ x.bank.ramEnable = true ∧ x.isRtcSel = true) → y = x)

/-- 43_mapper.md R303: in video and work memory, the echo, and an enabled storage bank, a read right after a write gives the
byte written. -/
def Obligations.ReadAfterWrite : Prop :=
  ∀ (x : Session) (e : Env) (a : Addr) (v : Byte), x.arraysOk →
    ((0x8000 ≤ a.toNat ∧ a.toNat < 0xA000) ∨ (0xC000 ≤ a.toNat ∧ a.toNat < 0xFE00) ∨
      (0xA000 ≤ a.toNat ∧ a.toNat < 0xC000 ∧ x.bank.ramEnable = true ∧ x.isRtcSel = false ∧ 0 < x.desc.ramBanks)) →
    ∃ (y : Session) (f : Env), exec (decode x.ctx (wrWord a v)) ⟨some x, e⟩ = .next ⟨some y, f⟩ ∧
      exec (decode y.ctx (rdWord a)) ⟨some y, f⟩ = .next ⟨some y, { f with result := .data v }⟩

/-- 41_bank_switch.md R213: two stored read-only bank indices that differ by the bank count show the same bank. -/
def Obligations.BankIndexWraps : Prop :=
  ∀ (x : Session) (e : Env) (off : BitVec 14) (i k : BitVec 9), i.toNat = k.toNat + x.desc.romBanks →
    ∃ b : Byte,
      exec (.rdRomx off) ⟨some { x with bank := { x.bank with romBank := i } }, e⟩ =
        .next ⟨some { x with bank := { x.bank with romBank := i } }, { e with result := .data b }⟩ ∧
      exec (.rdRomx off) ⟨some { x with bank := { x.bank with romBank := k } }, e⟩ =
        .next ⟨some { x with bank := { x.bank with romBank := k } }, { e with result := .data b }⟩
end

