-- ==== Sys2Proof/Laws/Config.lean ====
section
/-! SUPPORT. The values of the configuration record (00_scope.md R8), and of its parameters under their machine names. -/

namespace Sys2Proof

@[simp] theorem Config.block_addrBits : Config.block.addrBits = 16 := (rfl)
@[simp] theorem Config.block_dataBits : Config.block.dataBits = 8 := (rfl)
@[simp] theorem Config.block_romBankSize : Config.block.romBankSize = 16384 := (rfl)
@[simp] theorem Config.block_ramBankSize : Config.block.ramBankSize = 8192 := (rfl)
@[simp] theorem Config.block_dmaUnit : Config.block.dmaUnit = 16 := (rfl)
@[simp] theorem Config.block_unmapped : Config.block.unmapped = 0xFF#8 := (rfl)
@[simp] theorem Config.block_rom0Lo : Config.block.rom0Lo = 0x0000#16 := (rfl)
@[simp] theorem Config.block_rom0Hi : Config.block.rom0Hi = 0x3FFF#16 := (rfl)
@[simp] theorem Config.block_romxLo : Config.block.romxLo = 0x4000#16 := (rfl)
@[simp] theorem Config.block_romxHi : Config.block.romxHi = 0x7FFF#16 := (rfl)
@[simp] theorem Config.block_vramLo : Config.block.vramLo = 0x8000#16 := (rfl)
@[simp] theorem Config.block_vramHi : Config.block.vramHi = 0x9FFF#16 := (rfl)
@[simp] theorem Config.block_sramLo : Config.block.sramLo = 0xA000#16 := (rfl)
@[simp] theorem Config.block_sramHi : Config.block.sramHi = 0xBFFF#16 := (rfl)
@[simp] theorem Config.block_wram0Lo : Config.block.wram0Lo = 0xC000#16 := (rfl)
@[simp] theorem Config.block_wram0Hi : Config.block.wram0Hi = 0xCFFF#16 := (rfl)
@[simp] theorem Config.block_wramxLo : Config.block.wramxLo = 0xD000#16 := (rfl)
@[simp] theorem Config.block_wramxHi : Config.block.wramxHi = 0xDFFF#16 := (rfl)
@[simp] theorem Config.block_echoLo : Config.block.echoLo = 0xE000#16 := (rfl)
@[simp] theorem Config.block_echoHi : Config.block.echoHi = 0xFDFF#16 := (rfl)
@[simp] theorem Config.block_extLo : Config.block.extLo = 0xFE00#16 := (rfl)
@[simp] theorem Config.block_extHi : Config.block.extHi = 0xFFFF#16 := (rfl)
@[simp] theorem Config.block_vramBanks : Config.block.vramBanks = 2 := (rfl)
@[simp] theorem Config.block_vramBankSize : Config.block.vramBankSize = 8192 := (rfl)
@[simp] theorem Config.block_wramBanks : Config.block.wramBanks = 8 := (rfl)
@[simp] theorem Config.block_wramBankSize : Config.block.wramBankSize = 4096 := (rfl)
@[simp] theorem Config.block_regVbk : Config.block.regVbk = 0xFF4F#16 := (rfl)
@[simp] theorem Config.block_regSvbk : Config.block.regSvbk = 0xFF70#16 := (rfl)
@[simp] theorem Config.block_regDmaSrcHi : Config.block.regDmaSrcHi = 0xFF51#16 := (rfl)
@[simp] theorem Config.block_regDmaSrcLo : Config.block.regDmaSrcLo = 0xFF52#16 := (rfl)
@[simp] theorem Config.block_regDmaDstHi : Config.block.regDmaDstHi = 0xFF53#16 := (rfl)
@[simp] theorem Config.block_regDmaDstLo : Config.block.regDmaDstLo = 0xFF54#16 := (rfl)
@[simp] theorem Config.block_regDmaCtrl : Config.block.regDmaCtrl = 0xFF55#16 := (rfl)
@[simp] theorem Config.block_dmaSrcMask : Config.block.dmaSrcMask = 0xFFF0#16 := (rfl)
@[simp] theorem Config.block_dmaDstMask : Config.block.dmaDstMask = 0x1FF0#16 := (rfl)
@[simp] theorem Config.block_dmaDstBase : Config.block.dmaDstBase = 0x8000#16 := (rfl)
@[simp] theorem Config.block_ramEnableMagic : Config.block.ramEnableMagic = 0xA#4 := (rfl)
@[simp] theorem Config.block_zeroFixFamilies : Config.block.zeroFixFamilies = [.A, .B, .C] := (rfl)
@[simp] theorem Config.block_rtcSelS : Config.block.rtcSelS = 0x8#4 := (rfl)
@[simp] theorem Config.block_rtcSelM : Config.block.rtcSelM = 0x9#4 := (rfl)
@[simp] theorem Config.block_rtcSelH : Config.block.rtcSelH = 0xA#4 := (rfl)
@[simp] theorem Config.block_rtcSelDL : Config.block.rtcSelDL = 0xB#4 := (rfl)
@[simp] theorem Config.block_rtcSelDH : Config.block.rtcSelDH = 0xC#4 := (rfl)
@[simp] theorem Config.block_rtcMaskS : Config.block.rtcMaskS = 0x3F#8 := (rfl)
@[simp] theorem Config.block_rtcMaskM : Config.block.rtcMaskM = 0x3F#8 := (rfl)
@[simp] theorem Config.block_rtcMaskH : Config.block.rtcMaskH = 0x1F#8 := (rfl)
@[simp] theorem Config.block_rtcMaskDL : Config.block.rtcMaskDL = 0xFF#8 := (rfl)
@[simp] theorem Config.block_rtcMaskDH : Config.block.rtcMaskDH = 0xC1#8 := (rfl)
@[simp] theorem Config.block_saveMagic0 : Config.block.saveMagic0 = 0x47#8 := (rfl)
@[simp] theorem Config.block_saveMagic1 : Config.block.saveMagic1 = 0x59#8 := (rfl)
@[simp] theorem Config.block_saveVersion : Config.block.saveVersion = 0x01#8 := (rfl)
@[simp] theorem Config.block_saveLength : Config.block.saveLength = 37 := (rfl)

/-- The low ends of the windows, for the tests of an address against them. -/
theorem Config.block_lows :
    Config.block.romxLo = 0x4000#16 ∧ Config.block.vramLo = 0x8000#16 ∧ Config.block.sramLo = 0xA000#16 ∧
      Config.block.wram0Lo = 0xC000#16 ∧ Config.block.wramxLo = 0xD000#16 ∧ Config.block.echoLo = 0xE000#16 ∧
      Config.block.extLo = 0xFE00#16 := ⟨rfl, rfl, rfl, rfl, rfl, rfl, rfl⟩

/-- Neighbouring windows meet: the twelve upper and lower ends leave no address out and share none (30_encoding.md R114). -/
theorem Config.block_windows_meet :
    Config.block.rom0Hi + 1 = Config.block.romxLo ∧ Config.block.romxHi + 1 = Config.block.vramLo ∧
      Config.block.vramHi + 1 = Config.block.sramLo ∧ Config.block.sramHi + 1 = Config.block.wram0Lo ∧
      Config.block.wram0Hi + 1 = Config.block.wramxLo ∧ Config.block.wramxHi + 1 = Config.block.echoLo ∧
      Config.block.echoHi + 1 = Config.block.extLo := by decide

/-- The widths of the word types are the record's (00_scope.md R8). -/
theorem Config.block_widths : Addr = BitVec Config.block.addrBits ∧ Byte = BitVec Config.block.dataBits := ⟨rfl, rfl⟩

/-- The selectors family `C` accepts (30_encoding.md R118). -/
theorem acceptedSelector_iff (v : BitVec 4) :
    acceptedSelector v = true ↔ v.toNat ≤ 3 ∨ (8 ≤ v.toNat ∧ v.toNat ≤ 12) := by
  revert v; decide

namespace Machine

theorem unmapped_eq : unmapped = 0xFF#8 := rfl
theorem romBankSize_eq : romBankSize = 16384 := rfl
theorem ramBankSize_eq : ramBankSize = 8192 := rfl
theorem vramBankSize_eq : vramBankSize = 8192 := rfl
theorem vramBanks_eq : vramBanks = 2 := rfl
theorem wramBankSize_eq : wramBankSize = 4096 := rfl
theorem wramBanks_eq : wramBanks = 8 := rfl
theorem dmaUnit_eq : dmaUnit = 16 := rfl

/-- The families that never store index 0 (41_bank_switch.md R182). -/
theorem zeroFixFamily_iff (f : Family) : zeroFixFamily f = true ↔ f = .A ∨ f = .B ∨ f = .C := by cases f <;> decide

/-- When the storage window shows a clock register (10_state.md R27). -/
theorem isRtcSel_iff (x : Session) :
    x.isRtcSel = true ↔ x.desc.family = .C ∧ 8 ≤ x.bank.ramBank.toNat ∧ x.bank.ramBank.toNat ≤ 12 := by
  show (x.desc.family == .C && decide (8#4 ≤ x.bank.ramBank) && decide (x.bank.ramBank ≤ 12#4)) = true ↔ _
  simp only [Bool.and_eq_true, beq_iff_eq, decide_eq_true_eq, and_assoc]
  exact Iff.rfl

/-! The header code tables (40_descriptor.md R162, R163, R164). -/

theorem typeTable_none : ∀ b : Byte,
    b.toNat ∉
      [0x00, 0x01, 0x02, 0x03, 0x05, 0x06, 0x08, 0x09, 0x0F, 0x10, 0x11, 0x12, 0x13, 0x19, 0x1A, 0x1B, 0x1C, 0x1D, 0x1E,
        0xFE, 0xFF] → typeTable b = none := by decide

theorem romSizeTable_listed : ∀ b : Byte, b.toNat ≤ 8 → romSizeTable b = some (2 ^ (b.toNat + 1)) := by decide

theorem romSizeTable_none : ∀ b : Byte, 8 < b.toNat → romSizeTable b = none := by decide

theorem ramSizeTable_none : ∀ b : Byte, 5 < b.toNat → ramSizeTable b = none := by decide

end Machine

end Sys2Proof
end

