-- ==== Sys2Proof/Laws/State.lean ====
section
/-! SUPPORT. One lemma per field per update of the machine's records, so that later proofs do not unfold an update. -/

namespace Sys2Proof.Machine

@[simp] theorem Loaded.toState_session (r : Loaded) : r.toState.session = some r.ses := rfl
@[simp] theorem Loaded.toState_env (r : Loaded) : r.toState.env = r.env := rfl

@[simp] theorem Loaded.withSes_ses (r : Loaded) (x : Session) : (r.withSes x).ses = x := rfl
@[simp] theorem Loaded.withSes_env (r : Loaded) (x : Session) : (r.withSes x).env = r.env := rfl

@[simp] theorem Loaded.withBank_ses (r : Loaded) (b : BankState) : (r.withBank b).ses = { r.ses with bank := b } := rfl
@[simp] theorem Loaded.withBank_env (r : Loaded) (b : BankState) : (r.withBank b).env = r.env := rfl

@[simp] theorem Loaded.withDma_ses (r : Loaded) (d : Dma) : (r.withDma d).ses = { r.ses with dma := d } := rfl
@[simp] theorem Loaded.withDma_env (r : Loaded) (d : Dma) : (r.withDma d).env = r.env := rfl

@[simp] theorem Loaded.answer_ses (r : Loaded) (v : Result) : (r.answer v).ses = r.ses := rfl
@[simp] theorem Loaded.answer_result (r : Loaded) (v : Result) : (r.answer v).env.result = v := rfl
@[simp] theorem Loaded.answer_hostNow (r : Loaded) (v : Result) : (r.answer v).env.hostNow = r.env.hostNow := rfl
@[simp] theorem Loaded.answer_par (r : Loaded) (v : Result) : (r.answer v).env.par = r.env.par := rfl
@[simp] theorem Loaded.answer_queue (r : Loaded) (v : Result) : (r.answer v).env.queue = r.env.queue := rfl
@[simp] theorem Loaded.answer_ports (r : Loaded) (v : Result) : (r.answer v).env.ports = r.env.ports := rfl
@[simp] theorem Loaded.answer_events (r : Loaded) (v : Result) : (r.answer v).env.events = r.env.events := rfl
@[simp] theorem Loaded.answer_extCalls (r : Loaded) (v : Result) : (r.answer v).env.extCalls = r.env.extCalls := rfl
@[simp] theorem Loaded.answer_draws (r : Loaded) (v : Result) : (r.answer v).env.draws = r.env.draws := rfl

@[simp] theorem Loaded.record_ses (r : Loaded) (e : Event) : (r.record e).ses = r.ses := rfl
@[simp] theorem Loaded.record_events (r : Loaded) (e : Event) : (r.record e).env.events = e :: r.env.events := rfl
@[simp] theorem Loaded.record_result (r : Loaded) (e : Event) : (r.record e).env.result = r.env.result := rfl
@[simp] theorem Loaded.record_hostNow (r : Loaded) (e : Event) : (r.record e).env.hostNow = r.env.hostNow := rfl
@[simp] theorem Loaded.record_par (r : Loaded) (e : Event) : (r.record e).env.par = r.env.par := rfl
@[simp] theorem Loaded.record_queue (r : Loaded) (e : Event) : (r.record e).env.queue = r.env.queue := rfl
@[simp] theorem Loaded.record_ports (r : Loaded) (e : Event) : (r.record e).env.ports = r.env.ports := rfl
@[simp] theorem Loaded.record_extCalls (r : Loaded) (e : Event) : (r.record e).env.extCalls = r.env.extCalls := rfl
@[simp] theorem Loaded.record_draws (r : Loaded) (e : Event) : (r.record e).env.draws = r.env.draws := rfl

@[simp] theorem Loaded.switchTo_ses (r : Loaded) (b : BankState) : (r.switchTo b).ses = { r.ses with bank := b } := by
  unfold Loaded.switchTo; split <;> rfl
/-- A change of the Bank-Switch State moves nothing of the environment but the events. -/
theorem Loaded.switchTo_env (r : Loaded) (b : BankState) :
    (r.switchTo b).env = { r.env with events := (r.switchTo b).env.events } := by
  unfold Loaded.switchTo; split <;> rfl
theorem Loaded.switchTo_events (r : Loaded) (b : BankState) :
    (r.switchTo b).env.events = if r.ses.bank.motor = b.motor then r.env.events else .motor b.motor :: r.env.events := by
  unfold Loaded.switchTo; split <;> rfl

@[simp] theorem Env.nextDraw_draws (e : Env) : e.nextDraw.draws = e.draws + 1 := rfl
@[simp] theorem Env.nextDraw_hostNow (e : Env) : e.nextDraw.hostNow = e.hostNow := rfl
@[simp] theorem Env.nextDraw_par (e : Env) : e.nextDraw.par = e.par := rfl
@[simp] theorem Env.nextDraw_queue (e : Env) : e.nextDraw.queue = e.queue := rfl
@[simp] theorem Env.nextDraw_ports (e : Env) : e.nextDraw.ports = e.ports := rfl
@[simp] theorem Env.nextDraw_result (e : Env) : e.nextDraw.result = e.result := rfl
@[simp] theorem Env.nextDraw_events (e : Env) : e.nextDraw.events = e.events := rfl
@[simp] theorem Env.nextDraw_extCalls (e : Env) : e.nextDraw.extCalls = e.extCalls := rfl

@[simp] theorem Session.ctx_family (x : Session) : x.ctx.family = x.desc.family := rfl
@[simp] theorem Session.ctx_hasRumble (x : Session) : x.ctx.hasRumble = x.desc.hasRumble := rfl
@[simp] theorem Session.ctx_ramBanks (x : Session) : x.ctx.ramBanks = x.desc.ramBanks := rfl
@[simp] theorem Session.ctx_mode (x : Session) : x.ctx.mode = x.bank.mode := rfl
@[simp] theorem Session.ctx_ramEnable (x : Session) : x.ctx.ramEnable = x.bank.ramEnable := rfl
@[simp] theorem Session.ctx_ramBank (x : Session) : x.ctx.ramBank = x.bank.ramBank := rfl
@[simp] theorem Session.ctx_isRtcSel (x : Session) : x.ctx.isRtcSel = x.isRtcSel := rfl

@[simp] theorem takeRequest_session (s : State) (q : Request) (rest : List Request) :
    (takeRequest s q rest).session = s.session := rfl
@[simp] theorem takeRequest_queue (s : State) (q : Request) (rest : List Request) :
    (takeRequest s q rest).env.queue = rest := rfl
@[simp] theorem takeRequest_ports (s : State) (q : Request) (rest : List Request) :
    (takeRequest s q rest).env.ports = q.ports := rfl
@[simp] theorem takeRequest_par (s : State) (q : Request) (rest : List Request) :
    (takeRequest s q rest).env.par = s.env.par := rfl

@[simp] theorem raiseInvalidHeader_session (s : State) : (raiseInvalidHeader s).session = none := rfl
@[simp] theorem raiseInvalidHeader_result (s : State) : (raiseInvalidHeader s).env.result = .loadOk false := rfl

end Sys2Proof.Machine
end

