-- ==== Sys2Proof/Laws/Memory.lean ====
section
/-! SUPPORT. The laws of the backing arrays: what a store reads back, that it leaves every other byte, and that every
operation keeps the canonical form. -/

namespace Sys2Proof.Machine

theorem Mem.find_put (m : Mem) (i j : Nat) (v : Byte) :
    Mem.find (Mem.put m i v) j = if j = i then some v else Mem.find m j := by
  induction m with
  | nil => simp [Mem.put, Mem.find, eq_comm]
  | cons c m ih =>
    by_cases h1 : i < c.1
    · by_cases hj : j = i
      · subst hj; simp [Mem.put, Mem.find, h1]
      · simp [Mem.put, Mem.find, h1, hj, Ne.symm hj]
    · by_cases h2 : i = c.1
      · by_cases hj : j = i
        · subst hj; simp [Mem.put, Mem.find, h2]
        · simp [Mem.put, Mem.find, ← h2, hj, Ne.symm hj]
      · by_cases hc : c.1 = j
        · subst hc
          simp [Mem.put, Mem.find, h1, h2, Ne.symm h2]
        · simp [Mem.put, Mem.find, h1, h2, hc, ih]

theorem Mem.find_eq_none {m : Mem} {i : Nat} (h : ∀ c ∈ m, i ≠ c.1) : Mem.find m i = none := by
  induction m with
  | nil => rfl
  | cons c m ih =>
    have hc : c.1 ≠ i := fun e => h c (by simp) e.symm
    simp only [Mem.find, if_neg hc]
    exact ih fun d hd => h d (by simp [hd])

theorem Mem.find_erase {m : Mem} (hm : m.Pairwise (fun c d => c.1 < d.1)) (i j : Nat) :
    Mem.find (Mem.erase m i) j = if j = i then none else Mem.find m j := by
  induction m with
  | nil => simp [Mem.erase, Mem.find]
  | cons c m ih =>
    rw [List.pairwise_cons] at hm
    by_cases h : c.1 = i
    · subst h
      by_cases hj : j = c.1
      · subst hj
        simp only [Mem.erase, if_true]
        exact Mem.find_eq_none fun d hd => by have := hm.1 d hd; omega
      · simp [Mem.erase, Mem.find, hj, Ne.symm hj]
    · by_cases hj : c.1 = j
      · simp [Mem.erase, Mem.find, hj, show j ≠ i by omega]
      · simp [Mem.erase, Mem.find, h, hj, ih hm.2]

/-- A store to an array with drawn first contents reads back and leaves every other index. -/
theorem Mem.find_write_none (m : Mem) (i j : Nat) (v : Byte) :
    Mem.find (Mem.write none m i v) j = if j = i then some v else Mem.find m j := by
  simp [Mem.write, Mem.find_put]

/-- A store to an array whose unlisted bytes are `d` reads back and leaves every other byte. -/
theorem Mem.getD_find_write {m : Mem} (hm : m.Pairwise (fun c d => c.1 < d.1)) (d : Byte) (i j : Nat) (v : Byte) :
    (Mem.find (Mem.write (some d) m i v) j).getD d = if j = i then v else (Mem.find m j).getD d := by
  unfold Mem.write
  split
  · next h =>
    rw [Mem.find_erase hm]
    split
    · simpa using h
    · rfl
  · rw [Mem.find_put]; split <;> rfl

theorem Mem.mem_put {m : Mem} {i : Nat} {v : Byte} {c : Host.Cell} (h : c ∈ Mem.put m i v) : c = (i, v) ∨ c ∈ m := by
  induction m with
  | nil => simpa [Mem.put] using h
  | cons d m ih =>
    unfold Mem.put at h
    split at h
    · simpa using h
    · split at h
      · rcases List.mem_cons.1 h with h | h
        · exact .inl h
        · exact .inr (by simp [h])
      · rcases List.mem_cons.1 h with h | h
        · exact .inr (by simp [h])
        · exact (ih h).imp_right (by simp +contextual)

theorem Mem.mem_erase {m : Mem} {i : Nat} {c : Host.Cell} (h : c ∈ Mem.erase m i) : c ∈ m := by
  induction m with
  | nil => exact h
  | cons d m ih =>
    unfold Mem.erase at h
    split at h
    · simp [h]
    · rcases List.mem_cons.1 h with h | h
      · simp [h]
      · simp [ih h]

theorem Mem.pairwise_put {m : Mem} (hm : m.Pairwise (fun c d => c.1 < d.1)) (i : Nat) (v : Byte) :
    (Mem.put m i v).Pairwise (fun c d => c.1 < d.1) := by
  induction m with
  | nil => simp [Mem.put]
  | cons c m ih =>
    have h := List.pairwise_cons.1 hm
    unfold Mem.put
    split
    · next hi =>
      refine List.pairwise_cons.2 ⟨fun d hd => ?_, hm⟩
      rcases List.mem_cons.1 hd with rfl | hd
      · exact hi
      · exact lt_trans hi (h.1 d hd)
    · split
      · next hi => exact List.pairwise_cons.2 ⟨fun d hd => by simpa [hi] using h.1 d hd, h.2⟩
      · next h1 h2 =>
        refine List.pairwise_cons.2 ⟨fun d hd => ?_, ih h.2⟩
        rcases Mem.mem_put hd with rfl | hd
        · show c.1 < i; omega
        · exact h.1 d hd

theorem Mem.pairwise_erase {m : Mem} (hm : m.Pairwise (fun c d => c.1 < d.1)) (i : Nat) :
    (Mem.erase m i).Pairwise (fun c d => c.1 < d.1) := by
  induction m with
  | nil => exact hm
  | cons c m ih =>
    have h := List.pairwise_cons.1 hm
    unfold Mem.erase
    split
    · exact h.2
    · exact List.pairwise_cons.2 ⟨fun d hd => h.1 d (Mem.mem_erase hd), ih h.2⟩

/-- A store inside an array keeps its canonical form. -/
theorem Mem.wf_write {u : Option Byte} {n : Nat} {m : Mem} (hm : Mem.wf u n m) {i : Nat} (hi : i < n) (v : Byte) :
    Mem.wf u n (Mem.write u m i v) := by
  unfold Mem.write
  split
  · exact ⟨Mem.pairwise_erase hm.1 i, fun c hc => hm.2 c (Mem.mem_erase hc)⟩
  · next h =>
    refine ⟨Mem.pairwise_put hm.1 i v, fun c hc => ?_⟩
    rcases Mem.mem_put hc with rfl | hc
    · exact ⟨hi, h⟩
    · exact hm.2 c hc

theorem Mem.wf_nil (u : Option Byte) (n : Nat) : Mem.wf u n [] := ⟨List.Pairwise.nil, by simp⟩

theorem Mem.wf_foldl_write {u : Option Byte} {n : Nat} (cs : List Host.Cell) (hcs : ∀ c ∈ cs, c.1 < n) {m : Mem}
    (hm : Mem.wf u n m) : Mem.wf u n (cs.foldl (fun m c => Mem.write u m c.1 c.2) m) := by
  induction cs generalizing m with
  | nil => exact hm
  | cons c cs ih =>
    exact ih (fun d hd => hcs d (by simp [hd])) (Mem.wf_write hm (hcs c (by simp)) c.2)

/-- What an image stands for is in canonical form, whatever pairs it lists. -/
theorem Image.wf_toMem (r : Region) (g : Image) : Mem.wf r.unlisted g.len (g.toMem r) :=
  Mem.wf_foldl_write _ (fun c hc => by simpa using (List.mem_filter.1 hc).2) (Mem.wf_nil _ _)

theorem Mem.write_append {u : Option Byte} {m : Mem} {c : Host.Cell} (hm : ∀ d ∈ m, d.1 < c.1) (hc : u ≠ some c.2) :
    Mem.write u m c.1 c.2 = m ++ [c] := by
  rw [Mem.write, if_neg hc]
  induction m with
  | nil => rfl
  | cons d m ih =>
    have h1 : d.1 < c.1 := hm d (by simp)
    rw [Mem.put, if_neg (by omega), if_neg (by omega), ih fun e he => hm e (by simp [he])]
    rfl

theorem Mem.foldl_write_canonical {u : Option Byte} {n : Nat} (cs m : Mem) (h : Mem.wf u n (m ++ cs)) :
    cs.foldl (fun m c => Mem.write u m c.1 c.2) m = m ++ cs := by
  induction cs generalizing m with
  | nil => simp
  | cons c cs ih =>
    have hc := h.2 c (by simp)
    have hlt : ∀ d ∈ m, d.1 < c.1 := fun d hd => (List.pairwise_append.1 h.1).2.2 d hd c (by simp)
    rw [List.foldl_cons, Mem.write_append hlt hc.2, ih (m ++ [c]) (by simpa using h)]
    simp

/-- An image in canonical form stands for the cells it lists. -/
theorem Image.toMem_canonical {r : Region} {g : Image} (h : Mem.wf r.unlisted g.len g.cells) : g.toMem r = g.cells := by
  have hf : g.cells.filter (fun c => decide (c.1 < g.len)) = g.cells :=
    List.filter_eq_self.2 fun c hc => by simpa using (h.2 c hc).1
  rw [Image.toMem, hf]
  simpa using Mem.foldl_write_canonical (n := g.len) g.cells [] (by simpa using h)

/-- A store to `vram` changes one byte. -/
theorem Session.vramByte_storeVram (x : Session) (i j : Nat) (v : Byte) :
    (x.storeVram i v).vramByte j = if j = i then v else x.vramByte j := by
  simp only [Session.vramByte, Session.storeVram, Region.unlisted, Mem.find_write_none]
  split <;> rfl

/-- A store to `wram` changes one byte. -/
theorem Session.wramByte_storeWram (x : Session) (i j : Nat) (v : Byte) :
    (x.storeWram i v).wramByte j = if j = i then v else x.wramByte j := by
  simp only [Session.wramByte, Session.storeWram, Region.unlisted, Mem.find_write_none]
  split <;> rfl

/-- A store to `sram` in canonical form changes one byte. -/
theorem Session.sramByte_storeSram {x : Session} (h : x.sram.Pairwise (fun c d => c.1 < d.1)) (i j : Nat) (v : Byte) :
    (x.storeSram i v).sramByte j = if j = i then v else x.sramByte j := by
  simp only [Session.sramByte, Session.storeSram, Region.unlisted]
  exact Mem.getD_find_write h 0x00#8 i j v

end Sys2Proof.Machine
end

