-- ==== Sys2Proof/Laws/Rows.lean ====
section
/-! SUPPORT. What the frame of a row answers: the inversion and the completion of `onRow`, `readRow` and `writeRow`. -/

namespace Sys2Proof.Machine

/-- A row that applies in a loaded session runs. -/
theorem onRow_next {i : Instr} {x : Session} (h : applies x.ctx i = true) (e : Env) (f : Loaded → Loaded) :
    onRow i ⟨some x, e⟩ f = .next (f ⟨x, e⟩).toState := by
  simp [onRow, h]

theorem readRow_next {i : Instr} {x : Session} (h : applies x.ctx i = true) (e : Env) (f : Loaded → Loaded × Byte) :
    readRow i ⟨some x, e⟩ f = .next ((f ⟨x, e⟩).1.answer (.data (f ⟨x, e⟩).2)).toState :=
  onRow_next h e _

theorem writeRow_next {i : Instr} {x : Session} (h : applies x.ctx i = true) (e : Env) (f : Loaded → Loaded) :
    writeRow i ⟨some x, e⟩ f = .next ((f ⟨x, e⟩).answer .none).toState :=
  onRow_next h e _

/-- A row that does not apply is refused by name. -/
theorem onRow_refused {i : Instr} {x : Session} (h : applies x.ctx i = false) (e : Env) (f : Loaded → Loaded) :
    onRow i ⟨some x, e⟩ f = .refused .rowNotSelected := by
  simp [onRow, h]

/-- If a row answers a next state, a session was loaded, the row applied, and the next state is its effect. -/
theorem onRow_inv {i : Instr} {s t : State} {f : Loaded → Loaded} (h : onRow i s f = .next t) :
    ∃ x, s.session = some x ∧ applies x.ctx i = true ∧ t = (f ⟨x, s.env⟩).toState := by
  unfold onRow at h
  split at h
  · cases h
  · next x hx =>
    split at h
    · next ha => exact ⟨x, hx, ha, (by simpa using h.symm)⟩
    · cases h

theorem readRow_inv {i : Instr} {s t : State} {f : Loaded → Loaded × Byte} (h : readRow i s f = .next t) :
    ∃ x, s.session = some x ∧ applies x.ctx i = true ∧
      t = ((f ⟨x, s.env⟩).1.answer (.data (f ⟨x, s.env⟩).2)).toState :=
  onRow_inv h

theorem writeRow_inv {i : Instr} {s t : State} {f : Loaded → Loaded} (h : writeRow i s f = .next t) :
    ∃ x, s.session = some x ∧ applies x.ctx i = true ∧ t = ((f ⟨x, s.env⟩).answer .none).toState :=
  onRow_inv h

end Sys2Proof.Machine
end

