-- ==== Sys2Proof/Laws/Clock.lean ====
section
/-! SUPPORT. The clock: what a synchronisation, a register write and the latch can change, and that they keep the live
registers inside their write masks. -/

namespace Sys2Proof.Machine

/-- A synchronisation changes the live registers and their timestamp only. -/
theorem syncSession_frame (now : Nat) (x : Session) :
    syncSession now x = { x with live := (syncSession now x).live, lastSync := (syncSession now x).lastSync } := by
  unfold syncSession; split <;> rfl

theorem syncSession_of_halt {now : Nat} {x : Session} (h : x.live.halt = true) : syncSession now x = x := by
  simp [syncSession, h]

theorem syncSession_of_running {now : Nat} {x : Session} (h : x.live.halt = false) :
    syncSession now x =
      { x with
        live := if x.lastSync < now then advance x.live (now - x.lastSync) else x.live
        lastSync := now } := by
  simp [syncSession, h]

/-- A register write after its synchronisation changes the live registers and their timestamp only. -/
theorem writeClock_frame (now : Nat) (sel : ClockReg) (v : Byte) (x : Session) :
    writeClock now sel v x =
      { x with live := (writeClock now sel v x).live, lastSync := (writeClock now sel v x).lastSync } := rfl

theorem ofNat_masked_60 : ∀ k < 60, BitVec.ofNat 8 k &&& clockMask .S = BitVec.ofNat 8 k := by decide

theorem ofNat_masked_24 : ∀ k < 24, BitVec.ofNat 8 k &&& clockMask .H = BitVec.ofNat 8 k := by decide

theorem mask_twice (m v : Byte) : v &&& m &&& m = v &&& m := by
  rw [BitVec.and_assoc, BitVec.and_self]

/-- The flag register's bits in an advance: bit 7 the old carry or a wrap, bit 0 the ninth day bit, the rest kept. -/
theorem getLsbD_advanceDH (dh : Byte) (days : Nat) (i : Nat) (h : i < 8) :
    (advanceDH dh days).getLsbD i =
      if i = 7 then (dh.getLsbD 7 || decide (511 < days))
      else if i = 0 then decide (days % 512 / 256 = 1)
      else dh.getLsbD i := by
  have key : ∀ (b : Bool) (d : Byte) (n : Fin 2) (i : Fin 8),
      ((d &&& 0x7E#8) ||| (if b = true then 0x80#8 else d &&& 0x80#8) ||| BitVec.ofNat 8 n).getLsbD i =
        if i.val = 7 then (d.getLsbD 7 || b) else if i.val = 0 then decide (n.val = 1) else d.getLsbD i := by
    intro b d n i
    fin_cases i <;> fin_cases n <;> cases b <;> simp
  have hn : days % 512 / 256 < 2 := by omega
  simpa [advanceDH] using key (decide (511 < days)) dh ⟨_, hn⟩ ⟨i, h⟩

theorem advance_halt (r : ClockRegs) (e : Nat) : (advance r e).halt = r.halt :=
  getLsbD_advanceDH r.DH _ 6 (by decide)

/-- A byte is inside the mask of `DH` when its bits 1 to 5 are clear. -/
theorem masked_DH_iff (v : Byte) : v &&& clockMask .DH = v ↔ ∀ i, 1 ≤ i → i ≤ 5 → v.getLsbD i = false := by
  have mask_bits : ∀ i < 8, (clockMask .DH).getLsbD i = decide (i = 0 ∨ 6 ≤ i) := by decide
  constructor
  · intro h i h1 h5
    rw [← h, BitVec.getLsbD_and, mask_bits i (by omega)]
    simp; omega
  · intro h
    refine BitVec.eq_of_getLsbD_eq fun i hi => ?_
    rw [BitVec.getLsbD_and, mask_bits i hi]
    by_cases hc : i = 0 ∨ 6 ≤ i
    · simp [hc]
    · simp [hc, h i (by omega) (by omega)]

theorem advance_wired {r : ClockRegs} (h : r.wired) (e : Nat) : (advance r e).wired := by
  refine ⟨ofNat_masked_60 _ (Nat.mod_lt _ (by decide)), ofNat_masked_60 _ (Nat.mod_lt _ (by decide)),
    ofNat_masked_24 _ (Nat.mod_lt _ (by decide)), (masked_DH_iff _).2 fun i h1 h5 => ?_⟩
  show (advanceDH r.DH _).getLsbD i = false
  rw [getLsbD_advanceDH _ _ _ (by omega), if_neg (by omega), if_neg (by omega)]
  exact (masked_DH_iff _).1 h.2.2.2 i h1 h5

theorem ClockRegs.masked_wired (s m h dl dh : Byte) : (ClockRegs.masked s m h dl dh).wired :=
  ⟨mask_twice _ _, mask_twice _ _, mask_twice _ _, mask_twice _ _⟩

theorem ClockRegs.set_wired {r : ClockRegs} (h : r.wired) (sel : ClockReg) (v : Byte) : (r.set sel v).wired := by
  obtain ⟨h1, h2, h3, h4⟩ := h
  cases sel
  · exact ⟨mask_twice _ _, h2, h3, h4⟩
  · exact ⟨h1, mask_twice _ _, h3, h4⟩
  · exact ⟨h1, h2, mask_twice _ _, h4⟩
  · exact ⟨h1, h2, h3, h4⟩
  · exact ⟨h1, h2, h3, mask_twice _ _⟩

theorem zeroClock_wired : zeroClock.wired := by decide

theorem syncSession_wired {x : Session} (h : x.live.wired) (now : Nat) : (syncSession now x).live.wired := by
  unfold syncSession
  split
  · exact h
  · show (if _ then _ else _ : ClockRegs).wired
    split
    · exact advance_wired h _
    · exact h

/-- The session's invariant does not look at the live registers beyond their masks. -/
theorem Session.ok_of_clock {x y : Session} (hx : x.ok)
    (hy : y = { x with live := y.live, lastSync := y.lastSync }) (hl : y.live.wired) : y.ok := by
  obtain ⟨h1, h2, -, h4⟩ := hx
  rw [hy]
  exact ⟨h1, h2, hl, h4⟩

theorem syncSession_ok {x : Session} (h : x.ok) (now : Nat) : (syncSession now x).ok :=
  Session.ok_of_clock h (syncSession_frame now x) (syncSession_wired h.2.2.1 now)

theorem writeClock_ok {x : Session} (h : x.ok) (now : Nat) (sel : ClockReg) (v : Byte) : (writeClock now sel v x).ok :=
  Session.ok_of_clock h (writeClock_frame now sel v x) (ClockRegs.set_wired h.2.2.1 sel v)

theorem latch_ok {x : Session} (h : x.ok) : (latch x).ok :=
  ⟨h.1, h.2.1, h.2.2.1, h.2.2.1, h.2.2.2.2⟩

end Sys2Proof.Machine
end

