-- ==== Sys2Proof/Laws/Mapper.lean ====
section
/-! SUPPORT. The Mapper: what `Read` and `Write` can change, and that both keep the session's invariant. -/

namespace Sys2Proof.Machine

/-- To show something of a choice, show it of both sides. -/
theorem ite_elim {α : Type} {P : α → Prop} {c : Prop} [Decidable c] {x y : α} (h1 : c → P x) (h2 : ¬ c → P y) :
    P (if c then x else y) := by
  by_cases h : c
  · rw [if_pos h]; exact h1 h
  · rw [if_neg h]; exact h2 h

/-! ## Reads -/

/-- `Read` answers a byte and changes nothing, or asks the external port, or reads a clock register. -/
theorem read_elim {P : Loaded × Byte → Prop} {a : Addr} {r : Loaded} (pure : ∀ b, P (r, b)) (ext : P (extRead a r))
    (clock : 0xA000#16 ≤ a → a < 0xC000#16 → r.ses.bank.ramEnable = true → r.ses.isRtcSel = true →
      P (readRegister (ClockReg.ofSel r.ses.bank.ramBank) r)) : P (read a r) := by
  have hs : ∀ off, 0xA000#16 ≤ a → a < 0xC000#16 → P (readSram off r) := by
    intro off h1 h2
    unfold readSram
    by_cases c1 : r.ses.bank.ramEnable = false
    · rw [if_pos c1]; exact pure _
    rw [if_neg c1]
    by_cases c2 : r.ses.isRtcSel = true
    · rw [if_pos c2]; exact clock h1 h2 (by simpa using c1) c2
    rw [if_neg c2]
    by_cases c3 : r.ses.desc.ramBanks = 0
    · rw [if_pos c3]; exact pure _
    · rw [if_neg c3]; exact pure _
  have he : P (readEcho a r) := by unfold readEcho; split <;> exact pure _
  unfold read
  simp only [Config.block_lows]
  refine ite_elim (P := P) (fun h => h ▸ ext) fun _ => ?_
  refine ite_elim (P := P) (fun h => h ▸ ext) fun _ => ?_
  refine ite_elim (P := P) (fun _ => pure _) fun _ => ?_
  refine ite_elim (P := P) (fun _ => pure _) fun _ => ?_
  refine ite_elim (P := P) (fun _ => pure _) fun _ => ?_
  refine ite_elim (P := P) (fun _ => pure _) fun _ => ?_
  refine ite_elim (P := P) (fun _ => pure _) fun _ => ?_
  refine ite_elim (P := P) (fun _ => ext) fun _ => ?_
  refine ite_elim (P := P) (fun _ => he) fun _ => ?_
  refine ite_elim (P := P) (fun _ => pure _) fun _ => ?_
  refine ite_elim (P := P) (fun _ => pure _) fun hc => ?_
  refine ite_elim (P := P) (fun h => hs _ h (by bv_omega)) fun _ => ?_
  refine ite_elim (P := P) (fun _ => pure _) fun _ => ?_
  exact ite_elim (P := P) (fun _ => pure _) fun _ => pure _

/-- Two loaded machines that differ at most in the live clock registers with their timestamp, the count of external reads
and the events. -/
def SameButReads (r t : Loaded) : Prop :=
  t.ses = { r.ses with live := t.ses.live, lastSync := t.ses.lastSync } ∧
    t.env = { r.env with extCalls := t.env.extCalls, events := t.env.events }

theorem SameButReads.refl (r : Loaded) : SameButReads r r := ⟨rfl, rfl⟩

/-- Everything a read can change. -/
theorem read_frame (a : Addr) (r : Loaded) : SameButReads r (read a r).1 :=
  read_elim (P := fun p => SameButReads r p.1) (fun _ => SameButReads.refl r) ⟨rfl, rfl⟩
    fun _ _ _ _ => ⟨syncSession_frame _ _, rfl⟩

/-- A read that is not routed to the clock leaves the session as it was. -/
theorem read_ses_of_not_clock {a : Addr} {r : Loaded}
    (h : ¬ (0xA000#16 ≤ a ∧ a < 0xC000#16 ∧ r.ses.bank.ramEnable = true ∧ r.ses.isRtcSel = true)) :
    (read a r).1.ses = r.ses :=
  read_elim (P := fun p => p.1.ses = r.ses) (fun _ => rfl) rfl fun h1 h2 h3 h4 => absurd ⟨h1, h2, h3, h4⟩ h

theorem read_ok {r : Loaded} (h : r.ses.ok) (a : Addr) : (read a r).1.ses.ok :=
  read_elim (P := fun p => p.1.ses.ok) (fun _ => h) h fun _ _ _ _ => syncSession_ok h _

/-! ## Control writes -/

/-- A control write changes nothing, or the Bank-Switch State, or the latch and the snapshot, or the motor, or sets the
mark. -/
theorem onWrite_elim {P : Loaded → Prop} {a : Addr} {v : Byte} {r : Loaded} (same : P r)
    (bank : ∀ b : BankState, b.motor = r.ses.bank.motor → P (r.withBank b)) (latched : P (ctlLatchC v r))
    (motor : ∀ m b, P (ctlRambDRumble m b r)) (ef : P (ctlEf a v r)) : P (onWrite a v r) := by
  have hA : P (onWriteA a v r) := by
    unfold onWriteA
    split; · exact bank _ rfl
    split; · exact bank _ rfl
    split
    · split <;> exact bank _ rfl
    · exact bank _ rfl
  have hB : P (onWriteB a v r) := by
    unfold onWriteB
    split; · exact bank _ rfl
    split; · exact bank _ rfl
    exact same
  have hC : P (onWriteC a v r) := by
    unfold onWriteC
    split; · exact bank _ rfl
    split; · exact bank _ rfl
    split
    · split
      · exact bank _ rfl
      · exact same
    · exact latched
  have hD : P (onWriteD a v r) := by
    unfold onWriteD
    split; · exact bank _ rfl
    split
    · split <;> exact bank _ rfl
    split
    · split
      · exact bank _ rfl
      · exact motor _ _
    · exact same
  unfold onWrite
  split
  · exact same
  · exact hA
  · exact hB
  · exact hC
  · exact hD
  · exact ef
  · exact ef

/-- A control write keeps the arrays, the descriptor, the banks the block snoops, the DMA registers and the live clock. -/
theorem onWrite_ses (a : Addr) (v : Byte) (r : Loaded) :
    ∃ (b : BankState) (snap : ClockRegs) (mark : Bool),
      (onWrite a v r).ses = { r.ses with bank := b, snap := snap, refused := mark } ∧
        (snap = r.ses.snap ∨ snap = r.ses.live) := by
  refine onWrite_elim (P := fun t => ∃ (b : BankState) (snap : ClockRegs) (mark : Bool),
    t.ses = { r.ses with bank := b, snap := snap, refused := mark } ∧ (snap = r.ses.snap ∨ snap = r.ses.live))
    ⟨_, _, _, rfl, .inl rfl⟩ (fun _ _ => ⟨_, _, _, rfl, .inl rfl⟩) ?_ (fun m b => ?_) ?_
  · unfold ctlLatchC
    by_cases h : latchCaptures r.ses.bank.latchArmed v = true
    · simp only [if_pos h]; exact ⟨_, _, _, rfl, .inr rfl⟩
    · simp only [if_neg h]; exact ⟨_, _, _, rfl, .inl rfl⟩
  · refine ⟨{ r.ses.bank with motor := flagOf m, ramBank := b.setWidth 4 }, r.ses.snap, r.ses.refused, ?_, .inl rfl⟩
    exact Loaded.switchTo_ses _ _
  · unfold ctlEf
    split
    · exact ⟨_, _, _, rfl, .inl rfl⟩
    · exact ⟨_, _, _, Loaded.switchTo_ses _ _, .inl rfl⟩

/-- A control write moves nothing of the environment but the events. -/
theorem onWrite_env (a : Addr) (v : Byte) (r : Loaded) :
    (onWrite a v r).env = { r.env with events := (onWrite a v r).env.events } := by
  refine onWrite_elim (P := fun t => t.env = { r.env with events := t.env.events }) rfl (fun _ _ => rfl) rfl
    (fun m b => ?_) ?_
  · exact Loaded.switchTo_env _ _
  · unfold ctlEf
    split
    · rfl
    · exact Loaded.switchTo_env _ _

theorem onWrite_ok {r : Loaded} (h : r.ses.ok) (a : Addr) (v : Byte) : (onWrite a v r).ses.ok := by
  obtain ⟨b, snap, mark, e, hs⟩ := onWrite_ses a v r
  rw [e]
  obtain ⟨h1, h2, h3, h4, h5⟩ := h
  exact ⟨h1, h2, h3, by rcases hs with rfl | rfl <;> assumption, h5⟩

/-! ### The indices are inside the arrays (43_mapper.md R301) -/

theorem vramIndex_lt (x : Session) (off : BitVec 13) : vramIndex x off < vramBanks * vramBankSize := by
  have h1 := x.vramBank.isLt; have h2 := off.isLt
  simp only [vramIndex, vramBanks_eq, vramBankSize_eq]; omega

theorem wramxIndex_lt (x : Session) (off : BitVec 12) : wramxIndex x off < wramBanks * wramBankSize := by
  have h1 := x.wramBank.isLt; have h2 := off.isLt
  simp only [wramxIndex, wramBanks_eq, wramBankSize_eq]; omega

theorem wram0_lt (off : BitVec 12) : off.toNat < wramBanks * wramBankSize := by
  have h2 := off.isLt
  simp only [wramBanks_eq, wramBankSize_eq]; omega

theorem sramIndex_lt (x : Session) (off : BitVec 13) (h : 0 < x.desc.ramBanks) :
    sramIndex x off < x.desc.ramBanks * ramBankSize := by
  have h1 := Nat.mod_lt x.bank.ramBank.toNat h; have h2 := off.isLt
  simp only [sramIndex, resolvePersistentBank, ramBankSize_eq]
  have : (x.bank.ramBank.toNat % x.desc.ramBanks + 1) * 8192 ≤ x.desc.ramBanks * 8192 := Nat.mul_le_mul_right _ h1
  omega

theorem romxIndex_lt (x : Session) (off : BitVec 14) (h : 0 < x.desc.romBanks) :
    romxIndex x off < x.desc.romBanks * romBankSize := by
  have h1 := Nat.mod_lt x.bank.romBank.toNat h; have h2 := off.isLt
  simp only [romxIndex, resolveReadOnlyBank, romBankSize_eq]
  have : (x.bank.romBank.toNat % x.desc.romBanks + 1) * 16384 ≤ x.desc.romBanks * 16384 := Nat.mul_le_mul_right _ h1
  omega

/-! ### Stores keep the invariant -/

theorem storeVram_ok {x : Session} (h : x.ok) {i : Nat} (hi : i < vramBanks * vramBankSize) (v : Byte) :
    (x.storeVram i v).ok := by
  obtain ⟨h1, h2, h3, h4, h5, h6, h7, h8, h9⟩ := h
  exact ⟨h1, h2, h3, h4, h5, h6, h7, Mem.wf_write h8 hi v, h9⟩

theorem storeWram_ok {x : Session} (h : x.ok) {i : Nat} (hi : i < wramBanks * wramBankSize) (v : Byte) :
    (x.storeWram i v).ok := by
  obtain ⟨h1, h2, h3, h4, h5, h6, h7, h8, h9⟩ := h
  exact ⟨h1, h2, h3, h4, h5, h6, h7, h8, Mem.wf_write h9 hi v⟩

theorem storeSram_ok {x : Session} (h : x.ok) {i : Nat} (hi : i < x.desc.ramBanks * ramBankSize) (v : Byte) :
    (x.storeSram i v).ok := by
  obtain ⟨h1, h2, h3, h4, h5, h6, h7, h8, h9⟩ := h
  exact ⟨h1, h2, h3, h4, h5, h6, Mem.wf_write h7 hi v, h8, h9⟩

theorem wramBankOf_ne_zero (v : BitVec 3) : wramBankOf v ≠ 0#3 := by
  unfold wramBankOf; split
  · decide
  · assumption

/-- A clock register write changes the live registers and their timestamp only. -/
theorem writeRegister_ses (sel : ClockReg) (v : Byte) (r : Loaded) :
    ∃ (live : ClockRegs) (last : Nat), (writeRegister sel v r).ses = { r.ses with live := live, lastSync := last } := by
  unfold writeRegister rtcSync
  by_cases h : r.ses.live.halt = true
  · rw [syncSession_of_halt h]; exact ⟨_, _, rfl⟩
  · rw [syncSession_of_running (by simpa using h)]; exact ⟨_, _, rfl⟩

theorem writeRegister_env (sel : ClockReg) (v : Byte) (r : Loaded) : (writeRegister sel v r).env = r.env := rfl

theorem writeRegister_ok {r : Loaded} (h : r.ses.ok) (sel : ClockReg) (v : Byte) : (writeRegister sel v r).ses.ok :=
  writeClock_ok (syncSession_ok h _) _ sel v

/-! ### What `Write` does -/

/-- `Write` is a control write, a store in one of the three arrays, a clock register write, a bank select, a staging
register write, a forwarded write, what `REG_DMA_CTRL` does, or nothing. -/
theorem writeWith_elim {P : Loaded → Prop} {trig : Byte → Loaded → Loaded} {a : Addr} {v : Byte} {r : Loaded}
    (same : P r) (control : a < 0x8000#16 → P (onWrite a v r))
    (vram : ∀ off, P (writeVram off v r))
    (wram : ∀ i, i < wramBanks * wramBankSize → P (r.withSes (r.ses.storeWram i v)))
    (sram : ∀ off, 0 < r.ses.desc.ramBanks → P (writeSramBank off v r))
    (clock : P (writeSramRtc v r))
    (vbk : P (writeVbk v r)) (svbk : P (writeSvbk v r))
    (dma : ∀ d : Dma, d.src = r.ses.dma.src → d.dst = r.ses.dma.dst → d.remaining = r.ses.dma.remaining →
      d.phase = r.ses.dma.phase → P (r.withDma d))
    (ext : P (extWrite a v r)) (trigger : a = regDmaCtrl → P (trig v r)) : P (writeWith trig a v r) := by
  have hs : ∀ off, P (writeSram off v r) := by
    intro off
    unfold writeSram
    by_cases c1 : r.ses.bank.ramEnable = false
    · rw [if_pos c1]; exact same
    rw [if_neg c1]
    by_cases c2 : r.ses.isRtcSel = true
    · rw [if_pos c2]; exact clock
    rw [if_neg c2]
    by_cases c3 : r.ses.desc.ramBanks = 0
    · rw [if_pos c3]; exact same
    · rw [if_neg c3]; exact sram off (Nat.pos_of_ne_zero c3)
  have he : P (writeEcho a v r) := by
    unfold writeEcho
    split
    · exact wram _ (wramxIndex_lt _ _)
    · exact wram _ (wram0_lt _)
  unfold writeWith
  simp only [Config.block_lows]
  refine ite_elim (P := P) (fun _ => vbk) fun _ => ?_
  refine ite_elim (P := P) (fun _ => svbk) fun _ => ?_
  refine ite_elim (P := P) (fun _ => dma _ rfl rfl rfl rfl) fun _ => ?_
  refine ite_elim (P := P) (fun _ => dma _ rfl rfl rfl rfl) fun _ => ?_
  refine ite_elim (P := P) (fun _ => dma _ rfl rfl rfl rfl) fun _ => ?_
  refine ite_elim (P := P) (fun _ => dma _ rfl rfl rfl rfl) fun _ => ?_
  refine ite_elim (P := P) (fun h => trigger h) fun _ => ?_
  refine ite_elim (P := P) (fun _ => ext) fun _ => ?_
  refine ite_elim (P := P) (fun _ => he) fun _ => ?_
  refine ite_elim (P := P) (fun _ => wram _ (wramxIndex_lt _ _)) fun _ => ?_
  refine ite_elim (P := P) (fun _ => wram _ (wram0_lt _)) fun _ => ?_
  refine ite_elim (P := P) (fun _ => hs _) fun _ => ?_
  exact ite_elim (P := P) (fun _ => vram _) fun h => control (by bv_omega)

/-- `Write` keeps the session's invariant if what it does at `REG_DMA_CTRL` does. -/
theorem writeWith_ok {trig : Byte → Loaded → Loaded} {a : Addr} {v : Byte} {r : Loaded} (h : r.ses.ok)
    (ht : a = regDmaCtrl → (trig v r).ses.ok) : (writeWith trig a v r).ses.ok := by
  refine writeWith_elim (P := fun t => t.ses.ok) h (fun _ => onWrite_ok h a v)
    (fun off => storeVram_ok h (vramIndex_lt _ _) v) (fun i hi => storeWram_ok h hi v)
    (fun off hr => storeSram_ok h (sramIndex_lt _ _ hr) v) (writeRegister_ok h _ v) h
    ⟨h.1, wramBankOf_ne_zero _, h.2.2⟩ (fun d h1 h2 h3 h4 => ?_) h ht
  obtain ⟨g1, g2, g3, g4, g5, g6⟩ := h
  refine ⟨g1, g2, g3, g4, ?_, g6⟩
  show d.remaining.toNat % 16 = 0 ∧ (d.phase = .idle ↔ d.remaining = 0#12) ∧ d.remaining.toNat ≤ 2048
  rw [h3, h4]; exact g5

/-- Two loaded machines with one descriptor and read-only memory, whose environments differ in the events at most. -/
def SameCartridge (r t : Loaded) : Prop :=
  t.ses.desc = r.ses.desc ∧ t.ses.rom = r.ses.rom ∧ t.env = { r.env with events := t.env.events }

/-- A write changes neither the descriptor nor the read-only memory, and of the environment the events alone, if what it
does at `REG_DMA_CTRL` changes no more. -/
theorem writeWith_cartridge {trig : Byte → Loaded → Loaded} {a : Addr} {v : Byte} {r : Loaded}
    (ht : a = regDmaCtrl → SameCartridge r (trig v r)) : SameCartridge r (writeWith trig a v r) := by
  refine writeWith_elim (P := SameCartridge r) ⟨rfl, rfl, rfl⟩ (fun _ => ?_)
    (fun off => ⟨rfl, rfl, rfl⟩) (fun i hi => ⟨rfl, rfl, rfl⟩)
    (fun off hr => ⟨rfl, rfl, rfl⟩) ?_ ⟨rfl, rfl, rfl⟩
    ⟨rfl, rfl, rfl⟩ (fun d _ _ _ _ => ⟨rfl, rfl, rfl⟩) ⟨rfl, rfl, rfl⟩ ht
  · obtain ⟨b, snap, mark, e, -⟩ := onWrite_ses a v r
    exact ⟨by rw [e], by rw [e], onWrite_env a v r⟩
  · refine ⟨?_, ?_, rfl⟩ <;>
      simp only [writeSramRtc, writeRegister, rtcSync, Loaded.withSes_ses, Loaded.withSes_env, writeClock] <;>
      rw [syncSession_frame]

/-! ### Writes of the engine -/

/-- Two loaded machines that differ at most in video memory, storage, and the live clock registers with their timestamp. -/
def SameButUnitWrites (r t : Loaded) : Prop :=
  t.ses =
    { r.ses with vram := t.ses.vram, sram := t.ses.sram, live := t.ses.live, lastSync := t.ses.lastSync } ∧
    t.env = r.env

theorem SameButUnitWrites.refl (r : Loaded) : SameButUnitWrites r r := ⟨rfl, rfl⟩

/-- A write to the video-memory window is a store there, whatever `REG_DMA_CTRL` does. -/
theorem writeWith_vram {a : Addr} (h1 : 0x8000#16 ≤ a) (h2 : a < 0xA000#16)
    (trig : Byte → Loaded → Loaded) (v : Byte) (r : Loaded) :
    writeWith trig a v r = writeVram (a.extractLsb' 0 13) v r := by
  have hb : ∀ b : Addr, 0xA000#16 ≤ b → a ≠ b := by rintro b hb rfl; bv_omega
  unfold writeWith
  simp only [Config.block_lows]
  rw [if_neg (hb _ (by decide)), if_neg (hb _ (by decide)), if_neg (hb _ (by decide)), if_neg (hb _ (by decide)),
    if_neg (hb _ (by decide)), if_neg (hb _ (by decide)), if_neg (hb _ (by decide)), if_neg (by bv_omega),
    if_neg (by bv_omega), if_neg (by bv_omega), if_neg (by bv_omega), if_neg (by bv_omega), if_pos h1]

/-- A write to the storage window is the storage window's write, whatever `REG_DMA_CTRL` does. -/
theorem writeWith_sram {a : Addr} (h1 : 0xA000#16 ≤ a) (h2 : a < 0xC000#16)
    (trig : Byte → Loaded → Loaded) (v : Byte) (r : Loaded) :
    writeWith trig a v r = writeSram (a.extractLsb' 0 13) v r := by
  have hb : ∀ b : Addr, 0xC000#16 ≤ b → a ≠ b := by rintro b hb rfl; bv_omega
  unfold writeWith
  simp only [Config.block_lows]
  rw [if_neg (hb _ (by decide)), if_neg (hb _ (by decide)), if_neg (hb _ (by decide)), if_neg (hb _ (by decide)),
    if_neg (hb _ (by decide)), if_neg (hb _ (by decide)), if_neg (hb _ (by decide)), if_neg (by bv_omega),
    if_neg (by bv_omega), if_neg (by bv_omega), if_neg (by bv_omega), if_pos h1]

/-- A write to the video-memory or the storage window does not depend on what `REG_DMA_CTRL` does. -/
theorem writeWith_of_window {a : Addr} (h1 : 0x8000#16 ≤ a) (h2 : a < 0xC000#16)
    (trig trig' : Byte → Loaded → Loaded) (v : Byte) (r : Loaded) : writeWith trig a v r = writeWith trig' a v r := by
  by_cases h : a < 0xA000#16
  · rw [writeWith_vram h1 h, writeWith_vram h1 h]
  · have h3 : 0xA000#16 ≤ a := by bv_omega
    rw [writeWith_sram h3 h2, writeWith_sram h3 h2]

theorem writeSram_frame (off : BitVec 13) (v : Byte) (r : Loaded) : SameButUnitWrites r (writeSram off v r) := by
  unfold writeSram
  by_cases c1 : r.ses.bank.ramEnable = false
  · rw [if_pos c1]; exact .refl r
  rw [if_neg c1]
  by_cases c2 : r.ses.isRtcSel = true
  · rw [if_pos c2]
    obtain ⟨live, last, h⟩ := writeRegister_ses (ClockReg.ofSel r.ses.bank.ramBank) v r
    exact ⟨by rw [writeSramRtc, h], writeRegister_env _ _ _⟩
  rw [if_neg c2]
  by_cases c3 : r.ses.desc.ramBanks = 0
  · rw [if_pos c3]; exact .refl r
  · rw [if_neg c3]; exact ⟨rfl, rfl⟩

/-- A write to the video-memory or the storage window changes video memory, storage and the live clock at most. -/
theorem writeWith_window_frame {a : Addr} (h1 : 0x8000#16 ≤ a) (h2 : a < 0xC000#16)
    (trig : Byte → Loaded → Loaded) (v : Byte) (r : Loaded) : SameButUnitWrites r (writeWith trig a v r) := by
  by_cases h : a < 0xA000#16
  · rw [writeWith_vram h1 h]; exact ⟨rfl, rfl⟩
  · rw [writeWith_sram (by bv_omega) h2]; exact writeSram_frame _ v r

end Sys2Proof.Machine
end

