-- ==== Sys2Proof/Laws/Words.lean ====
section
/-! SUPPORT. The fields of an operation word built from its fields. -/

namespace Sys2Proof

@[simp] theorem fieldOp_opWord (op : BitVec 3) (a : Addr) (v : Byte) : fieldOp (opWord op a v) = op :=
  (BitVec.extractLsb'_append_eq_of_le (xhi := op ++ a) (xlo := v) (start := 24) (len := 3) (by decide)).trans
    BitVec.extractLsb'_append_eq_left

@[simp] theorem fieldAddr_opWord (op : BitVec 3) (a : Addr) (v : Byte) : fieldAddr (opWord op a v) = a :=
  (BitVec.extractLsb'_append_eq_of_le (xhi := op ++ a) (xlo := v) (start := 8) (len := 16) (by decide)).trans
    BitVec.extractLsb'_append_eq_right

@[simp] theorem fieldData_opWord (op : BitVec 3) (a : Addr) (v : Byte) : fieldData (opWord op a v) = v :=
  BitVec.extractLsb'_append_eq_right (a := op ++ a) (b := v)

@[simp] theorem fieldOp_rdWord (a : Addr) : fieldOp (rdWord a) = 0#3 := by simp [rdWord]
@[simp] theorem fieldAddr_rdWord (a : Addr) : fieldAddr (rdWord a) = a := by simp [rdWord]
@[simp] theorem fieldOp_wrWord (a : Addr) (v : Byte) : fieldOp (wrWord a v) = 1#3 := by simp [wrWord]
@[simp] theorem fieldAddr_wrWord (a : Addr) (v : Byte) : fieldAddr (wrWord a v) = a := by simp [wrWord]
@[simp] theorem fieldData_wrWord (a : Addr) (v : Byte) : fieldData (wrWord a v) = v := by simp [wrWord]

/-- The decoder on a read's word is the read decode of its address. -/
@[simp] theorem decode_rdWord (c : DecodeCtx) (a : Addr) : decode c (rdWord a) = decodeRead c a := by simp [decode]

/-- The decoder on a write's word is the write decode of its address and data. -/
@[simp] theorem decode_wrWord (c : DecodeCtx) (a : Addr) (v : Byte) : decode c (wrWord a v) = decodeWrite c a v := by
  simp [decode]

end Sys2Proof
end

