-- ==== Sys2Proof/Laws/Bus.lean ====
section
/-! SUPPORT. The rows of the bus: the row a read or write decodes to applies, and running it is `Read` or `Write` at the
address (43_mapper.md R270, R271). -/

namespace Sys2Proof

/-! ## The decoded row applies -/

theorem applies_decodeSramRead (c : DecodeCtx) (off : BitVec 13) : applies c (decodeSramRead c off) = true := by
  unfold decodeSramRead applies
  cases h1 : c.ramEnable <;> cases h2 : c.isRtcSel <;> by_cases h3 : c.ramBanks = 0 <;>
    simp [h1, h2, h3, Instr.wellFormed, Instr.cond]
  omega

theorem applies_decodeSramWrite (c : DecodeCtx) (off : BitVec 13) (v : Byte) :
    applies c (decodeSramWrite c off v) = true := by
  unfold decodeSramWrite applies
  cases h1 : c.ramEnable <;> cases h2 : c.isRtcSel <;> by_cases h3 : c.ramBanks = 0 <;>
    simp [h1, h2, h3, Instr.wellFormed, Instr.cond]
  omega

/-- An address of the device window that is none of the block's own registers is forwarded. -/
theorem isExternal_of {a : Addr} (h : 0xFE00#16 ≤ a) (h1 : a ≠ regVbk) (h2 : a ≠ regDmaSrcHi) (h3 : a ≠ regDmaSrcLo)
    (h4 : a ≠ regDmaDstHi) (h5 : a ≠ regDmaDstLo) (h6 : a ≠ regDmaCtrl) (h7 : a ≠ regSvbk) : isExternal a = true := by
  unfold isExternal isBlockRegister
  simp only [Bool.and_eq_true, decide_eq_true_eq, Bool.not_eq_true', Bool.or_eq_false_iff, beq_eq_false_iff_ne]
  exact ⟨h, ⟨⟨⟨⟨⟨⟨h1, h2⟩, h3⟩, h4⟩, h5⟩, h6⟩, h7⟩⟩

theorem isEcho_of {a : Addr} (h : 0xE000#16 ≤ a) (h1 : ¬ 0xFE00#16 ≤ a) : isEcho a = true := by
  unfold isEcho
  simp only [Bool.and_eq_true, decide_eq_true_eq]
  exact ⟨h, show a < 0xFE00#16 by bv_omega⟩

theorem applies_decodeRead (c : DecodeCtx) (a : Addr) : applies c (decodeRead c a) = true := by
  unfold decodeRead
  simp only [Config.block_lows]
  refine Machine.ite_elim (P := fun i => applies c i = true) (fun _ => rfl) fun n1 => ?_
  refine Machine.ite_elim (P := fun i => applies c i = true) (fun _ => rfl) fun n2 => ?_
  refine Machine.ite_elim (P := fun i => applies c i = true) (fun _ => rfl) fun n3 => ?_
  refine Machine.ite_elim (P := fun i => applies c i = true) (fun _ => rfl) fun n4 => ?_
  refine Machine.ite_elim (P := fun i => applies c i = true) (fun _ => rfl) fun n5 => ?_
  refine Machine.ite_elim (P := fun i => applies c i = true) (fun _ => rfl) fun n6 => ?_
  refine Machine.ite_elim (P := fun i => applies c i = true) (fun _ => rfl) fun n7 => ?_
  refine Machine.ite_elim (P := fun i => applies c i = true) (fun h => ?_) fun n8 => ?_
  · simp [applies, Instr.wellFormed, Instr.cond, isExternal_of h n1 n2 n3 n4 n5 n6 n7]
  refine Machine.ite_elim (P := fun i => applies c i = true) (fun h => ?_) fun _ => ?_
  · simp [applies, Instr.wellFormed, Instr.cond, isEcho_of h n8]
  refine Machine.ite_elim (P := fun i => applies c i = true) (fun _ => rfl) fun _ => ?_
  refine Machine.ite_elim (P := fun i => applies c i = true) (fun _ => rfl) fun _ => ?_
  refine Machine.ite_elim (P := fun i => applies c i = true) (fun _ => applies_decodeSramRead _ _) fun _ => ?_
  refine Machine.ite_elim (P := fun i => applies c i = true) (fun _ => rfl) fun _ => ?_
  exact Machine.ite_elim (P := fun i => applies c i = true) (fun _ => rfl) fun _ => rfl

theorem toNat_controlRange (a : Addr) : (controlRange a).toNat = a.toNat / 8192 % 4 := by
  unfold controlRange; rw [BitVec.extractLsb'_toNat, Nat.shiftRight_eq_div_pow]

/-- A control address in none of the first two ranges is at 0x4000 or above, in none of the first three at 0x6000 or above
(30_encoding.md R116). -/
theorem le_of_controlRange {a : Addr} (h0 : controlRange a ≠ 0#2) (h1 : controlRange a ≠ 1#2) :
    0x4000#16 ≤ a ∧ (controlRange a ≠ 2#2 → 0x6000#16 ≤ a) := by
  have h := toNat_controlRange a
  have e0 : (controlRange a).toNat ≠ 0 := fun e => h0 (BitVec.eq_of_toNat_eq e)
  have e1 : (controlRange a).toNat ≠ 1 := fun e => h1 (BitVec.eq_of_toNat_eq e)
  refine ⟨show 0x4000 ≤ a.toNat by omega, fun h2 => show 0x6000 ≤ a.toNat from ?_⟩
  have e2 : (controlRange a).toNat ≠ 2 := fun e => h2 (BitVec.eq_of_toNat_eq e)
  omega

theorem applies_decodeControl (c : DecodeCtx) (a : Addr) (v : Byte) (h : a < 0x8000#16) :
    applies c (decodeControl c a v) = true := by
  unfold decodeControl
  cases hf : c.family
  case NONE => exact Bool.and_eq_true_iff.2 ⟨decide_eq_true h, by simp [Instr.cond, hf]⟩
  case E => exact Bool.and_eq_true_iff.2 ⟨decide_eq_true h, by simp [Instr.cond, hf]⟩
  case F => exact Bool.and_eq_true_iff.2 ⟨decide_eq_true h, by simp [Instr.cond, hf]⟩
  case A =>
    simp only [decodeControlA]
    split; · simp [applies, Instr.wellFormed, Instr.cond, hf]
    split; · simp [applies, Instr.wellFormed, Instr.cond, hf]
    split
    · cases hm : c.mode <;> simp [applies, Instr.wellFormed, Instr.cond, hf, hm]
    · simp [applies, Instr.wellFormed, Instr.cond, hf]
  case B =>
    simp only [decodeControlB]
    split; · simp [applies, Instr.wellFormed, Instr.cond, hf]
    next k0 =>
    split; · simp [applies, Instr.wellFormed, Instr.cond, hf]
    next k1 =>
    exact Bool.and_eq_true_iff.2 ⟨Bool.and_eq_true_iff.2
      ⟨decide_eq_true (le_of_controlRange k0 k1).1, decide_eq_true h⟩, by simp [Instr.cond, hf]⟩
  case C =>
    simp only [decodeControlC]
    split; · simp [applies, Instr.wellFormed, Instr.cond, hf]
    split; · simp [applies, Instr.wellFormed, Instr.cond, hf]
    split
    · split <;> simp_all [applies, Instr.wellFormed, Instr.cond]
    · simp [applies, Instr.wellFormed, Instr.cond, hf]
  case D =>
    simp only [decodeControlD]
    split; · simp [applies, Instr.wellFormed, Instr.cond, hf]
    next k0 =>
    split; · split <;> simp [applies, Instr.wellFormed, Instr.cond, hf]
    next k1 =>
    split
    · cases hm : c.hasRumble <;> simp [applies, Instr.wellFormed, Instr.cond, hf, hm]
    · next k2 =>
      exact Bool.and_eq_true_iff.2 ⟨Bool.and_eq_true_iff.2
        ⟨decide_eq_true ((le_of_controlRange k0 k1).2 k2), decide_eq_true h⟩, by simp [Instr.cond, hf]⟩

theorem applies_decodeWrite (c : DecodeCtx) (a : Addr) (v : Byte) : applies c (decodeWrite c a v) = true := by
  unfold decodeWrite
  simp only [Config.block_lows]
  refine Machine.ite_elim (P := fun i => applies c i = true) (fun _ => rfl) fun n1 => ?_
  refine Machine.ite_elim (P := fun i => applies c i = true) (fun _ => rfl) fun n2 => ?_
  refine Machine.ite_elim (P := fun i => applies c i = true) (fun _ => rfl) fun n3 => ?_
  refine Machine.ite_elim (P := fun i => applies c i = true) (fun _ => rfl) fun n4 => ?_
  refine Machine.ite_elim (P := fun i => applies c i = true) (fun _ => rfl) fun n5 => ?_
  refine Machine.ite_elim (P := fun i => applies c i = true) (fun _ => rfl) fun n6 => ?_
  refine Machine.ite_elim (P := fun i => applies c i = true) (fun _ => rfl) fun n7 => ?_
  refine Machine.ite_elim (P := fun i => applies c i = true) (fun h => ?_) fun n8 => ?_
  · simp [applies, Instr.wellFormed, Instr.cond, isExternal_of h n1 n2 n3 n4 n5 n6 n7]
  refine Machine.ite_elim (P := fun i => applies c i = true) (fun h => ?_) fun _ => ?_
  · simp [applies, Instr.wellFormed, Instr.cond, isEcho_of h n8]
  refine Machine.ite_elim (P := fun i => applies c i = true) (fun _ => rfl) fun _ => ?_
  refine Machine.ite_elim (P := fun i => applies c i = true) (fun _ => rfl) fun _ => ?_
  refine Machine.ite_elim (P := fun i => applies c i = true) (fun _ => applies_decodeSramWrite _ _ _) fun _ => ?_
  refine Machine.ite_elim (P := fun i => applies c i = true) (fun _ => rfl) fun n12 => ?_
  exact applies_decodeControl c a v (by bv_omega)

end Sys2Proof

namespace Sys2Proof.Machine

/-! ## The storage window's rows are the storage window -/

theorem exec_decodeSramRead (x : Session) (e : Env) (off : BitVec 13) :
    exec (decodeSramRead x.ctx off) ⟨some x, e⟩ =
      .next ((readSram off ⟨x, e⟩).1.answer (.data (readSram off ⟨x, e⟩).2)).toState := by
  have happ := applies_decodeSramRead x.ctx off
  unfold readSram
  by_cases e1 : x.bank.ramEnable = false
  · have q : decodeSramRead x.ctx off = .rdSramOff off := if_pos e1
    rw [q] at happ ⊢
    simp only [if_pos e1, exec, execRdSramOff, readRow_next happ]
  by_cases e2 : x.isRtcSel = true
  · have q : decodeSramRead x.ctx off = .rdSramRtc off := (if_neg e1).trans (if_pos e2)
    rw [q] at happ ⊢
    simp only [if_neg e1, if_pos e2, exec, execRdSramRtc, readRow_next happ]
  by_cases e3 : x.desc.ramBanks = 0
  · have q : decodeSramRead x.ctx off = .rdSramNone off := (if_neg e1).trans ((if_neg e2).trans (if_pos e3))
    rw [q] at happ ⊢
    simp only [if_neg e1, if_neg e2, if_pos e3, exec, execRdSramNone, readRow_next happ]
  · have q : decodeSramRead x.ctx off = .rdSramBank off := (if_neg e1).trans ((if_neg e2).trans (if_neg e3))
    rw [q] at happ ⊢
    simp only [if_neg e1, if_neg e2, if_neg e3, exec, execRdSramBank, readRow_next happ]

theorem exec_decodeSramWrite (x : Session) (e : Env) (off : BitVec 13) (v : Byte) :
    exec (decodeSramWrite x.ctx off v) ⟨some x, e⟩ = .next ((writeSram off v ⟨x, e⟩).answer .none).toState := by
  have happ := applies_decodeSramWrite x.ctx off v
  unfold writeSram
  by_cases e1 : x.bank.ramEnable = false
  · have q : decodeSramWrite x.ctx off v = .wrSramOff off v := if_pos e1
    rw [q] at happ ⊢
    simp only [if_pos e1, exec, execWrSramOff, writeRow_next happ]
  by_cases e2 : x.isRtcSel = true
  · have q : decodeSramWrite x.ctx off v = .wrSramRtc off v := (if_neg e1).trans (if_pos e2)
    rw [q] at happ ⊢
    simp only [if_neg e1, if_pos e2, exec, execWrSramRtc, writeRow_next happ]
  by_cases e3 : x.desc.ramBanks = 0
  · have q : decodeSramWrite x.ctx off v = .wrSramNone off v := (if_neg e1).trans ((if_neg e2).trans (if_pos e3))
    rw [q] at happ ⊢
    simp only [if_neg e1, if_neg e2, if_pos e3, exec, execWrSramNone, writeRow_next happ]
  · have q : decodeSramWrite x.ctx off v = .wrSramBank off v := (if_neg e1).trans ((if_neg e2).trans (if_neg e3))
    rw [q] at happ ⊢
    simp only [if_neg e1, if_neg e2, if_neg e3, exec, execWrSramBank, writeRow_next happ]

/-! ## The control rows are `onWrite` -/

theorem exec_decodeControl (x : Session) (e : Env) (a : Addr) (v : Byte)
    (happ : applies x.ctx (decodeControl x.ctx a v) = true) :
    exec (decodeControl x.ctx a v) ⟨some x, e⟩ = .next ((onWrite a v ⟨x, e⟩).answer .none).toState := by
  revert happ
  unfold decodeControl onWrite
  simp only [Session.ctx_family]
  cases hf : x.desc.family
  case NONE => intro h; simp only [exec, execCtlNone]; rw [writeRow_next h]
  case E => intro h; simp only [exec, execCtlEf]; rw [writeRow_next h]
  case F => intro h; simp only [exec, execCtlEf]; rw [writeRow_next h]
  case A =>
    simp only [decodeControlA, onWriteA]
    by_cases k0 : controlRange a = 0#2
    · simp only [if_pos k0]; intro h; simp only [exec, execRamen]; rw [writeRow_next h]
    simp only [if_neg k0]
    by_cases k1 : controlRange a = 1#2
    · simp only [if_pos k1]; intro h; simp only [exec, execRomloA]; rw [writeRow_next h]
    simp only [if_neg k1]
    by_cases k2 : controlRange a = 2#2
    · simp only [if_pos k2]
      by_cases m : x.bank.mode = false
      · have m' : x.ctx.mode = false := m
        simp only [if_pos m, if_pos m']; intro h; simp only [exec, execUpperARom]; rw [writeRow_next h]
      · have m' : ¬ x.ctx.mode = false := m
        simp only [if_neg m, if_neg m']; intro h; simp only [exec, execUpperARam]; rw [writeRow_next h]
    simp only [if_neg k2]; intro h; simp only [exec, execModeA]; rw [writeRow_next h]
  case B =>
    simp only [decodeControlB, onWriteB]
    by_cases k0 : controlRange a = 0#2
    · simp only [if_pos k0]; intro h; simp only [exec, execRamen]; rw [writeRow_next h]
    simp only [if_neg k0]
    by_cases k1 : controlRange a = 1#2
    · simp only [if_pos k1]; intro h; simp only [exec, execRombB]; rw [writeRow_next h]
    simp only [if_neg k1]; intro h; simp only [exec, execIgnB]; rw [writeRow_next h]
  case C =>
    simp only [decodeControlC, onWriteC]
    by_cases k0 : controlRange a = 0#2
    · simp only [if_pos k0]; intro h; simp only [exec, execRamen]; rw [writeRow_next h]
    simp only [if_neg k0]
    by_cases k1 : controlRange a = 1#2
    · simp only [if_pos k1]; intro h; simp only [exec, execRombC]; rw [writeRow_next h]
    simp only [if_neg k1]
    by_cases k2 : controlRange a = 2#2
    · simp only [if_pos k2]
      by_cases m : acceptedSelector (v.extractLsb' 0 4) = true
      · simp only [if_pos m]; intro h; simp only [exec, execRamselC]; rw [writeRow_next h]
      · simp only [if_neg m]; intro h; simp only [exec, execRamselCRsvd]; rw [writeRow_next h]
    simp only [if_neg k2]; intro h; simp only [exec, execLatchC]; rw [writeRow_next h]
  case D =>
    simp only [decodeControlD, onWriteD]
    by_cases k0 : controlRange a = 0#2
    · simp only [if_pos k0]; intro h; simp only [exec, execRamen]; rw [writeRow_next h]
    simp only [if_neg k0]
    by_cases k1 : controlRange a = 1#2
    · simp only [if_pos k1]
      by_cases m : a.extractLsb' 12 1 = 0#1
      · simp only [if_pos m]; intro h; simp only [exec, execRomloD]; rw [writeRow_next h]
      · simp only [if_neg m]; intro h; simp only [exec, execRomhiD]; rw [writeRow_next h]
    simp only [if_neg k1]
    by_cases k2 : controlRange a = 2#2
    · simp only [if_pos k2]
      by_cases m : x.desc.hasRumble = false
      · have m' : x.ctx.hasRumble = false := m
        simp only [if_pos m, if_pos m']; intro h; simp only [exec, execRambD]; rw [writeRow_next h]
      · have m' : ¬ x.ctx.hasRumble = false := m
        simp only [if_neg m, if_neg m']; intro h; simp only [exec, execRambDRumble]; rw [writeRow_next h]
    simp only [if_neg k2]; intro h; simp only [exec, execIgnD]; rw [writeRow_next h]

/-! ## The rows of the bus are `Read` and `Write` -/

theorem exec_decodeRead (x : Session) (e : Env) (a : Addr) :
    exec (decodeRead x.ctx a) ⟨some x, e⟩ =
      .next ((read a ⟨x, e⟩).1.answer (.data (read a ⟨x, e⟩).2)).toState := by
  have happ := applies_decodeRead x.ctx a
  revert happ
  unfold decodeRead read
  simp only [Config.block_lows]
  by_cases c1 : a = regVbk
  · subst c1; intro _; rfl
  by_cases c2 : a = regSvbk
  · subst c2; intro _; rfl
  by_cases c3 : a = regDmaSrcHi
  · subst c3; intro _; rfl
  by_cases c4 : a = regDmaSrcLo
  · subst c4; intro _; rfl
  by_cases c5 : a = regDmaDstHi
  · subst c5; intro _; rfl
  by_cases c6 : a = regDmaDstLo
  · subst c6; intro _; rfl
  by_cases c7 : a = regDmaCtrl
  · subst c7; intro _; rfl
  simp only [if_neg c1, if_neg c2, if_neg c3, if_neg c4, if_neg c5, if_neg c6, if_neg c7]
  by_cases d1 : 0xFE00#16 ≤ a
  · simp only [if_pos d1]; intro h; simp only [exec, execRdExt]; rw [readRow_next h]
  simp only [if_neg d1]
  by_cases d2 : 0xE000#16 ≤ a
  · simp only [if_pos d2]; intro h; simp only [exec, execRdEcho]; rw [readRow_next h]
  simp only [if_neg d2]
  by_cases d3 : 0xD000#16 ≤ a
  · simp only [if_pos d3]; intro h; simp only [exec, execRdWramx]; rw [readRow_next h]
  simp only [if_neg d3]
  by_cases d4 : 0xC000#16 ≤ a
  · simp only [if_pos d4]; intro h; simp only [exec, execRdWram0]; rw [readRow_next h]
  simp only [if_neg d4]
  by_cases d5 : 0xA000#16 ≤ a
  · simp only [if_pos d5]; intro _; exact exec_decodeSramRead x e _
  simp only [if_neg d5]
  by_cases d6 : 0x8000#16 ≤ a
  · simp only [if_pos d6]; intro h; simp only [exec, execRdVram]; rw [readRow_next h]
  simp only [if_neg d6]
  by_cases d7 : 0x4000#16 ≤ a
  · simp only [if_pos d7]; intro h; simp only [exec, execRdRomx]; rw [readRow_next h]
  simp only [if_neg d7]; intro h; simp only [exec, execRdRom0]; rw [readRow_next h]

theorem exec_decodeWrite (x : Session) (e : Env) (a : Addr) (v : Byte) :
    exec (decodeWrite x.ctx a v) ⟨some x, e⟩ = .next ((write a v ⟨x, e⟩).answer .none).toState := by
  have happ := applies_decodeWrite x.ctx a v
  revert happ
  unfold decodeWrite write writeWith
  simp only [Config.block_lows]
  by_cases c1 : a = regVbk
  · subst c1; intro _; rfl
  by_cases c2 : a = regSvbk
  · subst c2; intro _; rfl
  by_cases c3 : a = regDmaSrcHi
  · subst c3; intro _; rfl
  by_cases c4 : a = regDmaSrcLo
  · subst c4; intro _; rfl
  by_cases c5 : a = regDmaDstHi
  · subst c5; intro _; rfl
  by_cases c6 : a = regDmaDstLo
  · subst c6; intro _; rfl
  simp only [if_neg c1, if_neg c2, if_neg c3, if_neg c4, if_neg c5, if_neg c6]
  by_cases c7 : a = regDmaCtrl
  · simp only [if_pos c7]; intro h; simp only [exec, execWrDmaCtrl]; rw [writeRow_next h]; rfl
  simp only [if_neg c7]
  by_cases d1 : 0xFE00#16 ≤ a
  · simp only [if_pos d1]; intro h; simp only [exec, execWrExt]; rw [writeRow_next h]
  simp only [if_neg d1]
  by_cases d2 : 0xE000#16 ≤ a
  · simp only [if_pos d2]; intro h; simp only [exec, execWrEcho]; rw [writeRow_next h]
  simp only [if_neg d2]
  by_cases d3 : 0xD000#16 ≤ a
  · simp only [if_pos d3]; intro h; simp only [exec, execWrWramx]; rw [writeRow_next h]
  simp only [if_neg d3]
  by_cases d4 : 0xC000#16 ≤ a
  · simp only [if_pos d4]; intro h; simp only [exec, execWrWram0]; rw [writeRow_next h]
  simp only [if_neg d4]
  by_cases d5 : 0xA000#16 ≤ a
  · simp only [if_pos d5]; intro _; exact exec_decodeSramWrite x e _ _
  simp only [if_neg d5]
  by_cases d6 : 0x8000#16 ≤ a
  · simp only [if_pos d6]; intro h; simp only [exec, execWrVram]; rw [writeRow_next h]
  simp only [if_neg d6]
  intro h; exact exec_decodeControl x e a v h

end Sys2Proof.Machine
end

