-- ==== Sys2Proof/Laws/Dma.lean ====
section
/-! SUPPORT. The DMA Engine: what arming, one unit and a whole transfer can change, that all of them keep the session's
invariant, and that a transfer in reach does not depend on what its own writes would do at `REG_DMA_CTRL`. -/

namespace Sys2Proof.Machine

/-! ## Arming -/

/-- The length a trigger write names, in bytes (44_dma.md R329). -/
theorem dmaLength_eq (n : BitVec 7) : dmaLength n = (n.toNat + 1) * 16 := rfl

/-- A trigger write's length always arms (44_dma.md R326, R329, R330). -/
theorem armFrom_eq (n : BitVec 7) (r : Loaded) :
    armFrom n r =
      r.withDma
        { r.ses.dma with
          src := r.ses.dma.armSrc
          dst := r.ses.dma.armDst
          remaining := BitVec.ofNat 12 ((n.toNat + 1) * 16)
          phase := .armed } := by
  have h : ¬ (dmaLength n = 0 ∨ dmaLength n % dmaUnit ≠ 0) := by rw [dmaLength_eq, dmaUnit_eq]; omega
  unfold armFrom arm
  rw [if_neg h]; rfl

theorem ofNat_units (n : BitVec 7) : (BitVec.ofNat 12 ((n.toNat + 1) * 16)).toNat = (n.toNat + 1) * 16 := by
  have h := n.isLt
  rw [BitVec.toNat_ofNat]; omega

theorem armFrom_remaining (n : BitVec 7) (r : Loaded) : (armFrom n r).ses.dma.remaining.toNat = (n.toNat + 1) * 16 := by
  rw [armFrom_eq]; exact ofNat_units n

theorem armFrom_consistent (n : BitVec 7) (r : Loaded) : (armFrom n r).ses.dma.consistent := by
  have hn := n.isLt
  have hu := armFrom_remaining n r
  refine ⟨by omega, ⟨fun h => ?_, fun h => ?_⟩, by omega⟩
  · rw [armFrom_eq] at h; cases h
  · rw [h] at hu; simp at hu

theorem armFrom_ok {r : Loaded} (h : r.ses.ok) (n : BitVec 7) : (armFrom n r).ses.ok := by
  obtain ⟨h1, h2, h3, h4, -, h6⟩ := h
  have hc := armFrom_consistent n r
  rw [armFrom_eq] at hc ⊢
  exact ⟨h1, h2, h3, h4, hc, h6⟩

/-- The destination at arming, as a number: at most 0x9FF0, a multiple of 16 (44_dma.md R330). -/
theorem armDst_range (d : Dma) : 0x8000 ≤ d.armDst.toNat ∧ d.armDst.toNat ≤ 0x9FF0 := by
  have key : ∀ w : BitVec 16, ((w &&& 0x1FF0#16) ||| 0x8000#16) = (w &&& 0x1FF0#16) + 0x8000#16 := by
    intro w
    refine (BitVec.add_eq_or_of_and_eq_zero _ _ ?_).symm
    rw [BitVec.and_assoc]; simp
  have h : (d.dstHi ++ d.dstLo &&& 0x1FF0#16).toNat ≤ 0x1FF0 := by
    rw [BitVec.toNat_and]; exact Nat.and_le_right
  simp only [Dma.armDst, dmaDstMask, dmaDstBase, Config.block_dmaDstMask, Config.block_dmaDstBase]
  rw [key, BitVec.toNat_add]
  show 0x8000 ≤ ((d.dstHi ++ d.dstLo &&& 0x1FF0#16).toNat + 32768) % 65536 ∧
    ((d.dstHi ++ d.dstLo &&& 0x1FF0#16).toNat + 32768) % 65536 ≤ 0x9FF0
  omega

/-- Right after arming the transfer is in reach (44_dma.md R332). -/
theorem armFrom_inReach (n : BitVec 7) (r : Loaded) : (armFrom n r).ses.dmaInReach := by
  intro _
  rw [armFrom_eq]
  have hd := armDst_range r.ses.dma
  have hu := ofNat_units n
  have hn := n.isLt
  show 0x8000 ≤ r.ses.dma.armDst.toNat ∧
    r.ses.dma.armDst.toNat + (BitVec.ofNat 12 ((n.toNat + 1) * 16)).toNat ≤ 0xA7F0
  omega

/-! ## The bytes of a unit -/

/-- A fold keeps what each of its steps keeps. -/
theorem foldl_keeps {α β : Type} {P : α → Prop} (f : α → β → α) (l : List β) (h : ∀ a, P a → ∀ b ∈ l, P (f a b)) {a : α}
    (ha : P a) : P (l.foldl f a) := by
  induction l generalizing a with
  | nil => exact ha
  | cons b l ih => exact ih (fun c hc d hd => h c hc d (by simp [hd])) (h a ha b (by simp))

theorem moveBytes_ok {wr : Addr → Byte → Loaded → Loaded} (hw : ∀ a v t, t.ses.ok → (wr a v t).ses.ok) {r : Loaded}
    (h : r.ses.ok) : (moveBytes wr r).ses.ok :=
  foldl_keeps (P := fun t : Loaded => t.ses.ok) _ _ (fun _ ht _ _ => hw _ _ _ (read_ok ht _)) h

/-- Two loaded machines that differ at most in video memory, storage, the live clock registers with their timestamp, the
count of external reads and the events: what the bytes of a unit in reach can change. -/
def SameButUnit (r t : Loaded) : Prop :=
  t.ses =
    { r.ses with vram := t.ses.vram, sram := t.ses.sram, live := t.ses.live, lastSync := t.ses.lastSync } ∧
    t.env = { r.env with extCalls := t.env.extCalls, events := t.env.events }

theorem SameButUnit.refl (r : Loaded) : SameButUnit r r := ⟨rfl, rfl⟩

theorem SameButUnit.trans {r t u : Loaded} (h : SameButUnit r t) (k : SameButUnit t u) : SameButUnit r u := by
  refine ⟨?_, ?_⟩
  · rw [k.1, h.1]
  · rw [k.2, h.2]

theorem SameButUnit.dma {r t : Loaded} (h : SameButUnit r t) : t.ses.dma = r.ses.dma := by rw [h.1]

theorem SameButReads.unit {r t : Loaded} (h : SameButReads r t) : SameButUnit r t := by
  refine ⟨?_, h.2⟩
  rw [h.1]

theorem SameButUnitWrites.unit {r t : Loaded} (h : SameButUnitWrites r t) : SameButUnit r t := by
  refine ⟨h.1, ?_⟩
  rw [h.2]

/-- One byte of a unit whose destination lies in the video-memory or the storage window. -/
theorem moveByte_frame {trig : Byte → Loaded → Loaded} {r : Loaded} {i : Nat}
    (h1 : 0x8000#16 ≤ r.ses.dma.dst + BitVec.ofNat 16 i) (h2 : r.ses.dma.dst + BitVec.ofNat 16 i < 0xC000#16) :
    SameButUnit r (moveByte (writeWith trig) r i) := by
  have hr := (read_frame (r.ses.dma.src + BitVec.ofNat 16 i) r).unit
  refine hr.trans (writeWith_window_frame ?_ ?_ _ _ _).unit <;> rw [hr.dma] <;> assumption

/-- The addresses of the sixteen bytes a unit in reach writes. -/
theorem dst_window {d : Addr} (h1 : 0x8000 ≤ d.toNat) (h2 : d.toNat + 16 ≤ 0xC000) {i : Nat} (hi : i < 16) :
    0x8000#16 ≤ d + BitVec.ofNat 16 i ∧ d + BitVec.ofNat 16 i < 0xC000#16 := by
  have ht : (d + BitVec.ofNat 16 i).toNat = d.toNat + i := by
    rw [BitVec.toNat_add, BitVec.toNat_ofNat]; omega
  rw [BitVec.le_def, BitVec.lt_def, ht]
  constructor
  · show 0x8000 ≤ _; omega
  · show _ < 0xC000; omega

/-- Everything the bytes of a unit in reach can change. -/
theorem moveBytes_frame (trig : Byte → Loaded → Loaded) {r : Loaded} (h1 : 0x8000 ≤ r.ses.dma.dst.toNat)
    (h2 : r.ses.dma.dst.toNat + 16 ≤ 0xC000) : SameButUnit r (moveBytes (writeWith trig) r) := by
  refine foldl_keeps (P := SameButUnit r) _ _ (fun t ht i hi => ?_) (.refl r)
  have hw := dst_window (d := t.ses.dma.dst) (by rw [ht.dma]; exact h1) (by rw [ht.dma]; exact h2) (List.mem_range.1 hi)
  exact ht.trans (moveByte_frame hw.1 hw.2)

/-- The bytes of a unit in reach do not depend on what its writes would do at `REG_DMA_CTRL` (44_dma.md R332). -/
theorem moveBytes_trig (trig trig' : Byte → Loaded → Loaded) {r : Loaded} (h1 : 0x8000 ≤ r.ses.dma.dst.toNat)
    (h2 : r.ses.dma.dst.toNat + 16 ≤ 0xC000) : moveBytes (writeWith trig) r = moveBytes (writeWith trig') r := by
  suffices h : ∀ l : List Nat, (∀ i ∈ l, i < 16) → ∀ t, SameButUnit r t →
      l.foldl (moveByte (writeWith trig)) t = l.foldl (moveByte (writeWith trig')) t from
    h (List.range 16) (fun i hi => List.mem_range.1 hi) r (.refl r)
  intro l
  induction l with
  | nil => intro _ _ _; rfl
  | cons i l ih =>
    intro hl t ht
    have hw := dst_window (d := t.ses.dma.dst) (by rw [ht.dma]; exact h1) (by rw [ht.dma]; exact h2) (hl i (by simp))
    have hd : (read (t.ses.dma.src + BitVec.ofNat 16 i) t).1.ses.dma = t.ses.dma := by rw [(read_frame _ t).1]
    have he : moveByte (writeWith trig) t i = moveByte (writeWith trig') t i :=
      writeWith_of_window (by rw [hd]; exact hw.1) (by rw [hd]; exact hw.2) _ _ _ _
    rw [List.foldl_cons, List.foldl_cons, ← he]
    exact ih (fun j hj => hl j (by simp [hj])) _ (ht.trans (moveByte_frame hw.1 hw.2))

/-! ## One unit -/

theorem remainingAfter_consistent {d : Dma} (h : d.remaining.toNat % 16 = 0 ∧ d.remaining.toNat ≤ 2048) (draw : Nat) :
    (remainingAfter draw d.remaining).toNat % 16 = 0 ∧ (remainingAfter draw d.remaining).toNat ≤ 2048 := by
  unfold remainingAfter
  split
  · next hr =>
    have : 16 ≤ d.remaining.toNat := hr
    have : (d.remaining - 16#12).toNat = d.remaining.toNat - 16 := by
      rw [BitVec.toNat_sub_of_le hr]; rfl
    omega
  · have := Nat.mod_lt (Config.underflowUnits draw).toNat (show 129 > 0 by decide)
    have : (BitVec.ofNat 12 (16 * ((Config.underflowUnits draw).toNat % 129))).toNat =
        16 * ((Config.underflowUnits draw).toNat % 129) := by
      rw [BitVec.toNat_ofNat]; omega
    omega

theorem finishUnit_ok {r : Loaded} (h : r.ses.ok) : (finishUnit r).ses.ok := by
  obtain ⟨h1, h2, h3, h4, ⟨h5, -, h6⟩, h7⟩ := h
  have hc := remainingAfter_consistent (d := r.ses.dma) ⟨h5, h6⟩ r.env.draws
  refine ⟨h1, h2, h3, h4, ⟨hc.1, ?_, hc.2⟩, h7⟩
  show (if remainingAfter r.env.draws r.ses.dma.remaining = 0#12 then Phase.idle else .transferring) = .idle ↔
    remainingAfter r.env.draws r.ses.dma.remaining = 0#12
  split <;> simp_all

theorem advanceOneUnit_idle {wr : Addr → Byte → Loaded → Loaded} {r : Loaded} (h : r.ses.dma.phase = .idle) :
    advanceOneUnit wr r = r := by
  unfold advanceOneUnit; rw [h]

theorem advanceOneUnit_active {wr : Addr → Byte → Loaded → Loaded} {r : Loaded} (h : r.ses.dma.phase ≠ .idle) :
    advanceOneUnit wr r = finishUnit (moveBytes wr r) := by
  unfold advanceOneUnit
  cases hp : r.ses.dma.phase
  · exact absurd hp h
  · rfl
  · rfl

theorem advanceOneUnit_ok {wr : Addr → Byte → Loaded → Loaded} (hw : ∀ a v t, t.ses.ok → (wr a v t).ses.ok) {r : Loaded}
    (h : r.ses.ok) : (advanceOneUnit wr r).ses.ok := by
  by_cases hp : r.ses.dma.phase = .idle
  · rw [advanceOneUnit_idle hp]; exact h
  · rw [advanceOneUnit_active hp]; exact finishUnit_ok (moveBytes_ok hw h)

theorem runUnits_ok {wr : Addr → Byte → Loaded → Loaded} (hw : ∀ a v t, t.ses.ok → (wr a v t).ses.ok) (n : Nat)
    {r : Loaded} (h : r.ses.ok) : (runUnits wr n r).ses.ok := by
  induction n generalizing r with
  | zero => exact h
  | succ n ih => exact ih (advanceOneUnit_ok hw h)

/-- An active transfer has at least one unit left (10_state.md R43). -/
theorem Dma.consistent.sixteen_le {d : Dma} (h : d.consistent) (hp : d.phase ≠ .idle) : 16 ≤ d.remaining.toNat := by
  obtain ⟨h1, h2, -⟩ := h
  have : d.remaining.toNat ≠ 0 := fun e => hp (h2.2 (BitVec.eq_of_toNat_eq (by simpa using e)))
  omega

/-- Everything a unit in reach does: the bytes move, the pointers advance, sixteen bytes fewer remain (44_dma.md R336). -/
theorem advanceOneUnit_spec (trig : Byte → Loaded → Loaded) {r : Loaded} (hp : r.ses.dma.phase ≠ .idle)
    (hc : r.ses.dma.consistent) (h1 : 0x8000 ≤ r.ses.dma.dst.toNat) (h2 : r.ses.dma.dst.toNat + 16 ≤ 0xC000) :
    ∃ (vram sram : Mem) (live : ClockRegs) (last calls : Nat) (events : List Event),
      advanceOneUnit (writeWith trig) r =
        { ses := { r.ses with
            vram := vram
            sram := sram
            live := live
            lastSync := last
            dma := { r.ses.dma with
              src := r.ses.dma.src + 16#16
              dst := r.ses.dma.dst + 16#16
              remaining := r.ses.dma.remaining - 16#12
              phase := if r.ses.dma.remaining = 16#12 then .idle else .transferring } }
          env := { r.env with extCalls := calls, events := events } } := by
  rw [advanceOneUnit_active hp]
  have hf := moveBytes_frame trig h1 h2
  revert hf
  generalize moveBytes (writeWith trig) r = t
  intro hf
  have h16 : 16#12 ≤ r.ses.dma.remaining := hc.sixteen_le hp
  have hz : (r.ses.dma.remaining - 16#12 = 0#12) = (r.ses.dma.remaining = 16#12) := by
    rw [BitVec.sub_eq_iff_eq_add]; simp
  refine ⟨t.ses.vram, t.ses.sram, t.ses.live, t.ses.lastSync, t.env.extCalls, t.env.events, ?_⟩
  have hd := hf.dma
  unfold finishUnit afterUnit remainingAfter
  rw [hd]
  simp only [if_pos h16, hz]
  rw [← hf.2]
  refine congrArg (fun x => Loaded.mk x _) ?_
  rw [hf.1]

/-- A unit in reach keeps the DMA invariants and the reach, and moves the destination by 16. -/
theorem advanceOneUnit_keeps (trig : Byte → Loaded → Loaded) {r : Loaded} (hp : r.ses.dma.phase ≠ .idle)
    (hc : r.ses.dma.consistent) (hr : r.ses.dmaInReach) :
    (advanceOneUnit (writeWith trig) r).ses.dma.consistent ∧ (advanceOneUnit (writeWith trig) r).ses.dmaInReach ∧
      (advanceOneUnit (writeWith trig) r).ses.dma.remaining.toNat = r.ses.dma.remaining.toNat - 16 := by
  obtain ⟨hr1, hr2⟩ := hr hp
  have h16 := hc.sixteen_le hp
  obtain ⟨vram, sram, live, last, calls, events, h⟩ := advanceOneUnit_spec trig hp hc hr1 (by omega)
  have hrem : (r.ses.dma.remaining - 16#12).toNat = r.ses.dma.remaining.toNat - 16 := by
    rw [BitVec.toNat_sub_of_le (show 16#12 ≤ r.ses.dma.remaining from h16)]; rfl
  have hdst : (r.ses.dma.dst + 16#16).toNat = r.ses.dma.dst.toNat + 16 := by
    rw [BitVec.toNat_add]; show (_ + 16) % 65536 = _; omega
  rw [h]
  refine ⟨?_, fun _ => ?_, hrem⟩
  · show (r.ses.dma.remaining - 16#12).toNat % 16 = 0 ∧
      ((if r.ses.dma.remaining = 16#12 then Phase.idle else .transferring) = .idle ↔
        r.ses.dma.remaining - 16#12 = 0#12) ∧ (r.ses.dma.remaining - 16#12).toNat ≤ 2048
    rw [hrem]
    have h3 := hc.1
    have h4 := hc.2.2
    refine ⟨by omega, ?_, by omega⟩
    rw [BitVec.sub_eq_iff_eq_add]
    split <;> simp_all
  · show 0x8000 ≤ (r.ses.dma.dst + 16#16).toNat ∧
      (r.ses.dma.dst + 16#16).toNat + (r.ses.dma.remaining - 16#12).toNat ≤ 0xA7F0
    omega

/-- An active transfer is one with bytes left (10_state.md R43). -/
theorem Dma.consistent.active_of_pos {d : Dma} (h : d.consistent) (hr : 0 < d.remaining.toNat) : d.phase ≠ .idle := by
  intro hp
  rw [h.2.1.1 hp] at hr
  simp at hr

/-- The units of a transfer in reach do not depend on what their writes would do at `REG_DMA_CTRL` (44_dma.md R332). -/
theorem runUnits_trig (trig trig' : Byte → Loaded → Loaded) (k : Nat) {r : Loaded} (hc : r.ses.dma.consistent)
    (hr : r.ses.dmaInReach) (hk : 16 * k ≤ r.ses.dma.remaining.toNat) :
    runUnits (writeWith trig) k r = runUnits (writeWith trig') k r := by
  induction k generalizing r with
  | zero => rfl
  | succ k ih =>
    have hp := hc.active_of_pos (by omega)
    obtain ⟨hr1, hr2⟩ := hr hp
    have h16 := hc.sixteen_le hp
    obtain ⟨kc, kr, kn⟩ := advanceOneUnit_keeps trig hp hc hr
    have he : advanceOneUnit (writeWith trig) r = advanceOneUnit (writeWith trig') r := by
      rw [advanceOneUnit_active hp, advanceOneUnit_active hp]
      exact congrArg finishUnit (moveBytes_trig _ _ hr1 (by omega))
    show runUnits (writeWith trig) k (advanceOneUnit (writeWith trig) r) =
      runUnits (writeWith trig') k (advanceOneUnit (writeWith trig') r)
    rw [← he]
    exact ih kc kr (by omega)

/-- `Write` looks at what `REG_DMA_CTRL` does only at the byte written. -/
theorem writeWith_congr {trig trig' : Byte → Loaded → Loaded} {a : Addr} {v : Byte} {r : Loaded} (h : trig v r = trig' v r) :
    writeWith trig a v r = writeWith trig' a v r := by
  simp only [writeWith, h]

/-- The trigger looks at its `Write` only through the units it runs. -/
theorem trigger_congr {wr wr' : Addr → Byte → Loaded → Loaded} {mode : BitVec 1} {n : BitVec 7} {r : Loaded}
    (h : runUnits wr (n.toNat + 1) (armFrom n r) = runUnits wr' (n.toNat + 1) (armFrom n r)) :
    trigger wr mode n r = trigger wr' mode n r := by
  simp only [trigger, h]

/-! ## The trigger, and `Write` -/

theorem unitWrite_ok (a : Addr) (v : Byte) (t : Loaded) (h : t.ses.ok) : (unitWrite a v t).ses.ok :=
  writeWith_ok h fun _ => armFrom_ok h _

theorem trigger_ok {r : Loaded} (h : r.ses.ok) (mode : BitVec 1) (n : BitVec 7) : (trigger unitWrite mode n r).ses.ok := by
  unfold trigger
  split
  · exact armFrom_ok h n
  · exact runUnits_ok unitWrite_ok _ (armFrom_ok h n)

theorem write_ok (a : Addr) (v : Byte) (r : Loaded) (h : r.ses.ok) : (write a v r).ses.ok :=
  writeWith_ok h fun _ => trigger_ok h _ _

/-- `k` units of a transfer in reach with at least `k` units left. -/
theorem runUnits_spec (trig : Byte → Loaded → Loaded) (k : Nat) {r : Loaded} (hc : r.ses.dma.consistent)
    (hr : r.ses.dmaInReach) (hk : 16 * k ≤ r.ses.dma.remaining.toNat) :
    ∃ (vram sram : Mem) (live : ClockRegs) (last calls : Nat) (events : List Event),
      runUnits (writeWith trig) k r =
        { ses := { r.ses with
            vram := vram
            sram := sram
            live := live
            lastSync := last
            dma := { r.ses.dma with
              src := r.ses.dma.src + BitVec.ofNat 16 (16 * k)
              dst := r.ses.dma.dst + BitVec.ofNat 16 (16 * k)
              remaining := r.ses.dma.remaining - BitVec.ofNat 12 (16 * k)
              phase :=
                if k = 0 then r.ses.dma.phase
                else if 16 * k = r.ses.dma.remaining.toNat then .idle else .transferring } }
          env := { r.env with extCalls := calls, events := events } } := by
  induction k generalizing r with
  | zero =>
    refine ⟨r.ses.vram, r.ses.sram, r.ses.live, r.ses.lastSync, r.env.extCalls, r.env.events, ?_⟩
    show r = _
    simp
  | succ k ih =>
    have hp := hc.active_of_pos (by omega)
    obtain ⟨hr1, hr2⟩ := hr hp
    have h16 := hc.sixteen_le hp
    obtain ⟨vram, sram, live, last, calls, events, h⟩ :=
      advanceOneUnit_spec trig hp hc hr1 (by omega)
    have hrem : (r.ses.dma.remaining - 16#12).toNat = r.ses.dma.remaining.toNat - 16 := by
      rw [BitVec.toNat_sub_of_le (show 16#12 ≤ r.ses.dma.remaining from h16)]; rfl
    have heq : r.ses.dma.remaining = 16#12 ↔ r.ses.dma.remaining.toNat = 16 := by
      rw [← BitVec.toNat_inj]; rfl
    obtain ⟨hc', hr', hn'⟩ := advanceOneUnit_keeps trig hp hc hr
    obtain ⟨vram', sram', live', last', calls', events', h'⟩ := ih hc' hr' (by omega)
    refine ⟨vram', sram', live', last', calls', events', ?_⟩
    show runUnits (writeWith trig) k (advanceOneUnit (writeWith trig) r) = _
    rw [h', h]
    have e1 : ∀ p : Addr, p + 16#16 + BitVec.ofNat 16 (16 * k) = p + BitVec.ofNat 16 (16 * (k + 1)) := by
      intro p
      rw [BitVec.add_assoc, ← BitVec.ofNat_add]
      congr 2; omega
    have e2 : ∀ p : BitVec 12, p - 16#12 - BitVec.ofNat 12 (16 * k) = p - BitVec.ofNat 12 (16 * (k + 1)) := by
      intro p
      rw [BitVec.sub_sub, ← BitVec.ofNat_add]
      congr 2; omega
    have e3 : (if k = 0 then (if r.ses.dma.remaining = 16#12 then Phase.idle else .transferring)
        else if 16 * k = (r.ses.dma.remaining - 16#12).toNat then .idle else .transferring) =
        if 16 * (k + 1) = r.ses.dma.remaining.toNat then Phase.idle else .transferring := by
      simp only [hrem, heq]
      by_cases hk0 : k = 0
      · subst hk0; simp [eq_comm]
      · rw [if_neg hk0]
        have : (16 * k = r.ses.dma.remaining.toNat - 16) = (16 * (k + 1) = r.ses.dma.remaining.toNat) :=
          propext ⟨fun _ => by omega, fun _ => by omega⟩
        simp only [this]
    simp only [e1, e2, e3, Nat.succ_ne_zero, if_false]

/-- Everything a trigger write does: video memory, storage, the live clock, the DMA registers and the external port at most,
and a transfer it leaves in progress is in reach (44_dma.md R326, R332). -/
theorem trigger_spec (mode : BitVec 1) (n : BitVec 7) (r : Loaded) :
    ∃ (vram sram : Mem) (live : ClockRegs) (last calls : Nat) (events : List Event) (d : Dma),
      trigger unitWrite mode n r =
        { ses := { r.ses with vram := vram, sram := sram, live := live, lastSync := last, dma := d }
          env := { r.env with extCalls := calls, events := events } } ∧
      (trigger unitWrite mode n r).ses.dmaInReach := by
  by_cases hm : mode = 1#1
  · have e : trigger unitWrite mode n r = armFrom n r := if_pos hm
    have hr := armFrom_inReach n r
    rw [e]
    rw [armFrom_eq] at hr ⊢
    exact ⟨r.ses.vram, r.ses.sram, r.ses.live, r.ses.lastSync, r.env.extCalls, r.env.events, _, rfl, hr⟩
  · have e : trigger unitWrite mode n r = runUnits unitWrite (n.toNat + 1) (armFrom n r) := if_neg hm
    have hrem := armFrom_remaining n r
    obtain ⟨vram, sram, live, last, calls, events, h⟩ :=
      runUnits_spec (fun v r => armFrom (v.extractLsb' 0 7) r) (n.toNat + 1) (armFrom_consistent n r)
        (armFrom_inReach n r) (by omega)
    have h' : runUnits unitWrite (n.toNat + 1) (armFrom n r) = _ := h
    rw [e]
    refine ⟨vram, sram, live, last, calls, events, (runUnits unitWrite (n.toNat + 1) (armFrom n r)).ses.dma, ?_, ?_⟩
    · rw [h', armFrom_eq]; rfl
    · rw [h']
      intro hp
      refine absurd ?_ hp
      show (if n.toNat + 1 = 0 then (armFrom n r).ses.dma.phase
        else if 16 * (n.toNat + 1) = (armFrom n r).ses.dma.remaining.toNat then Phase.idle else .transferring) = .idle
      rw [if_neg (by omega), if_pos (by omega)]

/-- Everything `HB` does from a state whose transfer, if any, is in reach (44_dma.md R337). -/
theorem horizontalBlank_spec {r : Loaded} (hc : r.ses.dma.consistent) (hr : r.ses.dmaInReach) :
    ∃ (vram sram : Mem) (live : ClockRegs) (last calls : Nat) (events : List Event) (d : Dma) (res : Result),
      horizontalBlank r =
        { ses := { r.ses with vram := vram, sram := sram, live := live, lastSync := last, dma := d }
          env := { r.env with extCalls := calls, events := events, result := res } } ∧
      (horizontalBlank r).ses.dmaInReach := by
  by_cases hp : r.ses.dma.phase = .idle
  · unfold horizontalBlank
    rw [advanceOneUnit_idle hp]
    exact ⟨r.ses.vram, r.ses.sram, r.ses.live, r.ses.lastSync, r.env.extCalls, r.env.events, r.ses.dma, _, rfl, hr⟩
  · obtain ⟨h1, h2⟩ := hr hp
    have h16 := hc.sixteen_le hp
    obtain ⟨vram, sram, live, last, calls, events, h⟩ :=
      advanceOneUnit_spec (triggerByte unitWrite) hp hc h1 (by omega)
    have hk := (advanceOneUnit_keeps (triggerByte unitWrite) hp hc hr).2.1
    have hh : horizontalBlank r =
        (advanceOneUnit (writeWith (triggerByte unitWrite)) r).answer
          (.pending (advanceOneUnit (writeWith (triggerByte unitWrite)) r).ses.dma.active) := rfl
    rw [hh, h]
    rw [h] at hk
    exact ⟨vram, sram, live, last, calls, events, _, _, rfl, hk⟩

end Sys2Proof.Machine
end

