-- ==== Sys2Proof/Laws/PerInstr.lean ====
section
/-! SUPPORT. A law of every instruction: its operation word carries the operation select of its row (30_encoding.md R110). -/

namespace Sys2Proof.Laws.OpCode

/-- The operation select `OW[26:24]` of an instruction's row (30_encoding.md R110). -/
def select : Instr → BitVec 3
  | .rdVbk => 0#3
  | .rdDmaSrcHi => 0#3
  | .rdDmaSrcLo => 0#3
  | .rdDmaDstHi => 0#3
  | .rdDmaDstLo => 0#3
  | .rdDmaCtrl => 0#3
  | .rdSvbk => 0#3
  | .rdExt _ => 0#3
  | .rdEcho _ => 0#3
  | .rdWramx _ => 0#3
  | .rdWram0 _ => 0#3
  | .rdSramOff _ => 0#3
  | .rdSramRtc _ => 0#3
  | .rdSramNone _ => 0#3
  | .rdSramBank _ => 0#3
  | .rdVram _ => 0#3
  | .rdRomx _ => 0#3
  | .rdRom0 _ => 0#3
  | .wrVbk _ => 1#3
  | .wrDmaSrcHi _ => 1#3
  | .wrDmaSrcLo _ => 1#3
  | .wrDmaDstHi _ => 1#3
  | .wrDmaDstLo _ => 1#3
  | .wrDmaCtrl _ _ => 1#3
  | .wrSvbk _ => 1#3
  | .wrExt _ _ => 1#3
  | .wrEcho _ _ => 1#3
  | .wrWramx _ _ => 1#3
  | .wrWram0 _ _ => 1#3
  | .wrSramOff _ _ => 1#3
  | .wrSramRtc _ _ => 1#3
  | .wrSramNone _ _ => 1#3
  | .wrSramBank _ _ => 1#3
  | .wrVram _ _ => 1#3
  | .ctlNone _ _ => 1#3
  | .ctlEf _ _ => 1#3
  | .ramen _ => 1#3
  | .romloA _ => 1#3
  | .upperARom _ => 1#3
  | .upperARam _ => 1#3
  | .modeA _ => 1#3
  | .rombB _ => 1#3
  | .ignB _ _ => 1#3
  | .rombC _ => 1#3
  | .ramselC _ => 1#3
  | .ramselCRsvd _ => 1#3
  | .latchC _ => 1#3
  | .romloD _ => 1#3
  | .romhiD _ => 1#3
  | .rambD _ => 1#3
  | .rambDRumble _ _ => 1#3
  | .ignD _ _ => 1#3
  | .hb => 2#3
  | .tick => 3#3
  | .load => 4#3
  | .reset => 5#3
  | .save => 6#3
  | .restore => 7#3

/-- The encoded word carries the row's operation select. -/
def Statement (i : Instr) : Prop := fieldOp (encode i) = select i

theorem rdVbk : Statement (.rdVbk) := fieldOp_rdWord _
theorem rdDmaSrcHi : Statement (.rdDmaSrcHi) := fieldOp_rdWord _
theorem rdDmaSrcLo : Statement (.rdDmaSrcLo) := fieldOp_rdWord _
theorem rdDmaDstHi : Statement (.rdDmaDstHi) := fieldOp_rdWord _
theorem rdDmaDstLo : Statement (.rdDmaDstLo) := fieldOp_rdWord _
theorem rdDmaCtrl : Statement (.rdDmaCtrl) := fieldOp_rdWord _
theorem rdSvbk : Statement (.rdSvbk) := fieldOp_rdWord _
theorem rdExt (addr : Addr) : Statement (.rdExt addr) := fieldOp_rdWord _
theorem rdEcho (addr : Addr) : Statement (.rdEcho addr) := fieldOp_rdWord _
theorem rdWramx (off : BitVec 12) : Statement (.rdWramx off) := fieldOp_rdWord _
theorem rdWram0 (off : BitVec 12) : Statement (.rdWram0 off) := fieldOp_rdWord _
theorem rdSramOff (off : BitVec 13) : Statement (.rdSramOff off) := fieldOp_rdWord _
theorem rdSramRtc (off : BitVec 13) : Statement (.rdSramRtc off) := fieldOp_rdWord _
theorem rdSramNone (off : BitVec 13) : Statement (.rdSramNone off) := fieldOp_rdWord _
theorem rdSramBank (off : BitVec 13) : Statement (.rdSramBank off) := fieldOp_rdWord _
theorem rdVram (off : BitVec 13) : Statement (.rdVram off) := fieldOp_rdWord _
theorem rdRomx (off : BitVec 14) : Statement (.rdRomx off) := fieldOp_rdWord _
theorem rdRom0 (off : BitVec 14) : Statement (.rdRom0 off) := fieldOp_rdWord _
theorem wrVbk (data : Byte) : Statement (.wrVbk data) := fieldOp_wrWord _ _
theorem wrDmaSrcHi (data : Byte) : Statement (.wrDmaSrcHi data) := fieldOp_wrWord _ _
theorem wrDmaSrcLo (data : Byte) : Statement (.wrDmaSrcLo data) := fieldOp_wrWord _ _
theorem wrDmaDstHi (data : Byte) : Statement (.wrDmaDstHi data) := fieldOp_wrWord _ _
theorem wrDmaDstLo (data : Byte) : Statement (.wrDmaDstLo data) := fieldOp_wrWord _ _
theorem wrDmaCtrl (mode : BitVec 1) (n : BitVec 7) : Statement (.wrDmaCtrl mode n) := fieldOp_wrWord _ _
theorem wrSvbk (data : Byte) : Statement (.wrSvbk data) := fieldOp_wrWord _ _
theorem wrExt (addr : Addr) (data : Byte) : Statement (.wrExt addr data) := fieldOp_wrWord _ _
theorem wrEcho (addr : Addr) (data : Byte) : Statement (.wrEcho addr data) := fieldOp_wrWord _ _
theorem wrWramx (off : BitVec 12) (data : Byte) : Statement (.wrWramx off data) := fieldOp_wrWord _ _
theorem wrWram0 (off : BitVec 12) (data : Byte) : Statement (.wrWram0 off data) := fieldOp_wrWord _ _
theorem wrSramOff (off : BitVec 13) (data : Byte) : Statement (.wrSramOff off data) := fieldOp_wrWord _ _
theorem wrSramRtc (off : BitVec 13) (data : Byte) : Statement (.wrSramRtc off data) := fieldOp_wrWord _ _
theorem wrSramNone (off : BitVec 13) (data : Byte) : Statement (.wrSramNone off data) := fieldOp_wrWord _ _
theorem wrSramBank (off : BitVec 13) (data : Byte) : Statement (.wrSramBank off data) := fieldOp_wrWord _ _
theorem wrVram (off : BitVec 13) (data : Byte) : Statement (.wrVram off data) := fieldOp_wrWord _ _
theorem ctlNone (addr : Addr) (data : Byte) : Statement (.ctlNone addr data) := fieldOp_wrWord _ _
theorem ctlEf (addr : Addr) (data : Byte) : Statement (.ctlEf addr data) := fieldOp_wrWord _ _
theorem ramen (nibble : BitVec 4) : Statement (.ramen nibble) := fieldOp_wrWord _ _
theorem romloA (bank : BitVec 5) : Statement (.romloA bank) := fieldOp_wrWord _ _
theorem upperARom (upper : BitVec 2) : Statement (.upperARom upper) := fieldOp_wrWord _ _
theorem upperARam (upper : BitVec 2) : Statement (.upperARam upper) := fieldOp_wrWord _ _
theorem modeA (mode : BitVec 1) : Statement (.modeA mode) := fieldOp_wrWord _ _
theorem rombB (bank : BitVec 4) : Statement (.rombB bank) := fieldOp_wrWord _ _
theorem ignB (addr : Addr) (data : Byte) : Statement (.ignB addr data) := fieldOp_wrWord _ _
theorem rombC (bank : BitVec 7) : Statement (.rombC bank) := fieldOp_wrWord _ _
theorem ramselC (sel : BitVec 4) : Statement (.ramselC sel) := fieldOp_wrWord _ _
theorem ramselCRsvd (sel : BitVec 4) : Statement (.ramselCRsvd sel) := fieldOp_wrWord _ _
theorem latchC (data : Byte) : Statement (.latchC data) := fieldOp_wrWord _ _
theorem romloD (bank : BitVec 8) : Statement (.romloD bank) := fieldOp_wrWord _ _
theorem romhiD (bit8 : BitVec 1) : Statement (.romhiD bit8) := fieldOp_wrWord _ _
theorem rambD (bank : BitVec 4) : Statement (.rambD bank) := fieldOp_wrWord _ _
theorem rambDRumble (motor : BitVec 1) (bank : BitVec 3) : Statement (.rambDRumble motor bank) := fieldOp_wrWord _ _
theorem ignD (addr : Addr) (data : Byte) : Statement (.ignD addr data) := fieldOp_wrWord _ _
theorem hb : Statement (.hb) := fieldOp_opWord _ _ _
theorem tick : Statement (.tick) := fieldOp_opWord _ _ _
theorem load : Statement (.load) := fieldOp_opWord _ _ _
theorem reset : Statement (.reset) := fieldOp_opWord _ _ _
theorem save : Statement (.save) := fieldOp_opWord _ _ _
theorem restore : Statement (.restore) := fieldOp_opWord _ _ _

end Sys2Proof.Laws.OpCode
end

