-- ==== Sys2Proof/Laws/Record.lean ====
section
/-! SUPPORT. The save record: what a number's bytes stand for, which records are valid, and what a record of a session holds. -/

namespace Sys2Proof.Machine

/-- The bytes of a number stand for it, modulo what they can hold. -/
theorem numberOf_bytesOf (k n : Nat) : numberOf (bytesOf k n) = n % 256 ^ k := by
  induction k generalizing n with
  | zero => simp [bytesOf, numberOf, Nat.mod_one]
  | succ k ih =>
    rw [bytesOf, numberOf, ih, BitVec.toNat_ofNat]
    show n % 256 + 256 * (n / 256 % 256 ^ k) = _
    rw [show 256 ^ (k + 1) = 256 * 256 ^ k from Nat.pow_succ', Nat.mod_mul]

theorem numberOf_bytesOf_word {w : Nat} (v : BitVec w) (hw : w ≤ 16) : numberOf (bytesOf 2 v.toNat) = v.toNat := by
  have h1 := v.isLt
  have h2 : 2 ^ w ≤ 2 ^ 16 := Nat.pow_le_pow_right (by decide) hw
  rw [numberOf_bytesOf]
  exact Nat.mod_eq_of_lt (lt_of_lt_of_le h1 h2)

theorem take_three {b : List Byte} (h : b.length = saveLength) :
    b.take 3 = [recordByte b 0, recordByte b 1, recordByte b 2] := by
  match b, h with
  | _ :: _ :: _ :: _, _ => rfl

/-- The records `RESTORE` takes (46_host_interface.md R380). -/
theorem validRecord_iff (b : List Byte) :
    validRecord b = true ↔
      b.length = saveLength ∧ b.take 3 = [saveMagic0, saveMagic1, saveVersion] ∧ (recordByte b 36).toNat ≤ 2 ∧
        recordField b 34 2 % 16 = 0 ∧ recordField b 34 2 ≤ 2048 ∧ (recordField b 34 2 = 0 ↔ recordByte b 36 = 0#8) := by
  by_cases hl : b.length = saveLength
  · rw [take_three hl]
    unfold validRecord
    simp only [Bool.and_eq_true, beq_iff_eq, decide_eq_true_eq, hl, List.cons.injEq, and_true, true_and]
    have h1 : recordByte b 36 ≤ 2#8 ↔ (recordByte b 36).toNat ≤ 2 := Iff.rfl
    have h2 : ((recordField b 34 2 == 0) = (recordByte b 36 == 0#8)) ↔ (recordField b 34 2 = 0 ↔ recordByte b 36 = 0#8) := by
      rw [Bool.eq_iff_iff]; simp
    rw [h1, h2]; tauto
  · refine ⟨fun h => absurd ?_ hl, fun h => absurd h.1 hl⟩
    unfold validRecord at h
    simp only [Bool.and_eq_true, beq_iff_eq] at h
    exact h.1.1.1.1.1.1.1

/-! ### The fields of a record of a session (46_host_interface.md R378) -/

theorem saveRecord_length (x : Session) : (saveRecord x).length = saveLength := rfl

theorem saveRecord_romBank (x : Session) : recordField (saveRecord x) 3 2 = x.bank.romBank.toNat :=
  numberOf_bytesOf_word _ (by decide)

theorem saveRecord_lastSync (x : Session) : recordField (saveRecord x) 18 8 = x.lastSync % 2 ^ 64 :=
  numberOf_bytesOf 8 x.lastSync

theorem saveRecord_src (x : Session) : recordField (saveRecord x) 30 2 = x.dma.src.toNat :=
  numberOf_bytesOf_word _ (by decide)

theorem saveRecord_dst (x : Session) : recordField (saveRecord x) 32 2 = x.dma.dst.toNat :=
  numberOf_bytesOf_word _ (by decide)

theorem saveRecord_remaining (x : Session) : recordField (saveRecord x) 34 2 = x.dma.remaining.toNat :=
  numberOf_bytesOf_word _ (by decide)

theorem flagByte_bits (x : Session) :
    (flagByte x).getLsbD 0 = x.bank.mode ∧ (flagByte x).getLsbD 1 = x.bank.ramEnable ∧
      (flagByte x).getLsbD 2 = x.bank.latchArmed ∧ (flagByte x).getLsbD 3 = x.bank.motor ∧
      (flagByte x).extractLsb' 4 1 = x.vramBank := by
  unfold flagByte
  generalize x.bank.mode = mode
  generalize x.bank.ramEnable = enable
  generalize x.bank.latchArmed = armed
  generalize x.bank.motor = motor
  generalize x.vramBank = vram
  revert vram mode enable armed motor
  decide

theorem recordBank_saveRecord (x : Session) : recordBank (saveRecord x) = x.bank := by
  have h := flagByte_bits x
  have h1 : BitVec.ofNat 9 (recordField (saveRecord x) 3 2) = x.bank.romBank := by rw [saveRecord_romBank]; simp
  have h2 : ((x.bank.ramBank.setWidth 8).extractLsb' 0 4) = x.bank.ramBank := by
    generalize x.bank.ramBank = v; revert v; decide
  unfold recordBank
  rw [h1]
  show BankState.mk _ ((x.bank.ramBank.setWidth 8).extractLsb' 0 4) ((flagByte x).getLsbD 0) ((flagByte x).getLsbD 1)
    ((flagByte x).getLsbD 2) ((flagByte x).getLsbD 3) = _
  rw [h2, h.1, h.2.1, h.2.2.1, h.2.2.2.1]

theorem phaseOf_phaseByte (p : Phase) : phaseOf (phaseByte p) = p := by cases p <;> rfl

theorem recordDma_saveRecord (x : Session) : recordDma (saveRecord x) = x.dma := by
  have h1 : BitVec.ofNat 16 (recordField (saveRecord x) 30 2) = x.dma.src := by rw [saveRecord_src]; simp
  have h2 : BitVec.ofNat 16 (recordField (saveRecord x) 32 2) = x.dma.dst := by rw [saveRecord_dst]; simp
  have h3 : BitVec.ofNat 12 (recordField (saveRecord x) 34 2) = x.dma.remaining := by rw [saveRecord_remaining]; simp
  unfold recordDma
  rw [h1, h2, h3]
  show Dma.mk x.dma.srcHi x.dma.srcLo x.dma.dstHi x.dma.dstLo _ _ _ (phaseOf (phaseByte x.dma.phase)) = _
  rw [phaseOf_phaseByte]

/-- Masking a register file that is inside its masks changes nothing. -/
theorem ClockRegs.masked_of_wired {r : ClockRegs} (h : r.wired) : ClockRegs.masked r.S r.M r.H r.DL r.DH = r := by
  obtain ⟨h1, h2, h3, h4⟩ := h
  refine (ClockRegs.mk.injEq ..).mpr ⟨h1, h2, h3, ?_, h4⟩
  have : ∀ v : Byte, v &&& 0xFF#8 = v := by decide
  exact this _

/-- A record of a session whose DMA registers are consistent is valid. -/
theorem validRecord_saveRecord {x : Session} (h : x.dma.consistent) : validRecord (saveRecord x) = true := by
  obtain ⟨h1, h2, h3⟩ := h
  have hz : x.dma.remaining = 0#12 ↔ x.dma.remaining.toNat = 0 := by rw [← BitVec.toNat_inj]; rfl
  refine (validRecord_iff _).2 ⟨rfl, rfl, ?_, ?_, ?_, ?_⟩
  · show (phaseByte x.dma.phase).toNat ≤ 2
    cases x.dma.phase <;> decide
  · rw [saveRecord_remaining]; exact h1
  · rw [saveRecord_remaining]; exact h3
  · rw [saveRecord_remaining, ← hz, ← h2]
    show x.dma.phase = .idle ↔ phaseByte x.dma.phase = 0#8
    cases x.dma.phase <;> decide

/-- The fields a session takes from its own record, or from another session's. -/
theorem restoreFields_saveRecord {x : Session} (y : Session) (hw : x.wramBank ≠ 0#3) (hl : x.live.wired)
    (hs : x.snap.wired) :
    restoreFields (saveRecord x) y =
      { y with
        bank := x.bank, vramBank := x.vramBank, wramBank := x.wramBank, live := x.live, snap := x.snap, dma := x.dma } := by
  have h1 : wramBankOf ((x.wramBank.setWidth 8).extractLsb' 0 3) = x.wramBank := by
    have : (x.wramBank.setWidth 8).extractLsb' 0 3 = x.wramBank := by generalize x.wramBank = v; revert v; decide
    rw [this, wramBankOf, if_neg hw]
  unfold restoreFields
  rw [recordBank_saveRecord, recordDma_saveRecord]
  show Session.mk y.desc y.refused _ ((flagByte x).extractLsb' 4 1) (wramBankOf ((x.wramBank.setWidth 8).extractLsb' 0 3))
    (ClockRegs.masked x.live.S x.live.M x.live.H x.live.DL x.live.DH)
    (ClockRegs.masked x.snap.S x.snap.M x.snap.H x.snap.DL x.snap.DH) _ _ _ _ _ _ _ = _
  rw [h1, (flagByte_bits x).2.2.2.2, ClockRegs.masked_of_wired hl, ClockRegs.masked_of_wired hs]

/-! ### What a restored session keeps -/

theorem phaseOf_idle_iff (b : Byte) : phaseOf b = .idle ↔ b = 0#8 := by
  unfold phaseOf
  split
  · simp_all
  · split <;> simp_all

/-- A valid record's DMA registers are consistent (46_host_interface.md R380). -/
theorem recordDma_consistent {b : List Byte} (h : validRecord b = true) : (recordDma b).consistent := by
  obtain ⟨-, -, -, h1, h2, h3⟩ := (validRecord_iff b).1 h
  have ht : (BitVec.ofNat 12 (recordField b 34 2)).toNat = recordField b 34 2 := by
    rw [BitVec.toNat_ofNat]; omega
  refine ⟨?_, ?_, ?_⟩
  · show (BitVec.ofNat 12 (recordField b 34 2)).toNat % 16 = 0
    rw [ht]; exact h1
  · show phaseOf (recordByte b 36) = .idle ↔ BitVec.ofNat 12 (recordField b 34 2) = 0#12
    rw [phaseOf_idle_iff, ← h3, ← BitVec.toNat_inj, ht]; rfl
  · show (BitVec.ofNat 12 (recordField b 34 2)).toNat ≤ 2048
    rw [ht]; exact h2

theorem restoreFields_ok {b : List Byte} (h : validRecord b = true) {x : Session} (hx : x.ok) : (restoreFields b x).ok := by
  obtain ⟨h1, -, -, -, -, h6⟩ := hx
  refine ⟨h1, ?_, ClockRegs.masked_wired _ _ _ _ _, ClockRegs.masked_wired _ _ _ _ _, recordDma_consistent h, h6⟩
  show wramBankOf _ ≠ 0#3
  unfold wramBankOf
  split
  · decide
  · assumption

theorem reconcile_ok (now t : Nat) (track : Bool) {x : Session} (hx : x.ok) : (reconcile now t track x).ok := by
  unfold reconcile
  split
  · exact syncSession_ok (x := { x with lastSync := t }) hx now
  · exact hx

end Sys2Proof.Machine
end

