-- ==== Sys2Proof/Laws/Step.lean ====
section
/-! SUPPORT. Everything a step can do: one inversion of `step`, one of the meaning of `LOAD`; what a record made by `SAVE` is,
and a restored session; what placing a word keeps. -/

namespace Sys2Proof.Machine

/-- A `LOAD` with a next state raised the exception or opened a session. -/
theorem load_cases {s t : State} (h : exec .load s = .next t) :
    t = raiseInvalidHeader s ∨
      ∃ d, describe s.env.par.rumbleStrength s.env.ports.typeByte s.env.ports.romSizeByte s.env.ports.ramSizeByte = some d ∧
        lengthsMatch d s.env.ports = true ∧ t = openSession d s := by
  simp only [exec, execLoad] at h
  split at h
  · injection h with h; exact .inl h.symm
  · next d hd =>
    split at h
    · next hl => injection h with h; exact .inr ⟨d, hd, hl, h.symm⟩
    · cases h

/-- What a decoded instruction with a next state did in a loaded session: `Read`, `Write`, or an event. -/
theorem decoded_cases {x : Session} {e : Env} {w : OpWord} {t : State} (h : exec (decode x.ctx w) ⟨some x, e⟩ = .next t) :
    (fieldOp w = 0#3 ∧
        t = ((read (fieldAddr w) ⟨x, e⟩).1.answer (.data (read (fieldAddr w) ⟨x, e⟩).2)).toState) ∨
      (fieldOp w = 1#3 ∧ t = ((write (fieldAddr w) (fieldData w) ⟨x, e⟩).answer .none).toState) ∨
      (fieldOp w = 2#3 ∧ t = (horizontalBlank ⟨x, e⟩).toState) ∨
      (fieldOp w = 3#3 ∧ t = ((tickBy e.ports.delta ⟨x, e⟩).answer .none).toState) ∨
      (fieldOp w = 4#3 ∧ exec .load ⟨some x, e⟩ = .next t) ∨
      (fieldOp w = 5#3 ∧ t = (resetMachine ⟨x, e⟩).toState) ∨
      (fieldOp w = 6#3 ∧ timeFits ⟨x, e⟩ = true ∧ t = (Loaded.answer ⟨x, e⟩ (.record (saveRecord x))).toState) ∨
      (fieldOp w = 7#3 ∧ t = (restoreFrom e.ports.record e.ports.trackRealTime ⟨x, e⟩).toState) := by
  unfold decode at h
  by_cases o0 : fieldOp w = 0#3
  · rw [if_pos o0, exec_decodeRead] at h; injection h with h
    exact .inl ⟨o0, h.symm⟩
  rw [if_neg o0] at h
  by_cases o1 : fieldOp w = 1#3
  · rw [if_pos o1, exec_decodeWrite] at h; injection h with h
    exact .inr (.inl ⟨o1, h.symm⟩)
  rw [if_neg o1] at h
  by_cases o2 : fieldOp w = 2#3
  · rw [if_pos o2] at h; injection h with h
    exact .inr (.inr (.inl ⟨o2, h.symm⟩))
  rw [if_neg o2] at h
  by_cases o3 : fieldOp w = 3#3
  · rw [if_pos o3] at h; injection h with h
    exact .inr (.inr (.inr (.inl ⟨o3, h.symm⟩)))
  rw [if_neg o3] at h
  by_cases o4 : fieldOp w = 4#3
  · rw [if_pos o4] at h
    exact .inr (.inr (.inr (.inr (.inl ⟨o4, h⟩))))
  rw [if_neg o4] at h
  by_cases o5 : fieldOp w = 5#3
  · rw [if_pos o5] at h; injection h with h
    exact .inr (.inr (.inr (.inr (.inr (.inl ⟨o5, h.symm⟩)))))
  rw [if_neg o5] at h
  by_cases o6 : fieldOp w = 6#3
  · rw [if_pos o6] at h
    simp only [exec, execSave] at h
    split at h
    · next ht =>
      injection h with h
      exact .inr (.inr (.inr (.inr (.inr (.inr (.inl ⟨o6, ht, h.symm⟩))))))
    · cases h
  · rw [if_neg o6] at h; injection h with h
    have o7 : fieldOp w = 7#3 := by
      revert o0 o1 o2 o3 o4 o5 o6; generalize fieldOp w = o; intros; bv_omega
    exact .inr (.inr (.inr (.inr (.inr (.inr (.inr ⟨o7, h.symm⟩))))))

/-- What a step with a next state did: nothing where no operation waits; else it took the first one, whose word is `LOAD`'s
or stands for an instruction of the loaded session. -/
theorem step_cases {s t : State} (h : step s = .next t) :
    (s.env.queue = [] ∧ t = s) ∨
      ∃ q rest, s.env.queue = q :: rest ∧
        ((s.session = none ∧ fieldOp q.word = 4#3 ∧ exec .load (takeRequest s q rest) = .next t) ∨
          ∃ x, s.session = some x ∧ exec (decode x.ctx q.word) ⟨some x, (takeRequest s q rest).env⟩ = .next t) := by
  unfold step takeNext State.ctx at h
  cases hq : s.env.queue with
  | nil => rw [hq] at h; injection h with h; exact .inl ⟨rfl, h.symm⟩
  | cons q rest =>
    rw [hq] at h
    refine .inr ⟨q, rest, rfl, ?_⟩
    cases hs : s.session with
    | none =>
      rw [hs] at h
      by_cases o : fieldOp q.word = 4#3
      · simp only [Option.map_none, decodeIn, if_pos o] at h
        exact .inl ⟨rfl, o, h⟩
      · simp only [Option.map_none, decodeIn, if_neg o] at h
        cases h
    | some x =>
      rw [hs] at h
      have ht : takeRequest s q rest = ⟨some x, (takeRequest s q rest).env⟩ := by unfold takeRequest; rw [hs]
      simp only [Option.map_some, decodeIn] at h
      rw [ht] at h
      exact .inr ⟨x, rfl, h⟩

/-- A record that `SAVE` answers on a cartridge is the record of a session of it (46_host_interface.md R382). -/
theorem savedOn_record {x : Session} {u : State} {record : List Byte} (h : Launch.SavedOn x u record) :
    ∃ y, u.session = some y ∧ y.desc = x.desc ∧ y.rom = x.rom ∧ record = saveRecord y := by
  obtain ⟨⟨y, hy, hd, hr⟩, ⟨w, hw, ho⟩, v, hv, hres⟩ := h
  refine ⟨y, hy, hd, hr, ?_⟩
  unfold State.nextWord at hw
  rcases step_cases hv with ⟨hq, -⟩ | ⟨q, rest, hq, ⟨hn, -, -⟩ | ⟨y', hy', he⟩⟩
  · rw [hq] at hw; cases hw
  · rw [hy] at hn; cases hn
  · rw [hq] at hw; injection hw with hw
    obtain rfl : y = y' := by rw [hy] at hy'; exact Option.some.inj hy'
    rw [← hw] at ho
    have hc := decoded_cases he
    simp only [ho, BitVec.reduceEq, false_and, false_or, true_and, or_false] at hc
    obtain ⟨-, rfl⟩ := hc
    injection hres with hres
    exact hres.symm

/-- What restoring the record of a session leaves of the bank indices, the DMA registers and the descriptor: the saved
session's, or, where the record is not valid, those there were. -/
theorem restoreFrom_saveRecord (y : Session) (track : Bool) (r : Loaded) :
    (restoreFrom (saveRecord y) track r).ses.desc = r.ses.desc ∧
      (((restoreFrom (saveRecord y) track r).ses.bank = y.bank ∧ (restoreFrom (saveRecord y) track r).ses.dma = y.dma) ∨
        (restoreFrom (saveRecord y) track r).ses = r.ses) := by
  have keep : ∀ (now t : Nat) (x : Session), (reconcile now t track x).desc = x.desc ∧
      (reconcile now t track x).bank = x.bank ∧ (reconcile now t track x).dma = x.dma := by
    intro now t x
    unfold reconcile
    split
    · rw [syncSession_frame]; exact ⟨rfl, rfl, rfl⟩
    · exact ⟨rfl, rfl, rfl⟩
  unfold restoreFrom
  split
  · obtain ⟨h1, h2, h3⟩ := keep r.env.hostNow (recordField (saveRecord y) 18 8) (restoreFields (saveRecord y) r.ses)
    exact ⟨h1, .inl ⟨h2.trans (recordBank_saveRecord y), h3.trans (recordDma_saveRecord y)⟩⟩
  · exact ⟨rfl, .inr rfl⟩

/-- Placing a word keeps the numbers of the draws apart (70_reset_and_hazards.md R442). -/
theorem placeWord_drawsFresh {s : State} (h : s.drawsFresh) (w : OpWord) : (placeWord s w).drawsFresh := by
  unfold placeWord
  cases hs : s.session with
  | some x => exact fun y hy => by injection hy with hy; subst hy; exact h x hs
  | none =>
    by_cases o : fieldOp w = 4#3
    · simp only [if_pos o]; exact fun y hy => by cases hy
    · simp only [if_neg o]; exact fun y hy => by injection hy with hy; subst hy; exact Nat.lt_succ_self _

end Sys2Proof.Machine
end

