-- ==== Sys2Proof/Laws/Transfer.lean ====
section
/-! SUPPORT. The frame of a transfer byte by byte: which bytes of video memory and storage the engine can change, when the clock
moves, what the external port sees (44_dma.md R332, R336), for one byte, a run of bytes, a unit and a run of units. -/

namespace Sys2Proof.Machine

/-! ## Frames, one after the other -/

/-- What a frame's indices are computed from. -/
def SameBanks (x y : Session) : Prop := y.bank = x.bank ∧ y.desc = x.desc ∧ y.vramBank = x.vramBank

theorem SameButUnit.banks {r t : Loaded} (h : SameButUnit r t) : SameBanks r.ses t.ses := by
  rw [h.1]; exact ⟨rfl, rfl, rfl⟩

theorem SameBanks.vramIndex {x y : Session} (h : SameBanks x y) (off : BitVec 13) : vramIndex y off = vramIndex x off := by
  simp only [Machine.vramIndex, h.2.2]

theorem SameBanks.sramIndex {x y : Session} (h : SameBanks x y) (off : BitVec 13) : sramIndex y off = sramIndex x off := by
  simp only [Machine.sramIndex, resolvePersistentBank, h.1, h.2.1]

theorem SameBanks.isRtcSel {x y : Session} (h : SameBanks x y) : y.isRtcSel = x.isRtcSel := by
  simp only [Session.isRtcSel, Session.ctx, h.1, h.2.1]

theorem add_ofNat_add (a : Addr) (m i : Nat) : a + BitVec.ofNat 16 m + BitVec.ofNat 16 i = a + BitVec.ofNat 16 (m + i) := by
  rw [BitVec.add_assoc, ← BitVec.ofNat_add]

theorem TransferFrame.refl (src dst : Addr) (x : Session) (e : Env) : TransferFrame src dst 0 x e x e where
  vram := fun _ _ => rfl
  sram := fun _ _ _ => rfl
  sramStays := fun _ => rfl
  clockStays := fun _ => ⟨rfl, rfl⟩
  arrays := id
  port := ⟨[], rfl, rfl, by simp⟩

/-- Two runs of bytes in a row are one run. -/
theorem TransferFrame.trans {src dst : Addr} {n m : Nat} {x y z : Session} {e f g : Env} (hb : SameBanks x y)
    (h : TransferFrame src dst n x e y f)
    (k : TransferFrame (src + BitVec.ofNat 16 n) (dst + BitVec.ofNat 16 n) m y f z g) :
    TransferFrame src dst (n + m) x e z g where
  vram := by
    intro j hj
    rw [k.vram j fun i hi ha => ?_, h.vram j fun i hi ha => hj i (by omega) ha]
    rw [add_ofNat_add] at ha ⊢
    rw [hb.vramIndex]
    exact hj _ (by omega) ha
  sram := by
    intro hx j hj
    rw [k.sram (h.arrays hx) j fun i hi ha => ?_, h.sram hx j fun i hi ha => hj i (by omega) ha]
    rw [add_ofNat_add] at ha ⊢
    rw [hb.sramIndex]
    exact hj _ (by omega) ha
  sramStays := by
    intro hx
    rw [k.sramStays ?_, h.sramStays ?_]
    · exact hx.imp_right (Or.imp_right (Or.imp_right fun q i hi => q i (by omega)))
    · rw [hb.isRtcSel, hb.1, hb.2.1]
      refine hx.imp_right (Or.imp_right (Or.imp_right fun q i hi => ?_))
      rw [add_ofNat_add]; exact q _ (by omega)
  clockStays := by
    intro hx
    have h1 := h.clockStays (hx.imp_right (Or.imp_right fun q i hi => q i (by omega)))
    have h2 := k.clockStays (by
      rw [hb.isRtcSel, hb.1]
      refine hx.imp_right (Or.imp_right fun q i hi => ?_)
      rw [add_ofNat_add, add_ofNat_add]; exact q _ (by omega))
    exact ⟨h2.1.trans h1.1, h2.2.trans h1.2⟩
  arrays := fun hx => k.arrays (h.arrays hx)
  port := by
    obtain ⟨p, p1, p2, p3⟩ := h.port
    obtain ⟨q, q1, q2, q3⟩ := k.port
    refine ⟨q ++ p, by rw [q1, p1, List.append_assoc], by rw [q2, p2, List.length_append]; omega, fun ev hev => ?_⟩
    rcases List.mem_append.1 hev with hev | hev
    · obtain ⟨i, hi, b, rfl⟩ := q3 ev hev
      exact ⟨n + i, by omega, b, by rw [add_ofNat_add]⟩
    · obtain ⟨i, hi, b, rfl⟩ := p3 ev hev
      exact ⟨i, by omega, b, rfl⟩

/-! ## One byte -/

/-- What a read adds to the external port's history: at most its own call. -/
theorem read_port (a : Addr) (r : Loaded) :
    ∃ new : List Event, (read a r).1.env.events = new ++ r.env.events ∧
      (read a r).1.env.extCalls = r.env.extCalls + new.length ∧ ∀ ev ∈ new, ∃ b, ev = .extRead a b :=
  read_elim (P := fun p => ∃ new : List Event, p.1.env.events = new ++ r.env.events ∧
      p.1.env.extCalls = r.env.extCalls + new.length ∧ ∀ ev ∈ new, ∃ b, ev = .extRead a b)
    (fun _ => ⟨[], rfl, rfl, by simp⟩) ⟨[.extRead a (Config.extByte r.env.extCalls a)], rfl, rfl, by simp⟩
    fun _ _ _ _ => ⟨[], rfl, rfl, by simp⟩

/-- A read is a frame of one byte that writes nothing. -/
theorem read_transfer (src dst : Addr) (r : Loaded) : TransferFrame src dst 1 r.ses r.env (read src r).1.ses (read src r).1.env := by
  have hf := read_frame src r
  obtain ⟨new, p1, p2, p3⟩ := read_port src r
  refine ⟨fun j _ => by rw [hf.1]; rfl, fun _ j _ => by rw [hf.1]; rfl, fun _ => by rw [hf.1], fun h => ?_,
    fun h => by rw [hf.1]; exact h, new, p1, p2, fun ev hev => ⟨0, by omega, by simpa using p3 ev hev⟩⟩
  have hs : (read src r).1.ses = r.ses := read_ses_of_not_clock fun ⟨c1, c2, c3, c4⟩ => by
    rcases h with h | h | h
    · rw [c3] at h; cases h
    · rw [c4] at h; cases h
    · have hz : src + BitVec.ofNat 16 0 = src := by simp
      have hn := (h 0 (by omega)).1
      rw [hz] at hn
      exact hn ⟨c1, c2⟩
  rw [hs]; exact ⟨rfl, rfl⟩

/-- A write to the video-memory or the storage window is a frame of one byte. -/
theorem writeWith_transfer {dst : Addr} (h1 : 0x8000#16 ≤ dst) (h2 : dst < 0xC000#16) (src : Addr)
    (trig : Byte → Loaded → Loaded) (v : Byte) (r : Loaded) :
    TransferFrame src dst 1 r.ses r.env (writeWith trig dst v r).ses (writeWith trig dst v r).env := by
  have hz : dst + BitVec.ofNat 16 0 = dst := by simp
  by_cases h : dst < 0xA000#16
  · rw [writeWith_vram h1 h]
    refine ⟨fun j hj => ?_, fun _ _ _ => rfl, fun _ => rfl, fun _ => ⟨rfl, rfl⟩, fun hx => ?_, [], rfl, rfl, by simp⟩
    · have := hj 0 (by omega) (by rw [hz]; exact h)
      rw [hz] at this
      exact (Session.vramByte_storeVram _ _ _ _).trans (if_neg this)
    · exact ⟨hx.1, hx.2.1, Mem.wf_write hx.2.2.1 (vramIndex_lt _ _) v, hx.2.2.2⟩
  · have h3 : 0xA000#16 ≤ dst := by bv_omega
    have hw : inStorageWindow (dst + BitVec.ofNat 16 0) := by rw [hz]; exact ⟨h3, h2⟩
    rw [writeWith_sram h3 h2]
    unfold writeSram
    by_cases c1 : r.ses.bank.ramEnable = false
    · rw [if_pos c1]
      exact ⟨fun _ _ => rfl, fun _ _ _ => rfl, fun _ => rfl, fun _ => ⟨rfl, rfl⟩, id, [], rfl, rfl, by simp⟩
    rw [if_neg c1]
    by_cases c2 : r.ses.isRtcSel = true
    · rw [if_pos c2]
      obtain ⟨live, last, e⟩ := writeRegister_ses (ClockReg.ofSel r.ses.bank.ramBank) v r
      have e' : (writeSramRtc v r).ses = { r.ses with live := live, lastSync := last } := e
      rw [e']
      refine ⟨fun _ _ => rfl, fun _ _ _ => rfl, fun _ => rfl, fun h => ?_, id, [], rfl, rfl, by simp⟩
      rcases h with h | h | h
      · exact absurd h c1
      · rw [c2] at h; cases h
      · exact absurd hw (h 0 (by omega)).2
    rw [if_neg c2]
    by_cases c3 : r.ses.desc.ramBanks = 0
    · rw [if_pos c3]
      exact ⟨fun _ _ => rfl, fun _ _ _ => rfl, fun _ => rfl, fun _ => ⟨rfl, rfl⟩, id, [], rfl, rfl, by simp⟩
    rw [if_neg c3]
    refine ⟨fun _ _ => rfl, fun hx j hj => ?_, fun h => ?_, fun _ => ⟨rfl, rfl⟩, fun hx => ?_, [], rfl, rfl, by simp⟩
    · have := hj 0 (by omega) hw
      rw [hz] at this
      exact (Session.sramByte_storeSram hx.2.1.1 _ _ _).trans (if_neg this)
    · rcases h with h | h | h | h
      · exact absurd h c1
      · exact absurd h c2
      · exact absurd h c3
      · exact absurd hw (h 0 (by omega))
    · exact ⟨hx.1, Mem.wf_write hx.2.1 (sramIndex_lt _ _ (Nat.pos_of_ne_zero c3)) v, hx.2.2⟩

/-- A frame that writes nothing, then a frame of the same byte's write, is one frame of that byte. -/
theorem TransferFrame.readWrite {src dst : Addr} {x y z : Session} {e f g : Env} (hb : SameBanks x y)
    (hv : ∀ j, y.vramByte j = x.vramByte j) (hs : y.sram = x.sram) (hg : g = f)
    (h : TransferFrame src dst 1 x e y f) (k : TransferFrame src dst 1 y f z g) : TransferFrame src dst 1 x e z g where
  vram := fun j hj => (k.vram j fun i hi ha => by rw [hb.vramIndex]; exact hj i hi ha).trans (hv j)
  sram := fun hx j hj => by
    rw [k.sram (h.arrays hx) j fun i hi ha => by rw [hb.sramIndex]; exact hj i hi ha]
    simp only [Session.sramByte, hs]
  sramStays := fun hx => (k.sramStays (by rw [hb.isRtcSel, hb.1, hb.2.1]; exact hx)).trans hs
  clockStays := fun hx => by
    have h1 := h.clockStays hx
    have h2 := k.clockStays (by rw [hb.isRtcSel, hb.1]; exact hx)
    exact ⟨h2.1.trans h1.1, h2.2.trans h1.2⟩
  arrays := fun hx => k.arrays (h.arrays hx)
  port := by rw [hg]; exact h.port

/-- A byte is written at the destination as it stood before the read (44_dma.md R336). -/
theorem moveByte_eq (wr : Addr → Byte → Loaded → Loaded) (r : Loaded) (i : Nat) :
    moveByte wr r i =
      wr (r.ses.dma.dst + BitVec.ofNat 16 i) (read (r.ses.dma.src + BitVec.ofNat 16 i) r).2
        (read (r.ses.dma.src + BitVec.ofNat 16 i) r).1 := by
  have hd : (read (r.ses.dma.src + BitVec.ofNat 16 i) r).1.ses.dma = r.ses.dma := (read_frame _ r).unit.dma
  unfold moveByte
  simp only [hd]

/-- One byte of a unit whose destination lies in the video-memory or the storage window. -/
theorem moveByte_transfer {trig : Byte → Loaded → Loaded} {r : Loaded} {i : Nat}
    (h1 : 0x8000#16 ≤ r.ses.dma.dst + BitVec.ofNat 16 i) (h2 : r.ses.dma.dst + BitVec.ofNat 16 i < 0xC000#16) :
    TransferFrame (r.ses.dma.src + BitVec.ofNat 16 i) (r.ses.dma.dst + BitVec.ofNat 16 i) 1 r.ses r.env
      (moveByte (writeWith trig) r i).ses (moveByte (writeWith trig) r i).env := by
  have hf := read_frame (r.ses.dma.src + BitVec.ofNat 16 i) r
  have hd : (read (r.ses.dma.src + BitVec.ofNat 16 i) r).1.ses.dma = r.ses.dma := hf.unit.dma
  refine .readWrite hf.unit.banks (fun j => by rw [hf.1]; rfl) (by rw [hf.1]) ?_ (read_transfer _ _ r) ?_
  · exact (writeWith_window_frame (by rw [hd]; exact h1) (by rw [hd]; exact h2) _ _ _).2
  · have := writeWith_transfer (dst := r.ses.dma.dst + BitVec.ofNat 16 i) h1 h2 (r.ses.dma.src + BitVec.ofNat 16 i) trig
      (read (r.ses.dma.src + BitVec.ofNat 16 i) r).2 (read (r.ses.dma.src + BitVec.ofNat 16 i) r).1
    rw [moveByte_eq]
    exact this

/-! ## A run of bytes -/

/-- Bytes `s` to `s + k - 1` of a unit in reach. -/
theorem moveRun_transfer (trig : Byte → Loaded → Loaded) (k s : Nat) (hk : s + k ≤ 16) {r t : Loaded} (ht : SameButUnit r t)
    (h1 : 0x8000 ≤ r.ses.dma.dst.toNat) (h2 : r.ses.dma.dst.toNat + 16 ≤ 0xC000) :
    SameButUnit r ((List.range' s k).foldl (moveByte (writeWith trig)) t) ∧
      TransferFrame (r.ses.dma.src + BitVec.ofNat 16 s) (r.ses.dma.dst + BitVec.ofNat 16 s) k t.ses t.env
        ((List.range' s k).foldl (moveByte (writeWith trig)) t).ses
        ((List.range' s k).foldl (moveByte (writeWith trig)) t).env := by
  induction k generalizing s t with
  | zero => exact ⟨ht, .refl _ _ _ _⟩
  | succ k ih =>
    have hw := dst_window (d := t.ses.dma.dst) (by rw [ht.dma]; exact h1) (by rw [ht.dma]; exact h2) (i := s) (by omega)
    have hm := moveByte_frame (trig := trig) hw.1 hw.2
    have hb := moveByte_transfer (trig := trig) hw.1 hw.2
    obtain ⟨g1, g2⟩ := ih (s + 1) (by omega) (ht.trans hm)
    refine ⟨g1, ?_⟩
    rw [ht.dma] at hb
    rw [← add_ofNat_add, ← add_ofNat_add] at g2
    rw [List.range'_succ, List.foldl_cons, Nat.add_comm k 1]
    exact .trans hm.banks hb g2

/-- The sixteen bytes of a unit in reach. -/
theorem moveBytes_transfer (trig : Byte → Loaded → Loaded) {r : Loaded} (h1 : 0x8000 ≤ r.ses.dma.dst.toNat)
    (h2 : r.ses.dma.dst.toNat + 16 ≤ 0xC000) :
    TransferFrame r.ses.dma.src r.ses.dma.dst 16 r.ses r.env (moveBytes (writeWith trig) r).ses
      (moveBytes (writeWith trig) r).env := by
  have h := (moveRun_transfer trig 16 0 (by omega) (.refl r) h1 h2).2
  simp only [BitVec.add_zero] at h
  rw [← List.range_eq_range'] at h
  exact h

/-- Byte `i` of a unit in reach, at the end of the unit: no later byte is written over it. -/
theorem moveBytes_split (trig : Byte → Loaded → Loaded) {r : Loaded} (h1 : 0x8000 ≤ r.ses.dma.dst.toNat)
    (h2 : r.ses.dma.dst.toNat + 16 ≤ 0xC000) {i : Nat} (hi : i < 16) :
    SameButUnit r ((List.range i).foldl (moveByte (writeWith trig)) r) ∧
      SameBanks r.ses (moveByte (writeWith trig) ((List.range i).foldl (moveByte (writeWith trig)) r) i).ses ∧
      TransferFrame (r.ses.dma.src + BitVec.ofNat 16 (i + 1)) (r.ses.dma.dst + BitVec.ofNat 16 (i + 1)) (15 - i)
        (moveByte (writeWith trig) ((List.range i).foldl (moveByte (writeWith trig)) r) i).ses
        (moveByte (writeWith trig) ((List.range i).foldl (moveByte (writeWith trig)) r) i).env
        (moveBytes (writeWith trig) r).ses (moveBytes (writeWith trig) r).env := by
  have ha := (moveRun_transfer trig i 0 (by omega) (.refl r) h1 h2).1
  rw [← List.range_eq_range'] at ha
  have hw := dst_window (d := ((List.range i).foldl (moveByte (writeWith trig)) r).ses.dma.dst) (by rw [ha.dma]; exact h1)
    (by rw [ha.dma]; exact h2) hi
  have hb := ha.trans (moveByte_frame (trig := trig) hw.1 hw.2)
  refine ⟨ha, hb.banks, ?_⟩
  have hc := (moveRun_transfer trig (15 - i) (i + 1) (by omega) hb h1 h2).2
  have hl : List.range dmaUnit = List.range i ++ i :: List.range' (i + 1) (15 - i) := by
    have := List.range'_append_1 (s := 0) (m := i) (n := 15 - i + 1)
    rw [show i + (15 - i + 1) = 16 by omega, Nat.zero_add] at this
    rw [dmaUnit_eq, List.range_eq_range', List.range_eq_range', ← List.range'_succ, this]
  unfold moveBytes
  rw [hl, List.foldl_append, List.foldl_cons]
  exact hc

/-! ## Units -/

/-- The end of a unit with bytes left draws no free value. -/
theorem finishUnit_env {t : Loaded} (h : 16#12 ≤ t.ses.dma.remaining) : (finishUnit t).env = t.env := if_pos h

/-- The arrays, the clock and the port are no part of the DMA registers. -/
theorem TransferFrame.finishUnit {src dst : Addr} {n : Nat} {x : Session} {e : Env} {t : Loaded}
    (h : TransferFrame src dst n x e t.ses t.env) (h16 : 16#12 ≤ t.ses.dma.remaining) :
    TransferFrame src dst n x e (Machine.finishUnit t).ses (Machine.finishUnit t).env := by
  rw [finishUnit_env h16]
  exact ⟨h.vram, h.sram, h.sramStays, h.clockStays, h.arrays, h.port⟩

/-- One unit in reach. -/
theorem advanceOneUnit_transfer (trig : Byte → Loaded → Loaded) {r : Loaded} (hp : r.ses.dma.phase ≠ .idle)
    (hc : r.ses.dma.consistent) (h1 : 0x8000 ≤ r.ses.dma.dst.toNat) (h2 : r.ses.dma.dst.toNat + 16 ≤ 0xC000) :
    TransferFrame r.ses.dma.src r.ses.dma.dst 16 r.ses r.env (advanceOneUnit (writeWith trig) r).ses
      (advanceOneUnit (writeWith trig) r).env := by
  have h := moveBytes_transfer trig h1 h2
  have hd := (moveBytes_frame trig h1 h2).dma
  have h16 : 16#12 ≤ r.ses.dma.remaining := hc.sixteen_le hp
  rw [← hd] at h16
  rw [advanceOneUnit_active hp]
  exact h.finishUnit h16

/-- `k` units of a transfer in reach with at least `k` units left. -/
theorem runUnits_transfer (trig : Byte → Loaded → Loaded) (k : Nat) {r : Loaded} (hc : r.ses.dma.consistent)
    (hr : r.ses.dmaInReach) (hk : 16 * k ≤ r.ses.dma.remaining.toNat) :
    TransferFrame r.ses.dma.src r.ses.dma.dst (16 * k) r.ses r.env (runUnits (writeWith trig) k r).ses
      (runUnits (writeWith trig) k r).env := by
  induction k generalizing r with
  | zero => exact .refl _ _ _ _
  | succ k ih =>
    have hp := hc.active_of_pos (by omega)
    obtain ⟨hr1, hr2⟩ := hr hp
    have h16 := hc.sixteen_le hp
    obtain ⟨hc', hr', hn'⟩ := advanceOneUnit_keeps trig hp hc hr
    have ha := advanceOneUnit_transfer trig hp hc hr1 (by omega)
    have hb := ih hc' hr' (by omega)
    obtain ⟨vram, sram, live, last, calls, events, h⟩ := advanceOneUnit_spec trig hp hc hr1 (by omega)
    have hs : SameBanks r.ses (advanceOneUnit (writeWith trig) r).ses := by rw [h]; exact ⟨rfl, rfl, rfl⟩
    have e1 : (advanceOneUnit (writeWith trig) r).ses.dma.src = r.ses.dma.src + BitVec.ofNat 16 16 := by rw [h]
    have e2 : (advanceOneUnit (writeWith trig) r).ses.dma.dst = r.ses.dma.dst + BitVec.ofNat 16 16 := by rw [h]
    rw [e1, e2] at hb
    have := TransferFrame.trans hs ha hb
    rw [show 16 * (k + 1) = 16 + 16 * k by omega]
    exact this

/-- An immediate trigger write (44_dma.md R328). -/
theorem trigger_transfer (n : BitVec 7) (r : Loaded) :
    TransferFrame r.ses.dma.armSrc r.ses.dma.armDst (dmaLength n) r.ses r.env (trigger unitWrite 0#1 n r).ses
      (trigger unitWrite 0#1 n r).env := by
  have hrem := armFrom_remaining n r
  have h := runUnits_transfer (fun v r => armFrom (v.extractLsb' 0 7) r) (n.toNat + 1) (armFrom_consistent n r)
    (armFrom_inReach n r) (by omega)
  have e : trigger unitWrite 0#1 n r = runUnits unitWrite (n.toNat + 1) (armFrom n r) := if_neg (by decide)
  rw [e, dmaLength_eq, Nat.mul_comm]
  rw [armFrom_eq] at h ⊢
  exact ⟨h.vram, h.sram, h.sramStays, h.clockStays, h.arrays, h.port⟩

end Sys2Proof.Machine
end

