-- ==== Sys2Proof/Tests/Slice0.lean ====
section
/-! SUPPORT. Tests: the well-formedness checks, words of 95_test_vectors.md decoded, single steps with the outcomes that file
gives, and a witness for the hypotheses of every statement. -/

namespace Sys2Proof.Tests

open Sys2Proof.Machine

/-! ## Small states -/

/-- A session right after `LOAD` with empty arrays, of a family, with bank counts and motor. -/
def sess (f : Family) (rom ram : Nat) (rumble : Bool) : Session :=
  freshSession (mkDesc 1 (f, f == .C, rumble) rom ram) [] [] 0 0

/-- A session with its storage window enabled and a storage bank or selector chosen. -/
def enabled (x : Session) (sel : BitVec 4) : Session := { x with bank := { x.bank with ramEnable := true, ramBank := sel } }

/-- DMA registers with known staging bytes, pointers, length and phase. -/
def dmaRegs (srcHi srcLo dstHi dstLo : Byte) (src dst : Addr) (len : BitVec 12) (phase : Phase) : Dma :=
  ⟨srcHi, srcLo, dstHi, dstLo, src, dst, len, phase⟩

/-- A session with a transfer of `len` bytes armed. -/
def armed (x : Session) (src dst : Addr) (len : BitVec 12) : Session :=
  { x with dma := dmaRegs 0#8 0#8 0#8 0#8 src dst len .armed }

/-- The environment of the machine before any operation. -/
def env0 : Env := State.reset.env

/-- A session on its own. -/
def on (x : Session) : State := ⟨some x, env0⟩

/-- A session and one operation to come. -/
def issuing (x : Option Session) (w : OpWord) (p : SidePorts) : State :=
  ⟨x, { env0 with queue := [⟨w, p, 0⟩] }⟩

/-- What a step left in the session, seen through `g`. -/
def seen {α : Type} (g : Session → α) : Outcome → Option α
  | .next t => t.session.map g
  | .fault _ => none
  | .refused _ => none

/-- What a step answered. -/
def answered : Outcome → Option Result
  | .next t => some t.env.result
  | .fault _ => none
  | .refused _ => none

/-- A step has a next state. -/
def completes : Outcome → Bool
  | .next _ => true
  | .fault _ => false
  | .refused _ => false

/-! ## Well-formed instructions: one ill-formed term per check -/

theorem test_ill_formed_forwarded :
    Instr.wellFormed (.rdExt 0xFF55#16) = false ∧ Instr.wellFormed (.rdExt 0xFDFF#16) = false ∧
      Instr.wellFormed (.wrExt 0xFF4F#16 0#8) = false ∧ Instr.wellFormed (.wrExt 0x8000#16 0#8) = false := by decide

theorem test_ill_formed_echo :
    Instr.wellFormed (.rdEcho 0xDFFF#16) = false ∧ Instr.wellFormed (.wrEcho 0xFE00#16 0#8) = false := by decide

theorem test_ill_formed_control :
    Instr.wellFormed (.ctlNone 0x8000#16 0#8) = false ∧ Instr.wellFormed (.ctlEf 0xA000#16 0#8) = false ∧
      Instr.wellFormed (.ignB 0x3FFF#16 0#8) = false ∧ Instr.wellFormed (.ignD 0x5FFF#16 0#8) = false ∧
      Instr.wellFormed (.ignD 0x8000#16 0#8) = false := by decide

theorem test_ill_formed_selector :
    Instr.wellFormed (.ramselC 0x4#4) = false ∧ Instr.wellFormed (.ramselC 0xD#4) = false ∧
      Instr.wellFormed (.ramselCRsvd 0x3#4) = false ∧ Instr.wellFormed (.ramselCRsvd 0xC#4) = false := by decide

theorem test_well_formed :
    Instr.wellFormed (.rdExt 0xFFFF#16) = true ∧ Instr.wellFormed (.rdEcho 0xFDFF#16) = true ∧
      Instr.wellFormed (.ramselC 0xC#4) = true ∧ Instr.wellFormed (.ramselCRsvd 0x7#4) = true ∧
      Instr.wellFormed (.ignB 0x4000#16 0#8) = true := by decide

/-! ## Words (30_encoding.md R111, R114, R117; 95_test_vectors.md): op, address, data written out -/

theorem test_decode_block_registers :
    decode standingCtx 0x0FF4F00#27 = .rdVbk ∧ decode standingCtx 0x0FF5100#27 = .rdDmaSrcHi ∧
      decode standingCtx 0x0FF5200#27 = .rdDmaSrcLo ∧ decode standingCtx 0x0FF5300#27 = .rdDmaDstHi ∧
      decode standingCtx 0x0FF5400#27 = .rdDmaDstLo ∧ decode standingCtx 0x0FF5500#27 = .rdDmaCtrl ∧
      decode standingCtx 0x0FF7000#27 = .rdSvbk ∧ decode standingCtx 0x1FF4F01#27 = .wrVbk 0x01#8 ∧
      decode standingCtx 0x1FF51C0#27 = .wrDmaSrcHi 0xC0#8 ∧ decode standingCtx 0x1FF5207#27 = .wrDmaSrcLo 0x07#8 ∧
      decode standingCtx 0x1FF5301#27 = .wrDmaDstHi 0x01#8 ∧ decode standingCtx 0x1FF542F#27 = .wrDmaDstLo 0x2F#8 ∧
      decode standingCtx 0x1FF5582#27 = .wrDmaCtrl 1#1 2#7 ∧ decode standingCtx 0x1FF700A#27 = .wrSvbk 0x0A#8 := by decide

theorem test_decode_windows :
    decode standingCtx 0x0FE0000#27 = .rdExt 0xFE00#16 ∧ decode standingCtx 0x0FDFF00#27 = .rdEcho 0xFDFF#16 ∧
      decode standingCtx 0x0DFFF00#27 = .rdWramx 0xFFF#12 ∧ decode standingCtx 0x0C00100#27 = .rdWram0 0x001#12 ∧
      decode standingCtx 0x0800100#27 = .rdVram 0x0001#13 ∧ decode standingCtx 0x07FFF00#27 = .rdRomx 0x3FFF#14 ∧
      decode standingCtx 0x0200000#27 = .rdRom0 0x2000#14 ∧ decode standingCtx 0x1FFFF1F#27 = .wrExt 0xFFFF#16 0x1F#8 ∧
      decode standingCtx 0x1E00099#27 = .wrEcho 0xE000#16 0x99#8 ∧ decode standingCtx 0x1DFFF44#27 = .wrWramx 0xFFF#12 0x44#8 ∧
      decode standingCtx 0x1C00011#27 = .wrWram0 0x000#12 0x11#8 ∧ decode standingCtx 0x18000AA#27 = .wrVram 0x0000#13 0xAA#8 := by
  decide

theorem test_decode_storage :
    decode { standingCtx with ramBanks := 4 } 0x0A12300#27 = .rdSramOff 0x123#13 ∧
      decode { standingCtx with family := .C, ramEnable := true, ramBank := 8#4 } 0x0A12300#27 = .rdSramRtc 0x123#13 ∧
      decode { standingCtx with ramEnable := true } 0x0A12300#27 = .rdSramNone 0x123#13 ∧
      decode { standingCtx with ramBanks := 4, ramEnable := true, ramBank := 8#4 } 0x0BFFF00#27 = .rdSramBank 0x1FFF#13 ∧
      decode { standingCtx with ramBanks := 4 } 0x1A1235A#27 = .wrSramOff 0x123#13 0x5A#8 ∧
      decode { standingCtx with family := .C, ramEnable := true, ramBank := 12#4 } 0x1A00040#27 = .wrSramRtc 0#13 0x40#8 ∧
      decode { standingCtx with ramEnable := true } 0x1A00012#27 = .wrSramNone 0#13 0x12#8 ∧
      decode { standingCtx with ramBanks := 4, ramEnable := true } 0x1BFFF12#27 = .wrSramBank 0x1FFF#13 0x12#8 := by decide

theorem test_decode_control_none_e_f :
    decode { standingCtx with family := .NONE } 0x1200005#27 = .ctlNone 0x2000#16 0x05#8 ∧
      decode { standingCtx with family := .E } 0x1200005#27 = .ctlEf 0x2000#16 0x05#8 ∧
      decode { standingCtx with family := .F } 0x17FFF01#27 = .ctlEf 0x7FFF#16 0x01#8 := by decide

theorem test_decode_control_a :
    decode { standingCtx with family := .A } 0x112343A#27 = .ramen 0xA#4 ∧
      decode { standingCtx with family := .A } 0x12000E5#27 = .romloA 0x05#5 ∧
      decode { standingCtx with family := .A } 0x14000FF#27 = .upperARom 0x3#2 ∧
      decode { standingCtx with family := .A, mode := true } 0x1400003#27 = .upperARam 0x3#2 ∧
      decode { standingCtx with family := .A } 0x16000FE#27 = .modeA 0#1 ∧
      decode { standingCtx with family := .A } 0x1600001#27 = .modeA 1#1 := by decide

theorem test_decode_control_b :
    decode { standingCtx with family := .B } 0x101001A#27 = .ramen 0xA#4 ∧
      decode { standingCtx with family := .B } 0x13FFF07#27 = .rombB 0x7#4 ∧
      decode { standingCtx with family := .B } 0x1400003#27 = .ignB 0x4000#16 0x03#8 ∧
      decode { standingCtx with family := .B } 0x1600001#27 = .ignB 0x6000#16 0x01#8 := by decide

theorem test_decode_control_c :
    decode { standingCtx with family := .C } 0x1200080#27 = .rombC 0x00#7 ∧
      decode { standingCtx with family := .C } 0x14000F8#27 = .ramselC 0x8#4 ∧
      decode { standingCtx with family := .C } 0x1400005#27 = .ramselCRsvd 0x5#4 ∧
      decode { standingCtx with family := .C } 0x140000D#27 = .ramselCRsvd 0xD#4 ∧
      decode { standingCtx with family := .C } 0x1600081#27 = .latchC 0x81#8 := by decide

theorem test_decode_control_d :
    decode standingCtx 0x12FFFFF#27 = .romloD 0xFF#8 ∧ decode standingCtx 0x13000FE#27 = .romhiD 0#1 ∧
      decode standingCtx 0x1300001#27 = .romhiD 1#1 ∧ decode standingCtx 0x140001F#27 = .rambD 0xF#4 ∧
      decode { standingCtx with hasRumble := true } 0x1400007#27 = .rambDRumble 0#1 0x7#3 ∧
      decode { standingCtx with hasRumble := true } 0x1400008#27 = .rambDRumble 1#1 0x0#3 ∧
      decode standingCtx 0x1600001#27 = .ignD 0x6000#16 0x01#8 := by decide

theorem test_decode_events :
    decode standingCtx 0x2000000#27 = .hb ∧ decode standingCtx 0x3000000#27 = .tick ∧ decode standingCtx 0x4000000#27 = .load ∧
      decode standingCtx 0x5000000#27 = .reset ∧ decode standingCtx 0x6000000#27 = .save ∧
      decode standingCtx 0x7000000#27 = .restore := by decide

theorem test_decode_rejects :
    decodeIn none 0x0000000#27 = .error .unloaded ∧ decodeIn none 0x4000000#27 = .ok .load ∧
      decodeBits (some standingCtx) (2 ^ 27) = .error .notAnOperationWord := by decide

theorem test_decode_table_word :
    decodeTableWord 27 0x1FF5582 = some (.wrDmaCtrl 1#1 2#7) ∧ decodeTableWord 27 0x7000000 = some .restore := by decide

/-- An operation word placed before reset's first step runs at once. -/
theorem test_placed_word_runs :
    answered (step (State.reset.withFetchWord 27 0x0A00000)) = some (.data 0xFF#8) ∧
      seen (fun y => y.bank.romBank) (step (State.reset.withFetchWord 27 0x12000E5)) = some 0x0E5#9 ∧
      answered (step (State.reset.withFetchWord 27 0x4000000)) = some (.loadOk true) := by decide

/-- 70_reset_and_hazards.md R442: a `RESET` placed before reset's first step draws under another number than the session it
was placed in. -/
theorem test_placed_reset_draws_anew :
    (State.reset.withFetchWord 27 0x5000000).session.map Session.drawn = some 0 ∧
      seen Session.drawn (step (State.reset.withFetchWord 27 0x5000000)) = some 1 := by decide

/-! ## Single steps with the outcomes of 95_test_vectors.md -/

/-- §2.2 rows 3, 5, 6, 8, 13: family `A`'s index fields. -/
theorem test_family_a_index :
    seen (fun y => y.bank.romBank) (exec (.romloA 0#5) (on (sess .A 128 4 false))) = some 0x01#9 ∧
      seen (fun y => y.bank.romBank)
        (exec (.romloA 0#5) (on { sess .A 128 4 false with bank := { freshBank with romBank := 0x3F#9 } })) = some 0x20#9 ∧
      seen (fun y => y.bank.romBank)
        (exec (.upperARom 0#2) (on { sess .A 128 4 false with bank := { freshBank with romBank := 0x20#9 } })) = some 0x01#9 ∧
      seen (fun y => y.bank.romBank)
        (exec (.upperARom 3#2) (on { sess .A 128 4 false with bank := { freshBank with romBank := 0x05#9 } })) =
        some 0x65#9 := by decide

/-- §2.2 row 6, the other scope: under `field` the stored index is 0x21. -/
theorem test_family_a_field_scope :
    seen (fun y => y.bank.romBank)
      (exec (.romloA 0#5)
        ⟨some { sess .A 128 4 false with bank := { freshBank with romBank := 0x3F#9 } },
          { env0 with par := { Params.default with zeroFixScope := .field } }⟩) = some 0x21#9 := by decide

/-- §2.2 rows 9, 10, 15, 16. -/
theorem test_family_a_mode_and_enable :
    seen (fun y => y.bank.mode) (exec (.modeA 1#1) (on (sess .A 128 4 false))) = some true ∧
      seen (fun y => (y.bank.ramBank, y.bank.romBank))
        (exec (.upperARam 3#2) (on { sess .A 128 4 false with bank := { freshBank with mode := true } })) =
        some (3#4, 1#9) ∧
      seen (fun y => y.bank.ramEnable) (exec (.ramen 0xA#4) (on (sess .A 128 4 false))) = some true ∧
      seen (fun y => y.bank.ramEnable) (exec (.ramen 0x0#4) (on (enabled (sess .A 128 4 false) 0#4))) = some false := by decide

/-- §2.3. -/
theorem test_family_b_index :
    seen (fun y => y.bank.romBank) (exec (.rombB 0#4) (on (sess .B 16 1 false))) = some 1#9 ∧
      seen (fun y => y.bank.romBank) (exec (.rombB 15#4) (on (sess .B 16 1 false))) = some 15#9 := by decide

/-- §2.4. -/
theorem test_family_c_index_and_selector :
    seen (fun y => y.bank.romBank) (exec (.rombC 0#7) (on (sess .C 64 4 false))) = some 1#9 ∧
      seen (fun y => y.bank.ramBank) (exec (.ramselC 0xC#4) (on (sess .C 64 4 false))) = some 0xC#4 ∧
      seen (fun y => y.bank.ramBank) (exec (.ramselCRsvd 0xD#4) (on (enabled (sess .C 64 4 false) 3#4))) = some 3#4 := by decide

/-- S4: a single 0x01 captures nothing, 0x00 then 0x01 captures, 0x81 disarms. -/
theorem test_latch :
    seen (fun y => (y.snap.S, y.bank.latchArmed))
        (exec (.latchC 0x01#8) (on { sess .C 2 1 false with live := { zeroClock with S := 10#8 } })) = some (0#8, false) ∧
      seen (fun y => (y.snap.S, y.bank.latchArmed))
        (exec (.latchC 0x01#8) (on { sess .C 2 1 false with
          live := { zeroClock with S := 10#8 }, bank := { freshBank with latchArmed := true } })) = some (10#8, false) ∧
      seen (fun y => (y.snap.S, y.bank.latchArmed))
        (exec (.latchC 0x81#8) (on { sess .C 2 1 false with
          live := { zeroClock with S := 10#8 }, bank := { freshBank with latchArmed := true } })) = some (0#8, false) := by decide

/-- §2.5. -/
theorem test_family_d_index :
    seen (fun y => y.bank.romBank) (exec (.romloD 0#8) (on (sess .D 512 16 false))) = some 0#9 ∧
      seen (fun y => y.bank.romBank)
        (exec (.romhiD 0#1) (on { sess .D 512 16 false with bank := { freshBank with romBank := 0x1FF#9 } })) = some 0x0FF#9 ∧
      seen (fun y => y.bank.ramBank) (exec (.rambD 15#4) (on (sess .D 512 16 false))) = some 15#4 := by decide

/-- §2.5, motor cartridge: `WR 4000 0F` then `WR 4000 07`; each change of the level is recorded. -/
theorem test_motor :
    seen (fun y => (y.bank.motor, y.bank.ramBank)) (exec (.rambDRumble 1#1 7#3) (on (sess .D 512 16 true))) =
        some (true, 7#4) ∧
      (match exec (.rambDRumble 1#1 7#3) (on (sess .D 512 16 true)) with
        | .next t => t.env.events
        | .fault _ => []
        | .refused _ => []) = [.motor true] := by decide

/-- §2.6: families `NONE` and `E`. -/
theorem test_family_none_and_e :
    seen (fun y => y.bank.romBank) (exec (.ctlNone 0x2000#16 5#8) (on (sess .NONE 2 1 false))) = some 1#9 ∧
      seen (fun y => (y.refused, y.bank.romBank)) (exec (.ctlEf 0x2000#16 5#8) (on (sess .E 2 0 false))) =
        some (true, 1#9) := by decide

/-- §2.7 row 6: day 511, 23:59:59 and one second is day 0 with the carry. -/
theorem test_tick_carries :
    seen (fun y => (y.live, y.lastSync))
      (exec .tick ⟨some { sess .C 2 1 false with live := { S := 59#8, M := 59#8, H := 23#8, DL := 255#8, DH := 1#8 } },
        { env0 with ports := { SidePorts.idle with delta := 1 } }⟩) =
      some ({ S := 0#8, M := 0#8, H := 0#8, DL := 0#8, DH := 0x80#8 }, 1) := by decide

/-- S7: halted, no second passes and `lastSync` stays; §2.7, backwards time. -/
theorem test_tick_halted_and_backwards :
    seen (fun y => (y.live.S, y.lastSync))
        (exec .tick ⟨some { sess .C 2 1 false with live := { zeroClock with DH := 0x40#8 } },
          { env0 with ports := { SidePorts.idle with delta := 10 } }⟩) = some (0#8, 0) ∧
      seen (fun y => (y.live.S, y.lastSync))
        (exec .tick ⟨some { sess .C 2 1 false with lastSync := 500 }, { env0 with hostNow := 200 }⟩) = some (0#8, 200) := by
  decide

/-- §2.7 rows 9 and 14, and the write under `HOST_TIME_SILENT_ADVANCE`: `S` 50 at 100, written 0 at 120. -/
theorem test_clock_write :
    seen (fun y => y.live.S) (exec (.wrSramRtc 0#13 0xFF#8) (on (enabled (sess .C 2 1 false) 8#4))) = some 63#8 ∧
      seen (fun y => (y.live.DH, y.lastSync))
        (exec (.wrSramRtc 0#13 0x3E#8)
          ⟨some { enabled (sess .C 2 1 false) 12#4 with live := { zeroClock with DH := 0xC1#8 } },
            { env0 with hostNow := 7 }⟩) = some (0#8, 7) ∧
      seen (fun y => (y.live.S, y.live.M, y.lastSync))
        (exec (.wrSramRtc 0#13 0#8)
          ⟨some { enabled (sess .C 2 1 false) 8#4 with live := { zeroClock with S := 50#8 }, lastSync := 100 },
            { env0 with hostNow := 120 }⟩) = some (0#8, 1#8, 120) := by decide

/-- S4: a read of the clock serves the snapshot after synchronising. -/
theorem test_clock_read :
    answered (exec (.rdSramRtc 0x1FF#13)
        ⟨some { enabled (sess .C 2 1 false) 8#4 with snap := { zeroClock with S := 10#8 } }, { env0 with hostNow := 5 }⟩) =
        some (.data 0x0A#8) ∧
      seen (fun y => y.live.S) (exec (.rdSramRtc 0#13)
        ⟨some { enabled (sess .C 2 1 false) 8#4 with snap := { zeroClock with S := 10#8 } }, { env0 with hostNow := 5 }⟩) =
        some 5#8 := by decide

/-- S2, S6: the read-only bank wraps; a disabled storage window reads 0xFF, an enabled one its byte. -/
theorem test_reads :
    answered (exec (.rdRomx 0#14) (on { sess .D 8 0 false with
        rom := [(3 * 16384, 0xB3#8)], bank := { freshBank with romBank := 11#9 } })) = some (.data 0xB3#8) ∧
      answered (exec (.rdRom0 0x2000#14) (on { sess .D 8 0 false with rom := [(0x2000, 0xB0#8)] })) = some (.data 0xB0#8) ∧
      answered (exec (.rdSramOff 0#13) (on { sess .A 2 4 false with sram := [(0x4000, 0x77#8)] })) = some (.data 0xFF#8) ∧
      answered (exec (.rdSramBank 0#13) (on { enabled (sess .A 2 4 false) 2#4 with sram := [(0x4000, 0x77#8)] })) =
        some (.data 0x77#8) ∧
      answered (exec (.rdSramNone 0#13) (on (enabled (sess .A 2 0 false) 0#4))) = some (.data 0xFF#8) := by decide

/-- §2.8: the bank-select registers and the stores through them. -/
theorem test_bank_selects :
    seen (fun y => y.wramBank) (exec (.wrSvbk 0x00#8) (on (sess .A 2 0 false))) = some 1#3 ∧
      seen (fun y => y.wramBank) (exec (.wrSvbk 0x0A#8) (on (sess .A 2 0 false))) = some 2#3 ∧
      seen (fun y => y.vramBank) (exec (.wrVbk 0x01#8) (on (sess .A 2 0 false))) = some 1#1 ∧
      seen (fun y => y.wram) (exec (.wrWramx 0xFFF#12 0x44#8) (on { sess .A 2 0 false with wramBank := 2#3 })) =
        some [(0x2FFF, 0x44#8)] ∧
      seen (fun y => y.vram) (exec (.wrVram 0#13 0xAA#8) (on { sess .A 2 0 false with vramBank := 1#1 })) =
        some [(0x2000, 0xAA#8)] := by decide

/-- §2.8: the echo, and storage bank 3 of one. -/
theorem test_stores :
    seen (fun y => y.wram) (exec (.wrEcho 0xE000#16 0x99#8) (on (sess .A 2 0 false))) = some [(0, 0x99#8)] ∧
      seen (fun y => y.wram) (exec (.wrEcho 0xF123#16 0x55#8) (on (sess .A 2 0 false))) = some [(0x1123, 0x55#8)] ∧
      answered (exec (.rdEcho 0xFDFF#16) (on { sess .A 2 0 false with wram := [(0x1DFF, 0x66#8)] })) = some (.data 0x66#8) ∧
      seen (fun y => y.wram) (exec (.wrWram0 0#12 0x11#8) (on (sess .E 2 0 false))) = some [(0, 0x11#8)] ∧
      seen (fun y => y.sram) (exec (.wrSramBank 0x1FFF#13 0x12#8) (on (enabled (sess .A 2 1 false) 3#4))) =
        some [(0x1FFF, 0x12#8)] := by decide

/-- §2.9: arming from 12 34, FF FF, and from 40 07, 01 2F (P3 line 6). -/
theorem test_arming :
    seen (fun y => (y.dma.src, y.dma.dst, y.dma.remaining, y.dma.phase))
        (exec (.wrDmaCtrl 1#1 0#7) (on { sess .C 4 0 false with
          dma := dmaRegs 0x12#8 0x34#8 0xFF#8 0xFF#8 0#16 0#16 0#12 .idle })) = some (0x1230#16, 0x9FF0#16, 16#12, .armed) ∧
      seen (fun y => (y.dma.src, y.dma.dst, y.dma.remaining, y.dma.phase))
        (exec (.wrDmaCtrl 1#1 2#7) (on { sess .C 4 0 false with
          dma := dmaRegs 0x40#8 0x07#8 0x01#8 0x2F#8 0#16 0#16 0#12 .idle })) = some (0x4000#16, 0x8120#16, 48#12, .armed) := by decide

/-- §2.9: the status byte of 128 units, of one, and of none. -/
theorem test_dma_status :
    answered (exec .rdDmaCtrl (on (armed (sess .C 4 0 false) 0#16 0x8000#16 2048#12))) = some (.data 0x7F#8) ∧
      answered (exec .rdDmaCtrl (on (armed (sess .C 4 0 false) 0#16 0x8000#16 16#12))) = some (.data 0x00#8) ∧
      answered (exec .rdDmaCtrl (on (sess .C 4 0 false))) = some (.data 0xFF#8) := by decide

/-- P3 line 8, with the bytes 0x4000 and 0x400F told apart. -/
theorem test_horizontal_blank_unit :
    seen (fun y => (y.dma.src, y.dma.dst, y.dma.remaining, y.dma.phase, y.vramByte 0x0120, y.vramByte 0x012F))
      (exec .hb (on (armed { sess .C 4 0 false with rom := [(0x4000, 0xB1#8), (0x400F, 0xB2#8)] } 0x4000#16 0x8120#16 48#12))) =
      some (0x4010#16, 0x8130#16, 32#12, .transferring, 0xB1#8, 0xB2#8) := by decide +kernel

/-- S5: one unit more to go, none to go, and `HB` while idle. -/
theorem test_horizontal_blank_pending :
    answered (exec .hb (on (armed (sess .C 4 0 false) 0x4000#16 0x8010#16 32#12))) = some (.pending true) ∧
      answered (exec .hb (on (armed (sess .C 4 0 false) 0x4000#16 0x8010#16 16#12))) = some (.pending false) ∧
      answered (exec .hb (on (sess .C 4 0 false))) = some (.pending false) := by decide +kernel

/-- P4 lines 4 to 11: one immediate unit from storage bank 1 to video memory. -/
theorem test_immediate :
    seen (fun y => (y.vramByte 0, y.vramByte 1, y.dma.src, y.dma.dst, y.dma.phase))
      (exec (.wrDmaCtrl 0#1 0#7) (on { enabled (sess .D 2 4 true) 1#4 with
        sram := [(0x2000, 0xC3#8)]
        dma := dmaRegs 0xA0#8 0#8 0#8 0#8 0#16 0#16 0#12 .idle })) = some (0xC3#8, 0x00#8, 0xA010#16, 0x8010#16, .idle) := by decide +kernel

/-- §2.1: descriptors and malformed headers. -/
theorem test_descriptors :
    describe 1 0x13#8 5#8 3#8 = some ⟨.C, 64, 4, false, false, 0, true⟩ ∧
      describe 1 0x0F#8 0#8 0#8 = some ⟨.C, 2, 0, true, false, 0, false⟩ ∧
      describe 1 0x05#8 0#8 5#8 = some ⟨.B, 2, 1, false, false, 0, true⟩ ∧
      describe 1 0x1E#8 8#8 4#8 = some ⟨.D, 512, 16, false, true, 1, true⟩ ∧
      describe 1 0x04#8 0#8 0#8 = none ∧ describe 1 0x01#8 9#8 0#8 = none ∧ describe 1 0x05#8 0#8 6#8 = none := by decide

/-- §2.1, a failed `LOAD` unloads. -/
theorem test_load_malformed :
    exec .load ⟨some (sess .C 64 4 false), { env0 with ports := { SidePorts.idle with typeByte := 4#8 } }⟩ =
      .next ⟨none, { env0 with ports := { SidePorts.idle with typeByte := 4#8 }, result := .loadOk false }⟩ := rfl

/-- §2.10: `RESET` keeps storage and clock, and drops the enable. -/
theorem test_reset :
    seen (fun y => (y.bank, y.sram, y.live.S, y.vramBank, y.wramBank))
      (exec .reset (on { enabled (sess .A 2 1 false) 0#4 with
        sram := [(0, 0x77#8)], live := { zeroClock with S := 40#8 }, vramBank := 1#1 })) =
      some (freshBank, [(0, 0x77#8)], 40#8, 0#1, 1#3) := by decide

/-- The session of P4 at line 12, as far as its record goes. -/
def p4 : Session :=
  { sess .D 2 4 true with
    bank := { freshBank with ramEnable := true, motor := true, ramBank := 1#4 }
    dma := dmaRegs 0xA0#8 0#8 0#8 0#8 0xA010#16 0x8010#16 0#12 .idle }

/-- The record of P4. -/
def p4Record : List Byte :=
  [0x47#8, 0x59#8, 0x01#8, 0x01#8, 0x00#8, 0x01#8, 0x0A#8, 0x01#8, 0#8, 0#8, 0#8, 0#8, 0#8, 0#8, 0#8, 0#8, 0#8, 0#8] ++
    [0#8, 0#8, 0#8, 0#8, 0#8, 0#8, 0#8, 0#8, 0xA0#8, 0#8, 0#8, 0#8, 0x10#8, 0xA0#8, 0x10#8, 0x80#8, 0#8, 0#8, 0#8]

theorem test_save : answered (exec .save (on p4)) = some (.record p4Record) := by decide

/-- The ports of `RESTORE`. -/
def restoring (b : List Byte) (track : Bool) (now : Nat) : Env :=
  { env0 with hostNow := now, ports := { SidePorts.idle with record := b, trackRealTime := track } }

/-- P4 lines 16 and 17, and §2.10's bad records. -/
theorem test_restore :
    seen (fun y => (y.bank, y.dma)) (exec .restore ⟨some (sess .D 2 4 true), restoring p4Record false 0⟩) =
        some (p4.bank, p4.dma) ∧
      answered (exec .restore ⟨some p4, restoring (p4Record.set 0 0#8) false 0⟩) = some (.restoreOk false) ∧
      answered (exec .restore ⟨some p4, restoring (p4Record.set 36 1#8) false 0⟩) = some (.restoreOk false) ∧
      answered (exec .restore ⟨some p4, restoring (p4Record.take 36) false 0⟩) = some (.restoreOk false) ∧
      seen (fun y => y.wramBank) (exec .restore ⟨some p4, restoring (p4Record.set 7 0#8) false 0⟩) = some 1#3 := by decide

/-- §2.10: `RESTORE r 1` at 130 and at 50, `RESTORE r 0` at 130, of a record with `lastSync` 100 and `S` 5. -/
theorem test_restore_time :
    seen (fun y => (y.live.S, y.lastSync))
        (exec .restore ⟨some p4, restoring ((p4Record.set 18 100#8).set 8 5#8) true 130⟩) = some (35#8, 130) ∧
      seen (fun y => (y.live.S, y.lastSync))
        (exec .restore ⟨some p4, restoring ((p4Record.set 18 100#8).set 8 5#8) false 130⟩) = some (5#8, 130) ∧
      seen (fun y => (y.live.S, y.lastSync))
        (exec .restore ⟨some p4, restoring ((p4Record.set 18 100#8).set 8 5#8) true 50⟩) = some (5#8, 50) := by decide

/-- §2.10: any operation but `LOAD` while `Unloaded` is refused. -/
theorem test_unloaded : step (issuing none 0x0000000#27 SidePorts.idle) = .refused .unloaded := rfl

/-! ## Witnesses: concrete states and operands that meet the hypotheses of each statement -/

theorem witness_EchoWindowReadsWorkMemory :
    [0xE000#16, 0xEFFF#16, 0xF000#16, 0xFDFF#16].all (fun a => decide (0xE000 ≤ a.toNat ∧ a.toNat < 0xFE00)) = true := by decide

theorem witness_EchoWindowStoresWorkMemory :
    [0xE000#16, 0xEFFF#16, 0xF000#16, 0xFDFF#16].all (fun a => decide (0xE000 ≤ a.toNat ∧ a.toNat < 0xFE00)) = true := by decide

theorem witness_DeadStorageWindow :
    (sess .A 2 4 false).bank.ramEnable = false ∧
      ((enabled (sess .C 2 0 false) 7#4).bank.ramEnable = true ∧ (enabled (sess .C 2 0 false) 7#4).isRtcSel = false ∧
        (enabled (sess .C 2 0 false) 7#4).desc.ramBanks = 0) := by decide

theorem witness_StorageBankRead :
    (enabled (sess .C 2 4 false) 13#4).bank.ramEnable = true ∧ (enabled (sess .C 2 4 false) 13#4).isRtcSel = false ∧
      0 < (enabled (sess .C 2 4 false) 13#4).desc.ramBanks := by decide

theorem witness_StorageBankStore :
    (enabled (sess .D 2 1 false) 8#4).bank.ramEnable = true ∧ (enabled (sess .D 2 1 false) 8#4).isRtcSel = false ∧
      0 < (enabled (sess .D 2 1 false) 8#4).desc.ramBanks ∧ (enabled (sess .D 2 1 false) 8#4).arraysOk := by decide

theorem witness_ClockReadSynchronisesAndServesSnapshot :
    ∀ sel ∈ [8#4, 12#4], (enabled (sess .C 2 0 false) sel).bank.ramEnable = true ∧
      (enabled (sess .C 2 0 false) sel).desc.family = .C ∧ 8 ≤ (enabled (sess .C 2 0 false) sel).bank.ramBank.toNat ∧
      (enabled (sess .C 2 0 false) sel).bank.ramBank.toNat ≤ 12 := by decide

theorem witness_ClockWriteSynchronisesAndStores :
    ∀ sel ∈ [8#4, 12#4], (enabled (sess .C 2 0 false) sel).bank.ramEnable = true ∧
      (enabled (sess .C 2 0 false) sel).desc.family = .C ∧ 8 ≤ (enabled (sess .C 2 0 false) sel).bank.ramBank.toNat ∧
      (enabled (sess .C 2 0 false) sel).bank.ramBank.toNat ≤ 12 ∧
      zeroClock = (if (enabled (sess .C 2 0 false) sel).live.halt = true ∨
          env0.hostNow ≤ (enabled (sess .C 2 0 false) sel).lastSync then (enabled (sess .C 2 0 false) sel).live
        else advance (enabled (sess .C 2 0 false) sel).live (env0.hostNow - (enabled (sess .C 2 0 false) sel).lastSync)) ∧
      0 = (if (enabled (sess .C 2 0 false) sel).live.halt = true then (enabled (sess .C 2 0 false) sel).lastSync
        else env0.hostNow) := by decide

theorem witness_ForwardedReadsAnswerTheOracle :
    [0xFE00#16, 0xFF4E#16, 0xFF50#16, 0xFF56#16, 0xFF71#16, 0xFFFF#16].all (fun a => decide (0xFE00 ≤ a.toNat ∧
      a.toNat ∉ [0xFF4F, 0xFF51, 0xFF52, 0xFF53, 0xFF54, 0xFF55, 0xFF70])) = true := by decide

theorem witness_ForwardedWrites :
    [0xFE00#16, 0xFF4E#16, 0xFF50#16, 0xFF56#16, 0xFF71#16, 0xFFFF#16].all (fun a => decide (0xFE00 ≤ a.toNat ∧
      a.toNat ∉ [0xFF4F, 0xFF51, 0xFF52, 0xFF53, 0xFF54, 0xFF55, 0xFF70])) = true := by decide

/-- The two clauses, the second with one unit left at the end of the reach and with 128 left at its start. -/
theorem witness_HorizontalBlankMovesOneUnit :
    (sess .A 2 0 false).dma.phase = .idle ∧
      ((armed (sess .A 2 0 false) 0#16 0xA7E0#16 16#12).dma.phase ≠ .idle ∧
        (armed (sess .A 2 0 false) 0#16 0xA7E0#16 16#12).dma.consistent ∧
        (armed (sess .A 2 0 false) 0#16 0xA7E0#16 16#12).dmaInReach) ∧
      ((armed (sess .A 2 0 false) 0#16 0x8000#16 2048#12).dma.phase ≠ .idle ∧
        (armed (sess .A 2 0 false) 0#16 0x8000#16 2048#12).dma.consistent ∧
        (armed (sess .A 2 0 false) 0#16 0x8000#16 2048#12).dmaInReach) := by decide

/-- A unit that crosses from video memory into an enabled storage bank: its bytes 7 and 8 on either side of the border. -/
theorem witness_HorizontalBlankMovesOneUnit_storage :
    (armed (enabled (sess .A 2 1 false) 0#4) 0#16 0x9FF8#16 16#12).dma.phase ≠ .idle ∧
      (armed (enabled (sess .A 2 1 false) 0#4) 0#16 0x9FF8#16 16#12).dma.consistent ∧
      (armed (enabled (sess .A 2 1 false) 0#4) 0#16 0x9FF8#16 16#12).dmaInReach ∧
      (0x9FF8#16 + BitVec.ofNat 16 7).toNat < 0xA000 ∧ inStorageWindow (0x9FF8#16 + BitVec.ofNat 16 8) ∧
      (enabled (sess .A 2 1 false) 0#4).bank.ramEnable = true ∧ (enabled (sess .A 2 1 false) 0#4).isRtcSel = false ∧
      0 < (enabled (sess .A 2 1 false) 0#4).desc.ramBanks ∧ (enabled (sess .A 2 1 false) 0#4).arraysOk := by decide

/-- No transfer, and a transfer with its last unit left. -/
theorem witness_DmaRegisterReads :
    (sess .A 2 0 false).dma.phase = .idle ∧ (armed (sess .A 2 0 false) 0#16 0x8000#16 16#12).dma.phase ≠ .idle ∧
      16 ≤ (armed (sess .A 2 0 false) 0#16 0x8000#16 16#12).dma.remaining.toNat := by decide

/-- Sources at the ends of both ranges, destinations at the ends of theirs. -/
theorem witness_UnitCopiesSixteenBytes :
    [(0x0000#16, 0x8000#16), (0x7FF0#16, 0x9FF0#16), (0xC000#16, 0x8000#16), (0xFDF0#16, 0x9FF0#16)].all (fun p =>
      decide ((armed (sess .A 2 0 false) p.1 p.2 16#12).dma.phase ≠ .idle ∧
        (armed (sess .A 2 0 false) p.1 p.2 16#12).dma.consistent ∧
        ((armed (sess .A 2 0 false) p.1 p.2 16#12).dma.src.toNat + 16 ≤ 0x8000 ∨
          (0xC000 ≤ (armed (sess .A 2 0 false) p.1 p.2 16#12).dma.src.toNat ∧
            (armed (sess .A 2 0 false) p.1 p.2 16#12).dma.src.toNat + 16 ≤ 0xFE00)) ∧
        0x8000 ≤ (armed (sess .A 2 0 false) p.1 p.2 16#12).dma.dst.toNat ∧
        (armed (sess .A 2 0 false) p.1 p.2 16#12).dma.dst.toNat + 16 ≤ 0xA000)) = true := by decide

theorem witness_PacedTransferEndsAfterItsUnits :
    ∀ j ∈ [0, 1, 2], (armed (sess .A 2 0 false) 0#16 0x9FF0#16 32#12).dma.phase ≠ .idle ∧
      (armed (sess .A 2 0 false) 0#16 0x9FF0#16 32#12).dma.consistent ∧
      (armed (sess .A 2 0 false) 0#16 0x9FF0#16 32#12).dmaInReach ∧
      j ≤ (armed (sess .A 2 0 false) 0#16 0x9FF0#16 32#12).dma.remaining.toNat / 16 := by decide

theorem witness_IgnoredControlWritesChangeNothing :
    ((sess .NONE 2 0 false).desc.family = .NONE ∧ (0x7FFF#16).toNat < 0x8000) ∧
      ((sess .B 2 1 false).desc.family = .B ∧ 0x4000 ≤ (0x4000#16).toNat ∧ (0x4000#16).toNat < 0x8000) ∧
      (∀ sel ∈ [4#4, 7#4, 13#4, 15#4], (sess .C 2 0 false).desc.family = .C ∧
        ((4 ≤ sel.toNat ∧ sel.toNat ≤ 7) ∨ 13 ≤ sel.toNat)) ∧
      ((sess .D 2 0 false).desc.family = .D ∧ 0x6000 ≤ (0x6000#16).toNat ∧ (0x6000#16).toNat < 0x8000) := by decide

theorem witness_UnspecifiedFamiliesMarkTheSession :
    ((sess .E 2 0 false).desc.family = .E ∨ (sess .E 2 0 false).desc.family = .F) ∧
      ((sess .F 2 0 false).desc.family = .E ∨ (sess .F 2 0 false).desc.family = .F) ∧ (0x7FFF#16).toNat < 0x8000 ∧
      env0.par.efPolicy = .refuse ∧ { env0.par with efPolicy := .decode }.efPolicy = .decode := by decide

theorem witness_EnableWrite :
    ∀ f ∈ [Family.A, Family.B, Family.C, Family.D],
      (sess f 2 1 false).desc.family ∈ [Family.A, Family.B, Family.C, Family.D] := by decide

theorem witness_FamilyAIndexWrites :
    (sess .A 2 0 false).desc.family = .A ∧ (env0.par.zeroFixScope = .combined ∧ (sess .A 2 0 false).bank.mode = false) ∧
      { env0.par with zeroFixScope := .field }.zeroFixScope = .field := by decide

theorem witness_FamilyAModeAndStorageBank :
    (sess .A 2 0 false).desc.family = .A ∧
      { sess .A 2 0 false with bank := { freshBank with mode := true } }.bank.mode = true := by decide

theorem witness_FamilyBAndCIndexWrites :
    (sess .B 2 1 false).desc.family = .B ∧ (sess .C 2 0 false).desc.family = .C := by decide

theorem witness_FamilyCSelectorWrite :
    ∀ sel ∈ [0#4, 3#4, 8#4, 12#4], (sess .C 2 0 false).desc.family = .C ∧
      (sel.toNat ≤ 3 ∨ (8 ≤ sel.toNat ∧ sel.toNat ≤ 12)) := by decide

theorem witness_LatchWrite : (sess .C 2 0 false).desc.family = .C := by decide

theorem witness_FamilyDIndexWrites :
    (sess .D 2 0 false).desc.family = .D ∧ (sess .D 2 0 false).desc.hasRumble = false := by decide

theorem witness_MotorWrite : (sess .D 2 0 true).desc.family = .D ∧ (sess .D 2 0 true).desc.hasRumble = true := by decide

theorem witness_AdvanceIsSecondBySecondCounting :
    ClockRegs.canonical ⟨59#8, 59#8, 23#8, 255#8, 0xC1#8⟩ ∧ ClockRegs.canonical zeroClock ∧ 0 < 1 := by decide

theorem witness_TickCadenceIsFree : (sess .C 2 0 false).lastSync ≤ env0.hostNow := by decide

/-- The ports of `LOAD`. -/
def loading (t r m : Byte) (rom sram : Image) : State :=
  ⟨none, { env0 with ports := { SidePorts.idle with typeByte := t, romSizeByte := r, ramSizeByte := m, rom := rom, initSram := sram } }⟩

theorem witness_LoadOpensASession :
    typeTable 0x1E#8 = some (.D, false, true) ∧ (8#8).toNat ≤ 8 ∧ ramSizeTable 3#8 = some 4 ∧
      (⟨512 * 16384, [(0, 0xB0#8)]⟩ : Image).len = 2 ^ ((8#8).toNat + 1) * 16384 ∧
      (⟨4 * 8192, []⟩ : Image).len = (if (Family.D, false, true).1 = .B then 1 else 4) * 8192 ∧
      Mem.wf (some 0x00#8) (⟨512 * 16384, [(0, 0xB0#8)]⟩ : Image).len (⟨512 * 16384, [(0, 0xB0#8)]⟩ : Image).cells ∧
      Mem.wf (some 0x00#8) (⟨4 * 8192, []⟩ : Image).len (⟨4 * 8192, []⟩ : Image).cells := by decide

/-- Family `B` has one storage bank whatever its RAM-size byte says. -/
theorem witness_LoadOpensASession_B :
    typeTable 0x06#8 = some (.B, false, false) ∧ (0#8).toNat ≤ 8 ∧ ramSizeTable 0#8 = some 0 ∧
      (⟨2 * 16384, []⟩ : Image).len = 2 ^ ((0#8).toNat + 1) * 16384 ∧
      (⟨8192, []⟩ : Image).len = (if (Family.B, false, false).1 = .B then 1 else 0) * 8192 := by decide

theorem witness_MalformedHeaderUnloads :
    (0x04#8).toNat ∉ [0x00, 0x01, 0x02, 0x03, 0x05, 0x06, 0x08, 0x09, 0x0F, 0x10, 0x11, 0x12, 0x13, 0x19, 0x1A, 0x1B, 0x1C,
        0x1D, 0x1E, 0xFE, 0xFF] ∧ 8 < (9#8).toNat ∧ 5 < (6#8).toNat := by decide

theorem witness_LoadRefusesOtherLengths :
    describe 1 0x01#8 0#8 0#8 = some ⟨.A, 2, 0, false, false, 0, false⟩ ∧
      (⟨2 * 16384 - 1, []⟩ : Image).len ≠ (⟨.A, 2, 0, false, false, 0, false⟩ : Desc).romBanks * 16384 ∧
      (⟨1, []⟩ : Image).len ≠ (⟨.A, 2, 0, false, false, 0, false⟩ : Desc).ramBanks * 8192 := by decide

theorem witness_SaveRecordLayout :
    (env0.hostNow < 2 ^ 64 ∧ p4.lastSync < 2 ^ 64) ∧
      ¬ ({ env0 with hostNow := 2 ^ 64 }.hostNow < 2 ^ 64 ∧ p4.lastSync < 2 ^ 64) := by decide

/-- One bad record for each ground, each the ports' record. -/
theorem witness_BadRecordsAreIgnored :
    (p4Record.take 36).length ≠ 37 ∧ (p4Record.set 2 2#8).take 3 ≠ [0x47#8, 0x59#8, 0x01#8] ∧
      2 < (recordByte (p4Record.set 36 3#8) 36).toNat ∧ recordField (p4Record.set 34 8#8) 34 2 % 16 ≠ 0 ∧
      2048 < recordField ((p4Record.set 34 0x10#8).set 35 8#8) 34 2 ∧
      ¬ (recordField (p4Record.set 36 1#8) 34 2 = 0 ↔ recordByte (p4Record.set 36 1#8) 36 = 0#8) ∧
      p4Record = (restoring p4Record false 0).ports.record := by decide

theorem witness_RestoreLoadsTheRecord :
    ∀ b ∈ [p4Record, (p4Record.set 35 8#8).set 36 2#8],
      b = (restoring b true 0).ports.record ∧ b.length = 37 ∧ b.take 3 = [0x47#8, 0x59#8, 0x01#8] ∧
      (recordByte b 36).toNat ≤ 2 ∧ recordField b 34 2 % 16 = 0 ∧ recordField b 34 2 ≤ 2048 ∧
      (recordField b 34 2 = 0 ↔ recordByte b 36 = 0#8) ∧
      zeroClock = {
        S := recordByte b 8 &&& 0x3F#8, M := recordByte b 9 &&& 0x3F#8, H := recordByte b 10 &&& 0x1F#8
        DL := recordByte b 11, DH := recordByte b 12 &&& 0xC1#8 } := by decide

theorem witness_SaveRestoreRoundTrip :
    p4.ok ∧ env0.hostNow < 2 ^ 64 ∧ p4.lastSync < 2 ^ 64 ∧
      exec .save ⟨some p4, env0⟩ = .next ⟨some p4, { env0 with result := .record (saveRecord p4) }⟩ ∧
      (restoring (saveRecord p4) false 0).ports.record = saveRecord p4 ∧
      (restoring (saveRecord p4) false 0).ports.trackRealTime = false ∧
      p4.lastSync = (restoring (saveRecord p4) false 0).hostNow :=
  ⟨by decide, by decide, by decide, rfl, rfl, rfl, rfl⟩

/-- An instruction of each family's control rows, a storage row and an external row at the ends of their fields. -/
theorem witness_DecodeOfEncode :
    applies { standingCtx with family := .A } (.romloA 0x1F#5) = true ∧
      applies { standingCtx with family := .B } (.ignB 0x7FFF#16 0xFF#8) = true ∧
      applies { standingCtx with family := .C } (.ramselC 0xC#4) = true ∧
      applies standingCtx (.ignD 0x6000#16 0xFF#8) = true ∧
      applies { standingCtx with family := .E } (.ctlEf 0x7FFF#16 0xFF#8) = true ∧
      applies { standingCtx with ramEnable := true, ramBanks := 1 } (.wrSramBank 0x1FFF#13 0xFF#8) = true ∧
      applies standingCtx (.rdExt 0xFFFF#16) = true ∧ applies standingCtx .restore = true := by decide

/-- A control row of another family does not apply in a session of family `D`. -/
theorem witness_DecodedRowApplies : applies (sess .D 2 0 false).ctx (.romloA 0x1F#5) = false := by decide

theorem witness_StepRunsTheDecodedInstruction :
    (on p4).env.queue = [] ∧
      ((issuing (some p4) 0x2000000#27 SidePorts.idle).session = some p4 ∧
        (issuing (some p4) 0x2000000#27 SidePorts.idle).env.queue = [⟨0x2000000#27, SidePorts.idle, 0⟩]) ∧
      ((issuing none 0x4000000#27 SidePorts.idle).session = none ∧
        (issuing none 0x4000000#27 SidePorts.idle).env.queue = [⟨0x4000000#27, SidePorts.idle, 0⟩] ∧
        fieldOp 0x4000000#27 = 4#3) := ⟨rfl, ⟨rfl, rfl⟩, rfl, rfl, by decide⟩

theorem witness_UnloadedRefusesAllButLoad :
    (issuing none 0x5000000#27 SidePorts.idle).session = none ∧
      (issuing none 0x5000000#27 SidePorts.idle).nextWord = some 0x5000000#27 ∧ fieldOp 0x5000000#27 ≠ 4#3 :=
  ⟨rfl, rfl, by decide⟩

/-- A `SAVE` at a time that fits, and a `LOAD` of arrays in the lengths its header declares. -/
theorem witness_LoadedOperationsComplete :
    ((issuing (some p4) 0x6000000#27 SidePorts.idle).session = some p4 ∧
        (issuing (some p4) 0x6000000#27 SidePorts.idle).nextWord = some 0x6000000#27 ∧ fieldOp 0x6000000#27 ≠ 4#3 ∧
        Launch.TimeFits (issuing (some p4) 0x6000000#27 SidePorts.idle) ∧ p4.lastSync < 2 ^ 64) ∧
      ((issuing none 0x4000000#27 SidePorts.zero).nextWord = some 0x4000000#27 ∧ fieldOp 0x4000000#27 = 4#3 ∧
        Launch.LengthsMatch (issuing none 0x4000000#27 SidePorts.zero)) :=
  ⟨⟨rfl, rfl, by decide, fun q rest h _ => by injection h with h k; subst h k; decide, by decide⟩, rfl, by decide,
    fun q rest d h _ hd => by
      injection h with h k; subst h k
      injection (show some (mkDesc 1 (.NONE, false, false) 2 0) = some d from hd) with hd
      subst hd; decide⟩

/-- P4's session is one the invariants hold of, and an enable write steps from it. -/
theorem witness_StepKeepsInvariant :
    (issuing (some p4) 0x100000A#27 SidePorts.idle).ok ∧
      completes (step (issuing (some p4) 0x100000A#27 SidePorts.idle)) = true :=
  ⟨fun x h => by injection h with h; subst h; decide, by decide⟩

/-! ### Runs that meet the launch premises -/

/-- A `LOAD` of the zero header, and what is to come after it. -/
def launching (rest : List Request) : State :=
  ⟨none, { env0 with queue := ⟨0x4000000#27, SidePorts.zero, 0⟩ :: rest }⟩

/-- The state after that `LOAD`. -/
def launched (rest : List Request) : State :=
  openSession (mkDesc 1 (.NONE, false, false) 2 0) (takeRequest (launching rest) ⟨0x4000000#27, SidePorts.zero, 0⟩ rest)

/-- The session of such a state. -/
def launchedSession : Session := freshSession (mkDesc 1 (.NONE, false, false) 2 0) [] [] 0 0

/-- The request of a `SAVE`. -/
def saveRequest : Request := ⟨0x6000000#27, SidePorts.idle, 0⟩

/-- The request of a `RESTORE` with the record of that session. -/
def restoreRequest : Request := ⟨0x7000000#27, { SidePorts.idle with record := saveRecord launchedSession }, 0⟩

theorem zero_header : describe 1 0x00#8 0x00#8 0x00#8 = some (mkDesc 1 (.NONE, false, false) 2 0) := by decide

theorem lengths_of_zero_header : lengthsMatch (mkDesc 1 (.NONE, false, false) 2 0) SidePorts.zero = true := by decide

theorem step_launching (rest : List Request) : step (launching rest) = .next (launched rest) := by
  have hl : step (launching rest) = execLoad (takeRequest (launching rest) ⟨0x4000000#27, SidePorts.zero, 0⟩ rest) := rfl
  have hp : (takeRequest (launching rest) ⟨0x4000000#27, SidePorts.zero, 0⟩ rest).env.ports = SidePorts.zero := rfl
  have hs : (takeRequest (launching rest) ⟨0x4000000#27, SidePorts.zero, 0⟩ rest).env.par.rumbleStrength = 1 := rfl
  have ht : SidePorts.zero.typeByte = 0x00#8 ∧ SidePorts.zero.romSizeByte = 0x00#8 ∧ SidePorts.zero.ramSizeByte = 0x00#8 :=
    ⟨rfl, rfl, rfl⟩
  rw [hl, execLoad, hp, hs, ht.1, ht.2.1, ht.2.2, zero_header]
  simp only [lengths_of_zero_header, if_true]
  rfl

theorem witness_Loaded (rest : List Request) : Launch.Loaded (launching rest) (launched rest) :=
  ⟨⟨0x4000000#27, rfl, by decide⟩, step_launching rest, rfl⟩

theorem witness_drawsFresh (rest : List Request) : (launched rest).drawsFresh :=
  fun x h => by injection h with h; subst h; exact Nat.lt_succ_self _

theorem witness_SavedOn : Launch.SavedOn launchedSession (launched [saveRequest]) (saveRecord launchedSession) :=
  ⟨⟨_, rfl, rfl, rfl⟩, ⟨_, rfl, by decide⟩, _, rfl, rfl⟩

/-- A step that takes no `RESTORE` needs no record, whatever is asked of the states that made one. -/
theorem ownRecords_of_other (saved : State → Prop) {s : State} (h : ∀ w, s.nextWord = some w → fieldOp w ≠ 7#3) :
    Launch.OwnRecords saved s :=
  fun _ q _ _ hq ho => absurd ho (h q.word (by unfold State.nextWord; rw [hq]; rfl))

/-- A run whose second operation restores a record that another run of the cartridge saved. -/
theorem witness_Reached : ∃ t, step (launched [restoreRequest]) = .next t ∧ Launch.Reached t :=
  ⟨_, rfl, .restore (.launch (witness_Loaded [restoreRequest])) (.launch (witness_Loaded [saveRequest])) rfl rfl
    witness_SavedOn rfl⟩

/-- A transfer of 128 units at the end of the reach steps; so does a `RESTORE` of a record of the same cartridge. -/
theorem witness_StepKeepsDmaInReach :
    (∀ x, (issuing (some (armed p4 0xC000#16 0x9FF0#16 2048#12)) 0x2000000#27 SidePorts.idle).session = some x →
        x.ok ∧ x.dmaInReach) ∧
      Launch.OwnRecords (fun u => ∀ y, u.session = some y → y.dmaInReach)
        (issuing (some (armed p4 0xC000#16 0x9FF0#16 2048#12)) 0x2000000#27 SidePorts.idle) ∧
      completes (step (issuing (some (armed p4 0xC000#16 0x9FF0#16 2048#12)) 0x2000000#27 SidePorts.idle)) = true :=
  ⟨fun x h => by injection h with h; subst h; decide,
    ownRecords_of_other _ fun w h => by injection h with h; subst h; decide, by decide +kernel⟩

theorem witness_StepKeepsDmaInReach_restore :
    (∀ x, (launched [restoreRequest]).session = some x → x.ok ∧ x.dmaInReach) ∧
      Launch.OwnRecords (fun u => ∀ y, u.session = some y → y.dmaInReach) (launched [restoreRequest]) ∧
      completes (step (launched [restoreRequest])) = true :=
  ⟨fun x h => by injection h with h; subst h; exact ⟨by decide, fun h => absurd rfl h⟩,
    fun x q rest hx hq _ => by
      injection hx with hx; injection hq with hq hr; subst hx hq hr
      exact ⟨_, fun y hy => by injection hy with hy; subst hy; exact fun h => absurd rfl h, witness_SavedOn⟩,
    by decide⟩

theorem witness_StepKeepsBanksReachable :
    (∀ x, (issuing (some (sess .A 128 4 false)) 0x1200000#27 SidePorts.idle).session = some x →
        x.ok ∧ x.dmaInReach ∧ x.banksReachable) ∧
      Launch.OwnRecords (fun u => ∀ y, u.session = some y → y.banksReachable)
        (issuing (some (sess .A 128 4 false)) 0x1200000#27 SidePorts.idle) ∧
      completes (step (issuing (some (sess .A 128 4 false)) 0x1200000#27 SidePorts.idle)) = true :=
  ⟨fun x h => by
      injection h with h; subst h
      exact ⟨by decide, by decide, show (1 ≤ (1#9).toNat ∧ (1#9).toNat ≤ 127) ∧ (0#4).toNat ≤ 3 by decide⟩,
    ownRecords_of_other _ fun w h => by injection h with h; subst h; decide, by decide⟩

theorem witness_StepKeepsBanksReachable_restore :
    (∀ x, (launched [restoreRequest]).session = some x → x.ok ∧ x.dmaInReach ∧ x.banksReachable) ∧
      Launch.OwnRecords (fun u => ∀ y, u.session = some y → y.banksReachable) (launched [restoreRequest]) ∧
      completes (step (launched [restoreRequest])) = true :=
  ⟨fun x h => by injection h with h; subst h; exact ⟨by decide, fun h => absurd rfl h, rfl, rfl⟩,
    fun x q rest hx hq _ => by
      injection hx with hx; injection hq with hq hr; subst hx hq hr
      exact ⟨_, fun y hy => by injection hy with hy; subst hy; exact ⟨rfl, rfl⟩, witness_SavedOn⟩,
    by decide⟩

theorem witness_OnlyLoadWritesRomAndDescriptor :
    (issuing (some p4) 0x12000B0#27 SidePorts.idle).session = some p4 ∧
      (∀ w, (issuing (some p4) 0x12000B0#27 SidePorts.idle).nextWord = some w → fieldOp w ≠ 4#3) ∧
      completes (step (issuing (some p4) 0x12000B0#27 SidePorts.idle)) = true :=
  ⟨rfl, fun w h => by injection h with h; subst h; decide, by decide⟩

/-- The motor's writer and the mark's writer, each changing what it writes. -/
theorem witness_MotorAndMarkHaveTheirWriters :
    (p4.dma.consistent ∧ p4.dmaInReach ∧ seen (fun y => y.bank.motor) (exec (.rambDRumble 0#1 0#3) (on p4)) = some false ∧
        p4.bank.motor = true) ∧
      ((sess .E 2 0 false).dma.consistent ∧ (sess .E 2 0 false).dmaInReach ∧
        seen (fun y => y.refused) (exec (.ctlEf 0#16 0#8) (on (sess .E 2 0 false))) = some true ∧
        (sess .E 2 0 false).refused = false) := by decide

/-- In the default configuration, and where host time may rise between operations. -/
theorem witness_HostTimeMovesOnlyByTick :
    (Launch.HostTimeByTick (issuing (some p4) 0x3000000#27 { SidePorts.idle with delta := 10 }) ∧
        completes (step (issuing (some p4) 0x3000000#27 { SidePorts.idle with delta := 10 })) = true) ∧
      completes (step ⟨some p4, { env0 with
        par := { env0.par with silentAdvance := true }, queue := [⟨0x2000000#27, SidePorts.idle, 7⟩] }⟩) = true := by decide

/-- A read routed to the clock, and one that is not. -/
theorem witness_ReadsChangeOnlyTheClock :
    completes (exec (decode (enabled (sess .C 2 0 false) 8#4).ctx (rdWord 0xBFFF#16)) (on (enabled (sess .C 2 0 false) 8#4))) =
        true ∧
      completes (exec (decode p4.ctx (rdWord 0xC000#16)) (on p4)) = true ∧
      ¬ (0xA000 ≤ (0xC000#16).toNat ∧ (0xC000#16).toNat < 0xC000 ∧ p4.bank.ramEnable = true ∧ p4.isRtcSel = true) := by decide

theorem witness_ReadAfterWrite :
    p4.arraysOk ∧ (0x8000 ≤ (0x9FFF#16).toNat ∧ (0x9FFF#16).toNat < 0xA000) ∧
      (0xC000 ≤ (0xFDFF#16).toNat ∧ (0xFDFF#16).toNat < 0xFE00) ∧
      (0xA000 ≤ (0xA000#16).toNat ∧ (0xA000#16).toNat < 0xC000 ∧ p4.bank.ramEnable = true ∧ p4.isRtcSel = false ∧
        0 < p4.desc.ramBanks) := by decide

theorem witness_BankIndexWraps : (511#9).toNat = (255#9).toNat + (sess .D 256 0 false).desc.romBanks := by decide

end Sys2Proof.Tests
end

section
/-! PROOFS of the statements on the machine's state (10_state.md): what one step can do, as a case analysis over the
operations, and from it that every step keeps the session's invariant, the numbers of the draws, the reach of the DMA engine
and the range of the bank indices. -/

namespace Sys2Proof.Machine

/-! ## What a step can do -/

/-- The step from `s` takes the request `q` and runs it on the loaded machine `r`. -/
def State.Takes (s : State) (q : Request) (r : Loaded) : Prop :=
  ∃ rest, s.env.queue = q :: rest ∧ s.session = some r.ses ∧ r.env = (takeRequest s q rest).env

theorem State.Takes.session {s : State} {q : Request} {r : Loaded} (h : s.Takes q r) : s.session = some r.ses := by
  obtain ⟨-, -, h, -⟩ := h
  exact h

theorem State.Takes.draws {s : State} {q : Request} {r : Loaded} (h : s.Takes q r) : r.env.draws = s.env.draws := by
  obtain ⟨rest, -, -, h⟩ := h
  rw [h]; rfl

/-- The states a step can lead to, by the operation it takes: none waits, a `LOAD` (30_encoding.md R110), an access of the
bus, or an event of a loaded session. -/
inductive StepResult (s : State) : State → Prop
  | idle : StepResult s s
  | exception (u : State) : StepResult s (raiseInvalidHeader u)
  | opened {q : Request} {rest : List Request} {d : Desc} :
    describe s.env.par.rumbleStrength q.ports.typeByte q.ports.romSizeByte q.ports.ramSizeByte = some d →
    lengthsMatch d q.ports = true → StepResult s (openSession d (takeRequest s q rest))
  | read {q : Request} {r : Loaded} (a : Addr) (res : Result) :
    s.Takes q r → StepResult s ((read a r).1.answer res).toState
  | write {q : Request} {r : Loaded} (a : Addr) (v : Byte) :
    s.Takes q r → StepResult s ((write a v r).answer .none).toState
  | blank {q : Request} {r : Loaded} : s.Takes q r → StepResult s (horizontalBlank r).toState
  | tick {q : Request} {r : Loaded} (delta : Nat) : s.Takes q r → StepResult s ((tickBy delta r).answer .none).toState
  | reset {q : Request} {r : Loaded} : s.Takes q r → StepResult s (resetMachine r).toState
  | save {q : Request} {r : Loaded} (res : Result) : s.Takes q r → StepResult s (r.answer res).toState
  | restore {q : Request} {r : Loaded} (track : Bool) :
    s.Takes q r → fieldOp q.word = 7#3 → StepResult s (restoreFrom q.ports.record track r).toState

theorem takeRequest_of_session {s : State} {x : Session} (hx : s.session = some x) (q : Request) (rest : List Request) :
    takeRequest s q rest = ⟨some x, (takeRequest s q rest).env⟩ := by
  unfold takeRequest
  rw [hx]

/-- A `LOAD` a step takes raises the exception or opens a session. -/
theorem StepResult.of_load {s t : State} {q : Request} {rest : List Request}
    (h : exec .load (takeRequest s q rest) = .next t) : StepResult s t := by
  rcases load_cases h with rfl | ⟨d, hd, hl, rfl⟩
  · exact .exception _
  · exact .opened hd hl

/-- Everything a step with a next state can do. -/
theorem stepResult_of_step {s t : State} (h : step s = .next t) : StepResult s t := by
  rcases step_cases h with ⟨-, rfl⟩ | ⟨q, rest, hq, ⟨-, -, he⟩ | ⟨x, hx, he⟩⟩
  · exact .idle
  · exact .of_load he
  · have ht : s.Takes q ⟨x, (takeRequest s q rest).env⟩ := ⟨rest, hq, hx, rfl⟩
    rcases decoded_cases he with
      ⟨-, rfl⟩ | ⟨-, rfl⟩ | ⟨-, rfl⟩ | ⟨-, rfl⟩ | ⟨-, he⟩ | ⟨-, rfl⟩ | ⟨-, -, rfl⟩ | ⟨ho, rfl⟩
    · exact .read _ _ ht
    · exact .write _ _ ht
    · exact .blank ht
    · exact .tick _ ht
    · rw [← takeRequest_of_session hx] at he
      exact .of_load he
    · exact .reset ht
    · exact .save _ ht
    · exact .restore _ ht ho

/-! ## Opened and reset sessions keep the session's invariant -/

theorem romSizeTable_banks : ∀ b : Byte, ∀ n ∈ romSizeTable b, n ∈ [2, 4, 8, 16, 32, 64, 128, 256, 512] := by decide

theorem ramSizeTable_banks : ∀ b : Byte, ∀ m ∈ ramSizeTable b, m ∈ [0, 1, 4, 8, 16] := by decide

theorem mkDesc_legal (strength : Nat) (t : Family × Bool × Bool) {n m : Nat}
    (hn : n ∈ [2, 4, 8, 16, 32, 64, 128, 256, 512]) (hm : m ∈ [0, 1, 4, 8, 16]) : (mkDesc strength t n m).legal := by
  refine ⟨hn, ?_, rfl, fun hB => if_pos hB⟩
  show (if t.1 = .B then 1 else m) ∈ [0, 1, 4, 8, 16]
  split
  · decide
  · exact hm

/-- A header that is not malformed gives a legal descriptor (40_descriptor.md R160 to R168). -/
theorem describe_legal {strength : Nat} {typeByte romSizeByte ramSizeByte : Byte} {d : Desc}
    (h : describe strength typeByte romSizeByte ramSizeByte = some d) : d.legal := by
  unfold describe at h
  split at h
  · next t n m _ hn hm =>
    obtain rfl := Option.some.inj h
    exact mkDesc_legal strength t (romSizeTable_banks _ _ hn) (ramSizeTable_banks _ _ hm)
  · cases h
  · cases h
  · cases h

theorem freshDma_consistent (n : Nat) : (freshDma n).consistent := ⟨rfl, iff_of_true rfl rfl, Nat.zero_le _⟩

theorem freshSession_ok {d : Desc} {rom sram : Mem} (hd : d.legal)
    (hrom : Mem.wf Region.rom.unlisted (d.romBanks * romBankSize) rom)
    (hsram : Mem.wf Region.sram.unlisted (d.ramBanks * ramBankSize) sram) (now n : Nat) :
    (freshSession d rom sram now n).ok :=
  ⟨hd, (by decide : 1#3 ≠ 0#3), zeroClock_wired, zeroClock_wired, freshDma_consistent n, hrom, hsram, Mem.wf_nil _ _,
    Mem.wf_nil _ _⟩

theorem resetSession_ok {x : Session} (h : x.ok) (n : Nat) : (resetSession x n).ok := by
  obtain ⟨hd, -, hlive, hsnap, -, hrom, hsram, -, -⟩ := h
  exact ⟨hd, (by decide : 1#3 ≠ 0#3), hlive, hsnap, freshDma_consistent n, hrom, hsram, Mem.wf_nil _ _, Mem.wf_nil _ _⟩

/-- The session a `LOAD` opens (40_descriptor.md R160, R169). -/
theorem openSession_ok {s : State} {d : Desc} (hd : d.legal) (hl : lengthsMatch d s.env.ports = true) :
    (openSession d s).ok := by
  obtain ⟨hrom, hsram⟩ : s.env.ports.rom.len = d.romBanks * romBankSize ∧
      s.env.ports.initSram.len = d.ramBanks * ramBankSize := by simpa [lengthsMatch] using hl
  rintro _ ⟨⟩
  refine freshSession_ok hd ?_ ?_ _ _
  · rw [← hrom]; exact Image.wf_toMem _ _
  · rw [← hsram]; exact Image.wf_toMem _ _

/-! ## Every operation of a loaded session keeps the session's invariant -/

/-- A loaded machine as a state keeps the machine's invariant where its session keeps the session's. -/
theorem Loaded.toState_ok {r : Loaded} (h : r.ses.ok) : r.toState.ok := by
  rintro _ ⟨⟩
  exact h

theorem horizontalBlank_ok {r : Loaded} (h : r.ses.ok) : (horizontalBlank r).ses.ok := advanceOneUnit_ok write_ok h

theorem restoreFrom_ok {r : Loaded} (h : r.ses.ok) (b : List Byte) (track : Bool) : (restoreFrom b track r).ses.ok := by
  unfold restoreFrom
  split
  · next hv => exact reconcile_ok _ _ _ (restoreFields_ok hv h)
  · exact h

theorem step_ok {s t : State} (h : step s = .next t) (hs : s.ok) : t.ok := by
  cases stepResult_of_step h with
  | idle => exact hs
  | exception => rintro _ ⟨⟩
  | opened hd hl => exact openSession_ok (describe_legal hd) hl
  | read a res ht => exact Loaded.toState_ok (read_ok (hs _ ht.session) a)
  | write a v ht => exact Loaded.toState_ok (write_ok a v _ (hs _ ht.session))
  | blank ht => exact Loaded.toState_ok (horizontalBlank_ok (hs _ ht.session))
  | tick delta ht => exact Loaded.toState_ok (syncSession_ok (hs _ ht.session) _)
  | reset ht => exact Loaded.toState_ok (resetSession_ok (hs _ ht.session) _)
  | save res ht => exact Loaded.toState_ok (hs _ ht.session)
  | restore track ht => exact Loaded.toState_ok (restoreFrom_ok (hs _ ht.session) _ _)

/-! ## Every step keeps the numbers of the draws apart (70_reset_and_hazards.md R442) -/

/-- `State.drawsFresh` of a loaded machine. -/
def Loaded.drawsFresh (r : Loaded) : Prop := r.ses.drawn < r.env.draws

theorem Loaded.toState_drawsFresh {r : Loaded} (h : r.drawsFresh) : r.toState.drawsFresh := by
  rintro _ ⟨⟩
  exact h

theorem State.Takes.drawsFresh {s : State} {q : Request} {r : Loaded} (ht : s.Takes q r) (hs : s.drawsFresh) :
    r.drawsFresh := by
  unfold Loaded.drawsFresh
  rw [ht.draws]
  exact hs _ ht.session

theorem SameButUnit.drawsFresh {r t : Loaded} (h : SameButUnit r t) (hr : r.drawsFresh) : t.drawsFresh := by
  obtain ⟨hses, henv⟩ := h
  unfold Loaded.drawsFresh
  rw [hses, henv]
  exact hr

theorem read_drawsFresh {r : Loaded} (h : r.drawsFresh) (a : Addr) : (read a r).1.drawsFresh :=
  (read_frame a r).unit.drawsFresh h

theorem onWrite_drawsFresh {r : Loaded} (h : r.drawsFresh) (a : Addr) (v : Byte) : (onWrite a v r).drawsFresh := by
  obtain ⟨bank, snap, mark, hses, -⟩ := onWrite_ses a v r
  unfold Loaded.drawsFresh
  rw [hses, onWrite_env]
  exact h

theorem writeRegister_drawsFresh {r : Loaded} (h : r.drawsFresh) (sel : ClockReg) (v : Byte) :
    (writeRegister sel v r).drawsFresh := by
  obtain ⟨live, last, hses⟩ := writeRegister_ses sel v r
  unfold Loaded.drawsFresh
  rw [hses, writeRegister_env]
  exact h

theorem write_drawsFresh (a : Addr) (v : Byte) (r : Loaded) (h : r.drawsFresh) : (write a v r).drawsFresh := by
  refine writeWith_elim (P := Loaded.drawsFresh) h (fun _ => onWrite_drawsFresh h a v) (fun _ => h) (fun _ _ => h)
    (fun _ _ => h) (writeRegister_drawsFresh h _ v) h h (fun _ _ _ _ _ => h) h fun _ => ?_
  obtain ⟨vram, sram, live, last, calls, events, d, ht, -⟩ := trigger_spec (v.extractLsb' 7 1) (v.extractLsb' 0 7) r
  unfold triggerByte
  rw [ht]
  exact h

theorem finishUnit_drawsFresh {r : Loaded} (h : r.drawsFresh) : (finishUnit r).drawsFresh := by
  show r.ses.drawn < (if 16#12 ≤ r.ses.dma.remaining then r.env else r.env.nextDraw).draws
  split
  · exact h
  · exact Nat.lt_succ_of_lt h

theorem moveBytes_drawsFresh {r : Loaded} (h : r.drawsFresh) : (moveBytes write r).drawsFresh :=
  foldl_keeps (P := Loaded.drawsFresh) _ _ (fun _ ht _ _ => write_drawsFresh _ _ _ (read_drawsFresh ht _)) h

theorem horizontalBlank_drawsFresh {r : Loaded} (h : r.drawsFresh) : (horizontalBlank r).drawsFresh := by
  show (advanceOneUnit write r).drawsFresh
  by_cases hp : r.ses.dma.phase = .idle
  · rw [advanceOneUnit_idle hp]; exact h
  · rw [advanceOneUnit_active hp]; exact finishUnit_drawsFresh (moveBytes_drawsFresh h)

theorem tickBy_drawsFresh {r : Loaded} (h : r.drawsFresh) (delta : Nat) : (tickBy delta r).drawsFresh := by
  show (syncSession (r.env.hostNow + delta) r.ses).drawn < r.env.draws
  rw [syncSession_frame]
  exact h

theorem reconcile_drawn (now t : Nat) (track : Bool) (x : Session) : (reconcile now t track x).drawn = x.drawn := by
  unfold reconcile
  split
  · rw [syncSession_frame]
  · rfl

theorem restoreFrom_drawsFresh {r : Loaded} (h : r.drawsFresh) (b : List Byte) (track : Bool) :
    (restoreFrom b track r).drawsFresh := by
  unfold restoreFrom
  split
  · show (reconcile _ _ _ (restoreFields b r.ses)).drawn < r.env.draws
    rw [reconcile_drawn]; exact h
  · exact h

theorem step_drawsFresh {s t : State} (h : step s = .next t) (hs : s.drawsFresh) : t.drawsFresh := by
  cases stepResult_of_step h with
  | idle => exact hs
  | exception => rintro _ ⟨⟩
  | opened => rintro _ ⟨⟩; exact Nat.lt_succ_self _
  | read a res ht => exact Loaded.toState_drawsFresh (read_drawsFresh (ht.drawsFresh hs) a)
  | write a v ht => exact Loaded.toState_drawsFresh (write_drawsFresh a v _ (ht.drawsFresh hs))
  | blank ht => exact Loaded.toState_drawsFresh (horizontalBlank_drawsFresh (ht.drawsFresh hs))
  | tick delta ht => exact Loaded.toState_drawsFresh (tickBy_drawsFresh (ht.drawsFresh hs) delta)
  | reset => exact Loaded.toState_drawsFresh (Nat.lt_succ_self _)
  | save res ht => exact Loaded.toState_drawsFresh (r := Loaded.answer _ res) (ht.drawsFresh hs)
  | restore track ht => exact Loaded.toState_drawsFresh (restoreFrom_drawsFresh (ht.drawsFresh hs) _ _)

/-- Settles O51: the session's invariant and the numbers of the draws, each by the cases of `StepResult`. -/
theorem stepKeepsInvariant : Obligations.StepKeepsInvariant :=
  fun _ _ h => ⟨step_ok h, step_drawsFresh h⟩

/-- Settles O49: while `Unloaded` the decoder rejects every word but `LOAD`'s. -/
theorem unloadedRefusesAllButLoad : Obligations.UnloadedRefusesAllButLoad := by
  intro s w hs hw ho
  obtain ⟨q, hq, rfl⟩ := Option.map_eq_some_iff.1 hw
  obtain ⟨rest, hq⟩ := List.head?_eq_some_iff.1 hq
  have hd : decodeIn s.ctx q.word = .error .unloaded := by
    rw [State.ctx, hs]
    exact if_neg ho
  unfold step takeNext
  rw [hq]
  simp only [hd, refusalOf]

/-- Settles O52: the machine before any operation has no session, so both conditions hold of none. -/
theorem resetMeetsInvariant : Obligations.ResetMeetsInvariant := by
  refine ⟨?_, ?_, rfl⟩
  · rintro _ ⟨⟩
  · rintro _ ⟨⟩

/-! ## The bank indices a guest can reach, family by family -/

/-- `Session.banksReachable` of a Bank-Switch State, by the family and the motor of its cartridge (10_state.md R26, R27). -/
abbrev BankReachable (f : Family) (hasRumble : Bool) (b : BankState) : Prop :=
  match f with
  | .NONE => b.romBank = 1#9 ∧ b.ramBank = 0#4
  | .A => (1 ≤ b.romBank.toNat ∧ b.romBank.toNat ≤ 127) ∧ b.ramBank.toNat ≤ 3
  | .B => (1 ≤ b.romBank.toNat ∧ b.romBank.toNat ≤ 15) ∧ b.ramBank = 0#4
  | .C =>
    (1 ≤ b.romBank.toNat ∧ b.romBank.toNat ≤ 127) ∧
      (b.ramBank.toNat ≤ 3 ∨ (8 ≤ b.ramBank.toNat ∧ b.ramBank.toNat ≤ 12))
  | .D => hasRumble = true → b.ramBank.toNat ≤ 7
  | .E => True
  | .F => True

theorem Session.banksReachable_iff (x : Session) :
    x.banksReachable ↔ BankReachable x.desc.family x.desc.hasRumble x.bank := by
  unfold Session.banksReachable BankReachable
  cases x.desc.family <;> rfl

/-- The range looks at the descriptor and the Bank-Switch State only. -/
theorem Session.banksReachable_of_bank {x y : Session} (hd : y.desc = x.desc) (hb : y.bank = x.bank)
    (h : x.banksReachable) : y.banksReachable := by
  rw [Session.banksReachable_iff, hd, hb]
  exact (Session.banksReachable_iff x).1 h

/-- The reset values of the Bank-Switch State are in the range of every family (10_state.md R53). -/
theorem freshBank_bankReachable (f : Family) (hasRumble : Bool) : BankReachable f hasRumble freshBank := by
  cases f <;> simp [BankReachable, freshBank]

theorem Session.banksReachable_of_freshBank {x : Session} (hb : x.bank = freshBank) : x.banksReachable := by
  rw [Session.banksReachable_iff, hb]
  exact freshBank_bankReachable _ _

theorem lowFieldZero_zero (f : Family) : lowFieldZero f 0#9 = true := by cases f <;> rfl

/-- Zero normalisation never stores 0, and keeps a bound on the index (41_bank_switch.md R182, R190). -/
theorem zeroFix_range (scope : ZeroFixScope) {f : Family} (hf : zeroFixFamily f = true) {k : Nat} (hk : 0 < k)
    {x : BitVec 9} (hx : x.toNat ≤ 2 ^ k - 1) :
    1 ≤ (zeroFix scope f x).toNat ∧ (zeroFix scope f x).toNat ≤ 2 ^ k - 1 := by
  have hpow : 1 < 2 ^ k := Nat.one_lt_two_pow hk.ne'
  have nonzero : x ≠ 0#9 → 1 ≤ x.toNat := fun hn =>
    Nat.one_le_iff_ne_zero.2 fun e => hn (BitVec.eq_of_toNat_eq e)
  unfold zeroFix
  rw [if_neg (by simp [hf])]
  cases scope with
  | combined =>
    show 1 ≤ (if x = 0#9 then 1#9 else x).toNat ∧ (if x = 0#9 then 1#9 else x).toNat ≤ 2 ^ k - 1
    split
    · exact ⟨Nat.le_refl 1, Nat.le_sub_one_of_lt hpow⟩
    · next hn => exact ⟨nonzero hn, hx⟩
  | field =>
    show 1 ≤ (if lowFieldZero f x = true then x ||| 1#9 else x).toNat ∧
      (if lowFieldZero f x = true then x ||| 1#9 else x).toNat ≤ 2 ^ k - 1
    split
    · rw [BitVec.toNat_or]
      exact ⟨Nat.right_le_or, Nat.le_sub_one_of_lt (Nat.or_lt_two_pow (by omega) hpow)⟩
    · next hn => exact ⟨nonzero fun e => hn (e ▸ lowFieldZero_zero f), hx⟩

/-! ## The control writes keep the range -/

/-- The index a write of the low five bits makes on family `A`, before it is normalised (41_bank_switch.md R185). -/
theorem romloA_index_le (old : BitVec 9) (bank : BitVec 5) :
    ((old &&& 0x60#9) ||| bank.setWidth 9).toNat ≤ 2 ^ 7 - 1 := by
  rw [BitVec.toNat_or, BitVec.toNat_and]
  refine Nat.le_sub_one_of_lt (Nat.or_lt_two_pow (Nat.lt_of_le_of_lt Nat.and_le_right (by decide)) ?_)
  rw [BitVec.toNat_setWidth]
  omega

/-- The index a write of the upper two bits makes on family `A`, before it is normalised (41_bank_switch.md R186). -/
theorem upperARom_index_le (old : BitVec 9) (upper : BitVec 2) :
    ((old &&& 0x1F#9) ||| (upper.setWidth 9 <<< 5)).toNat ≤ 2 ^ 7 - 1 := by
  rw [BitVec.toNat_or, BitVec.toNat_and]
  refine Nat.le_sub_one_of_lt (Nat.or_lt_two_pow (Nat.lt_of_le_of_lt Nat.and_le_right (by decide)) ?_)
  rw [BitVec.toNat_shiftLeft, BitVec.toNat_setWidth, Nat.shiftLeft_eq]
  omega

theorem toNat_setWidth_le {k : Nat} (x : BitVec k) (n : Nat) : (x.setWidth n).toNat ≤ 2 ^ k - 1 := by
  have hx := x.isLt
  have hle := Nat.mod_le x.toNat (2 ^ n)
  rw [BitVec.toNat_setWidth]
  omega

theorem acceptedSelector_range : ∀ v : BitVec 4, acceptedSelector v = true →
    v.toNat ≤ 3 ∨ (8 ≤ v.toNat ∧ v.toNat ≤ 12) := by decide

theorem onWriteA_bankReachable {r : Loaded} {hasRumble : Bool} (h : BankReachable .A hasRumble r.ses.bank)
    (a : Addr) (v : Byte) : BankReachable .A hasRumble (onWriteA a v r).ses.bank := by
  obtain ⟨hrom, hram⟩ := h
  unfold onWriteA
  split
  · exact ⟨hrom, hram⟩
  split
  · exact ⟨zeroFix_range _ rfl (by decide) (romloA_index_le _ _), hram⟩
  split
  · split
    · exact ⟨zeroFix_range _ rfl (by decide) (upperARom_index_le _ _), hram⟩
    · exact ⟨hrom, toNat_setWidth_le (k := 2) _ _⟩
  · exact ⟨hrom, hram⟩

theorem onWriteB_bankReachable {r : Loaded} {hasRumble : Bool} (h : BankReachable .B hasRumble r.ses.bank)
    (a : Addr) (v : Byte) : BankReachable .B hasRumble (onWriteB a v r).ses.bank := by
  obtain ⟨hrom, hram⟩ := h
  unfold onWriteB
  split
  · exact ⟨hrom, hram⟩
  split
  · exact ⟨zeroFix_range _ rfl (by decide) (toNat_setWidth_le (k := 4) _ _), hram⟩
  · exact ⟨hrom, hram⟩

theorem onWriteC_bankReachable {r : Loaded} {hasRumble : Bool} (h : BankReachable .C hasRumble r.ses.bank)
    (a : Addr) (v : Byte) : BankReachable .C hasRumble (onWriteC a v r).ses.bank := by
  obtain ⟨hrom, hram⟩ := h
  unfold onWriteC
  split
  · exact ⟨hrom, hram⟩
  split
  · exact ⟨zeroFix_range _ rfl (by decide) (toNat_setWidth_le (k := 7) _ _), hram⟩
  split
  · split
    · next hs => exact ⟨hrom, acceptedSelector_range _ hs⟩
    · exact ⟨hrom, hram⟩
  · unfold ctlLatchC
    split <;> exact ⟨hrom, hram⟩

theorem onWriteD_bankReachable {r : Loaded} (h : BankReachable .D r.ses.desc.hasRumble r.ses.bank) (a : Addr) (v : Byte) :
    BankReachable .D r.ses.desc.hasRumble (onWriteD a v r).ses.bank := by
  unfold onWriteD
  split
  · exact h
  split
  · split <;> exact h
  split
  · split
    · next hm => exact fun ht => absurd (hm.symm.trans ht) Bool.false_ne_true
    · unfold ctlRambDRumble
      rw [Loaded.switchTo_ses]
      exact fun _ => toNat_setWidth_le (k := 3) _ _
  · exact h

theorem onWrite_banksReachable {r : Loaded} (h : r.ses.banksReachable) (a : Addr) (v : Byte) :
    (onWrite a v r).ses.banksReachable := by
  obtain ⟨bank, snap, mark, hses, -⟩ := onWrite_ses a v r
  have hdesc : (onWrite a v r).ses.desc = r.ses.desc := by rw [hses]
  rw [Session.banksReachable_iff] at h ⊢
  rw [hdesc]
  unfold onWrite
  cases hf : r.ses.desc.family <;> rw [hf] at h
  case NONE => exact h
  case A => exact onWriteA_bankReachable h a v
  case B => exact onWriteB_bankReachable h a v
  case C => exact onWriteC_bankReachable h a v
  case D => exact onWriteD_bankReachable h a v
  case E => trivial
  case F => trivial

theorem SameBanks.banksReachable {x y : Session} (h : SameBanks x y) (hx : x.banksReachable) : y.banksReachable :=
  Session.banksReachable_of_bank h.2.1 h.1 hx

theorem write_banksReachable {r : Loaded} (h : r.ses.banksReachable) (a : Addr) (v : Byte) :
    (write a v r).ses.banksReachable := by
  refine writeWith_elim (P := fun t => t.ses.banksReachable) h (fun _ => onWrite_banksReachable h a v) (fun _ => h)
    (fun _ _ => h) (fun _ _ => h) ?_ h h (fun _ _ _ _ _ => h) h fun _ => ?_
  · obtain ⟨live, last, hses⟩ := writeRegister_ses (ClockReg.ofSel r.ses.bank.ramBank) v r
    unfold writeSramRtc
    rw [hses]
    exact h
  · obtain ⟨vram, sram, live, last, calls, events, d, ht, -⟩ := trigger_spec (v.extractLsb' 7 1) (v.extractLsb' 0 7) r
    unfold triggerByte
    rw [ht]
    exact h

theorem tickBy_banksReachable {r : Loaded} (h : r.ses.banksReachable) (delta : Nat) :
    (tickBy delta r).ses.banksReachable := by
  have hf := syncSession_frame (r.env.hostNow + delta) r.ses
  exact Session.banksReachable_of_bank (congrArg Session.desc hf) (congrArg Session.bank hf) h

theorem horizontalBlank_banksReachable {r : Loaded} (hc : r.ses.dma.consistent) (hr : r.ses.dmaInReach)
    (h : r.ses.banksReachable) : (horizontalBlank r).ses.banksReachable := by
  obtain ⟨vram, sram, live, last, calls, events, d, res, hb, -⟩ := horizontalBlank_spec hc hr
  rw [hb]
  exact h

/-- A `RESTORE` of the record of a session `y` of the same cartridge. -/
theorem restoreFrom_banksReachable {b : List Byte} {y : Session} (hb : b = saveRecord y) (track : Bool) {r : Loaded}
    (h : r.ses.banksReachable) (hy : y.banksReachable) (hdesc : y.desc = r.ses.desc) :
    (restoreFrom b track r).ses.banksReachable := by
  have hrest := restoreFrom_saveRecord y track r
  rw [← hb] at hrest
  obtain ⟨hd, ⟨hbank, -⟩ | hses⟩ := hrest
  · exact Session.banksReachable_of_bank (hd.trans hdesc.symm) hbank hy
  · rw [hses]; exact h

/-! ## The transfers in reach stay in reach (44_dma.md R332) -/

theorem Session.dmaInReach_of_dma {x y : Session} (hd : y.dma = x.dma) (h : x.dmaInReach) : y.dmaInReach := by
  unfold Session.dmaInReach
  rw [hd]
  exact h

theorem freshDma_dmaInReach {x : Session} {n : Nat} (hd : x.dma = freshDma n) : x.dmaInReach :=
  fun hp => absurd (by rw [hd]; rfl) hp

theorem write_dmaInReach {r : Loaded} (h : r.ses.dmaInReach) (a : Addr) (v : Byte) : (write a v r).ses.dmaInReach := by
  refine writeWith_elim (P := fun t => t.ses.dmaInReach) h (fun _ => ?_) (fun _ => h) (fun _ _ => h) (fun _ _ => h) ?_ h h
    (fun d _ hdst hrem hphase => ?_) h fun _ => ?_
  · obtain ⟨bank, snap, mark, hses, -⟩ := onWrite_ses a v r
    exact Session.dmaInReach_of_dma (by rw [hses]) h
  · obtain ⟨live, last, hses⟩ := writeRegister_ses (ClockReg.ofSel r.ses.bank.ramBank) v r
    exact Session.dmaInReach_of_dma (by unfold writeSramRtc; rw [hses]) h
  · show d.phase ≠ .idle → 0x8000 ≤ d.dst.toNat ∧ d.dst.toNat + d.remaining.toNat ≤ 0xA7F0
    rw [hdst, hrem, hphase]
    exact h
  · obtain ⟨-, -, -, -, -, -, -, -, hreach⟩ := trigger_spec (v.extractLsb' 7 1) (v.extractLsb' 0 7) r
    exact hreach

theorem tickBy_dmaInReach {r : Loaded} (h : r.ses.dmaInReach) (delta : Nat) : (tickBy delta r).ses.dmaInReach :=
  Session.dmaInReach_of_dma (congrArg Session.dma (syncSession_frame (r.env.hostNow + delta) r.ses)) h

/-- A `RESTORE` of the record of a session `y`. -/
theorem restoreFrom_dmaInReach {b : List Byte} {y : Session} (hb : b = saveRecord y) (track : Bool) {r : Loaded}
    (h : r.ses.dmaInReach) (hy : y.dmaInReach) : (restoreFrom b track r).ses.dmaInReach := by
  have hrest := restoreFrom_saveRecord y track r
  rw [← hb] at hrest
  obtain ⟨-, ⟨-, hdma⟩ | hses⟩ := hrest
  · exact Session.dmaInReach_of_dma hdma hy
  · rw [hses]; exact h

/-! ## Steps, and runs -/

/-- The record a `RESTORE` is about to take is that of a session of the same cartridge (46_host_interface.md R382). -/
theorem ownRecord_of_takes {saved : State → Prop} {s : State} {q : Request} {r : Loaded} (ho : Launch.OwnRecords saved s)
    (ht : s.Takes q r) (hw : fieldOp q.word = 7#3) :
    ∃ u y, saved u ∧ u.session = some y ∧ y.desc = r.ses.desc ∧ q.ports.record = saveRecord y := by
  obtain ⟨rest, hq, hs, -⟩ := ht
  obtain ⟨u, hu, hsaved⟩ := ho r.ses q rest hs hq hw
  obtain ⟨y, hy, hdesc, -, hrec⟩ := savedOn_record hsaved
  exact ⟨u, y, hu, hy, hdesc, hrec⟩

/-- A step keeps a transfer in reach, a `RESTORE` of the cartridge's own record included (44_dma.md R332). -/
theorem step_dmaInReach {s t : State} (h : step s = .next t) (hs : s.ok) (hr : ∀ x, s.session = some x → x.dmaInReach)
    (ho : Launch.OwnRecords (fun u => ∀ y, u.session = some y → y.dmaInReach) s) :
    ∀ y, t.session = some y → y.dmaInReach := by
  cases stepResult_of_step h with
  | idle => exact hr
  | exception => rintro _ ⟨⟩
  | opened => rintro _ ⟨⟩; exact freshDma_dmaInReach rfl
  | @read q r a res ht =>
    rintro _ ⟨⟩
    exact Session.dmaInReach_of_dma (read_frame a r).unit.dma (hr _ ht.session)
  | write a v ht => rintro _ ⟨⟩; exact write_dmaInReach (hr _ ht.session) a v
  | blank ht =>
    rintro _ ⟨⟩
    obtain ⟨-, -, -, -, hdma, -⟩ := hs _ ht.session
    obtain ⟨-, -, -, -, -, -, -, -, -, hreach⟩ := horizontalBlank_spec hdma (hr _ ht.session)
    exact hreach
  | tick delta ht => rintro _ ⟨⟩; exact tickBy_dmaInReach (hr _ ht.session) delta
  | reset => rintro _ ⟨⟩; exact freshDma_dmaInReach rfl
  | save res ht => rintro _ ⟨⟩; exact hr _ ht.session
  | @restore q r track ht hw =>
    rintro _ ⟨⟩
    obtain ⟨u, y, hu, hy, -, hrec⟩ := ownRecord_of_takes ho ht hw
    exact restoreFrom_dmaInReach hrec track (hr _ ht.session) (hu y hy)

/-- A step keeps the bank indices in the family's range, a `RESTORE` of the cartridge's own record included (10_state.md R26,
R27). -/
theorem step_banksReachable {s t : State} (h : step s = .next t) (hs : s.ok)
    (hr : ∀ x, s.session = some x → x.dmaInReach ∧ x.banksReachable)
    (ho : Launch.OwnRecords (fun u => ∀ y, u.session = some y → y.banksReachable) s) :
    ∀ y, t.session = some y → y.banksReachable := by
  cases stepResult_of_step h with
  | idle => exact fun x hx => (hr x hx).2
  | exception => rintro _ ⟨⟩
  | opened => rintro _ ⟨⟩; exact Session.banksReachable_of_freshBank rfl
  | @read q r a res ht =>
    rintro _ ⟨⟩
    exact (read_frame a r).unit.banks.banksReachable (hr _ ht.session).2
  | write a v ht => rintro _ ⟨⟩; exact write_banksReachable (hr _ ht.session).2 a v
  | blank ht =>
    rintro _ ⟨⟩
    obtain ⟨-, -, -, -, hdma, -⟩ := hs _ ht.session
    exact horizontalBlank_banksReachable hdma (hr _ ht.session).1 (hr _ ht.session).2
  | tick delta ht => rintro _ ⟨⟩; exact tickBy_banksReachable (hr _ ht.session).2 delta
  | reset => rintro _ ⟨⟩; exact Session.banksReachable_of_freshBank rfl
  | save res ht => rintro _ ⟨⟩; exact (hr _ ht.session).2
  | @restore q r track ht hw =>
    rintro _ ⟨⟩
    obtain ⟨u, y, hu, hy, hdesc, hrec⟩ := ownRecord_of_takes ho ht hw
    exact restoreFrom_banksReachable hrec track (hr _ ht.session).2 (hu y hy) hdesc

/-- What every state of a run that meets `Loaded` and `OwnRecords` keeps (70_reset_and_hazards.md R445). -/
def State.inRange (s : State) : Prop := s.ok ∧ ∀ y, s.session = some y → y.dmaInReach ∧ y.banksReachable

theorem step_inRange {s t : State} (h : step s = .next t) (hs : s.inRange) (ho : Launch.OwnRecords State.inRange s) :
    t.inRange := by
  obtain ⟨hok, hr⟩ := hs
  refine ⟨step_ok h hok, fun y hy => ⟨?_, ?_⟩⟩
  · refine step_dmaInReach h hok (fun x hx => (hr x hx).1) (fun x q rest hx hq hw => ?_) y hy
    obtain ⟨u, hu, hsaved⟩ := ho x q rest hx hq hw
    exact ⟨u, fun z hz => (hu.2 z hz).1, hsaved⟩
  · refine step_banksReachable h hok hr (fun x q rest hx hq hw => ?_) y hy
    obtain ⟨u, hu, hsaved⟩ := ho x q rest hx hq hw
    exact ⟨u, fun z hz => (hu.2 z hz).2, hsaved⟩

/-- A session `LOAD` opens is in range, whatever state it was opened from. -/
theorem openSession_inRange {s : State} {d : Desc} (hd : d.legal) (hl : lengthsMatch d s.env.ports = true) :
    (openSession d s).inRange := by
  refine ⟨openSession_ok hd hl, ?_⟩
  rintro _ ⟨⟩
  exact ⟨freshDma_dmaInReach rfl, Session.banksReachable_of_freshBank rfl⟩

/-- A step that takes `LOAD`, in either condition of the block. -/
theorem exec_load_of_step {s t : State} {w : OpWord} (h : step s = .next t) (hw : s.nextWord = some w)
    (ho : fieldOp w = 4#3) : ∃ q rest, s.env.queue = q :: rest ∧ exec .load (takeRequest s q rest) = .next t := by
  rcases step_cases h with ⟨hq, -⟩ | ⟨q, rest, hq, hc⟩
  · simp [State.nextWord, hq] at hw
  · obtain rfl : q.word = w := by simpa [State.nextWord, hq] using hw
    refine ⟨q, rest, hq, ?_⟩
    rcases hc with ⟨-, -, he⟩ | ⟨x, hx, he⟩
    · exact he
    · rw [takeRequest_of_session hx]
      simpa [decode, ho] using he

theorem launch_inRange {s t : State} (h : Launch.Loaded s t) : t.inRange := by
  obtain ⟨⟨w, hw, ho⟩, hstep, hres⟩ := h
  obtain ⟨q, rest, -, he⟩ := exec_load_of_step hstep hw ho
  rcases load_cases he with rfl | ⟨d, hd, hl, rfl⟩
  · cases hres
  · exact openSession_inRange (describe_legal hd) hl

theorem reached_inRange {s : State} (h : Launch.Reached s) : s.inRange := by
  induction h with
  | launch h => exact launch_inRange h
  | other _ hw h ih =>
    exact step_inRange h ih fun x q rest _ hq ho => absurd ho (hw q.word (by simp [State.nextWord, hq]))
  | restore _ _ hx hq hsaved h ihs ihu =>
    refine step_inRange h ihs fun x' q' rest' hx' hq' _ => ?_
    obtain rfl := Option.some.inj (hx.symm.trans hx')
    obtain ⟨rfl, -⟩ := List.cons.inj (hq.symm.trans hq')
    exact ⟨_, ihu, hsaved⟩

/-- Settles O54: the step by the cases of `StepResult`, the run by induction on `Launch.Reached`. -/
theorem stepKeepsBanksReachable : Obligations.StepKeepsBanksReachable :=
  ⟨fun _ _ hs hr ho h => step_banksReachable h hs hr ho, fun _ h => reached_inRange h⟩

end Sys2Proof.Machine
end

section
/-! PROOFS of the statements on the encoding (30_encoding.md R111, R114, R117): what the decoder reads from an address of each
window and of each control range, from it that every instruction decodes back from its word; that what is decoded applies,
and what does not apply is refused; the spec's own words. -/

namespace Sys2Proof

open BitVec (extractLsb'_append_eq_left extractLsb'_append_eq_right extractLsb'_append_eq_of_le)

/-! ## The decoder by the window of the address (30_encoding.md R114) -/

/-- An address below the device window is no register of the block. -/
theorem ne_of_lt_ext {a b : Addr} (h : a < 0xFE00#16) (hb : 0xFE00#16 ≤ b) : a ≠ b := by
  rintro rfl
  bv_omega

theorem decodeRead_of_lt_ext (c : DecodeCtx) {a : Addr} (h : a < 0xFE00#16) :
    decodeRead c a =
      if 0xE000#16 ≤ a then .rdEcho a
      else if 0xD000#16 ≤ a then .rdWramx (a.extractLsb' 0 12)
      else if 0xC000#16 ≤ a then .rdWram0 (a.extractLsb' 0 12)
      else if 0xA000#16 ≤ a then decodeSramRead c (a.extractLsb' 0 13)
      else if 0x8000#16 ≤ a then .rdVram (a.extractLsb' 0 13)
      else if 0x4000#16 ≤ a then .rdRomx (a.extractLsb' 0 14)
      else .rdRom0 (a.extractLsb' 0 14) := by
  unfold decodeRead
  simp only [Config.block_lows]
  rw [if_neg (ne_of_lt_ext h (by decide)), if_neg (ne_of_lt_ext h (by decide)), if_neg (ne_of_lt_ext h (by decide)),
    if_neg (ne_of_lt_ext h (by decide)), if_neg (ne_of_lt_ext h (by decide)), if_neg (ne_of_lt_ext h (by decide)),
    if_neg (ne_of_lt_ext h (by decide)), if_neg (by bv_omega)]

theorem decodeWrite_of_lt_ext (c : DecodeCtx) {a : Addr} (v : Byte) (h : a < 0xFE00#16) :
    decodeWrite c a v =
      if 0xE000#16 ≤ a then .wrEcho a v
      else if 0xD000#16 ≤ a then .wrWramx (a.extractLsb' 0 12) v
      else if 0xC000#16 ≤ a then .wrWram0 (a.extractLsb' 0 12) v
      else if 0xA000#16 ≤ a then decodeSramWrite c (a.extractLsb' 0 13) v
      else if 0x8000#16 ≤ a then .wrVram (a.extractLsb' 0 13) v
      else decodeControl c a v := by
  unfold decodeWrite
  simp only [Config.block_lows]
  rw [if_neg (ne_of_lt_ext h (by decide)), if_neg (ne_of_lt_ext h (by decide)), if_neg (ne_of_lt_ext h (by decide)),
    if_neg (ne_of_lt_ext h (by decide)), if_neg (ne_of_lt_ext h (by decide)), if_neg (ne_of_lt_ext h (by decide)),
    if_neg (ne_of_lt_ext h (by decide)), if_neg (by bv_omega)]

theorem isExternal_iff (a : Addr) :
    isExternal a = true ↔ 0xFE00#16 ≤ a ∧ a ≠ regVbk ∧ a ≠ regDmaSrcHi ∧ a ≠ regDmaSrcLo ∧ a ≠ regDmaDstHi ∧
      a ≠ regDmaDstLo ∧ a ≠ regDmaCtrl ∧ a ≠ regSvbk := by
  simp [isExternal, isBlockRegister, regVbk, regDmaSrcHi, regDmaSrcLo, regDmaDstHi, regDmaDstLo, regDmaCtrl, regSvbk,
    and_assoc]

theorem decodeRead_of_isExternal (c : DecodeCtx) {a : Addr} (h : isExternal a = true) : decodeRead c a = .rdExt a := by
  obtain ⟨h0, h1, h2, h3, h4, h5, h6, h7⟩ := (isExternal_iff a).1 h
  unfold decodeRead
  simp only [Config.block_lows]
  rw [if_neg h1, if_neg h2, if_neg h3, if_neg h4, if_neg h5, if_neg h6, if_neg h7, if_pos h0]

theorem decodeWrite_of_isExternal (c : DecodeCtx) {a : Addr} (v : Byte) (h : isExternal a = true) :
    decodeWrite c a v = .wrExt a v := by
  obtain ⟨h0, h1, h2, h3, h4, h5, h6, h7⟩ := (isExternal_iff a).1 h
  unfold decodeWrite
  simp only [Config.block_lows]
  rw [if_neg h1, if_neg h2, if_neg h3, if_neg h4, if_neg h5, if_neg h6, if_neg h7, if_pos h0]

theorem isEcho_iff (a : Addr) : isEcho a = true ↔ 0xE000#16 ≤ a ∧ a < 0xFE00#16 := by
  simp [isEcho]

theorem decodeWrite_of_control (c : DecodeCtx) {a : Addr} (v : Byte) (h : a < 0x8000#16) :
    decodeWrite c a v = decodeControl c a v := by
  rw [decodeWrite_of_lt_ext c v (by bv_omega), if_neg (by bv_omega), if_neg (by bv_omega), if_neg (by bv_omega),
    if_neg (by bv_omega), if_neg (by bv_omega)]

/-! ## The window of an encoded offset -/

/-- An address of a fixed top and an offset lies in the window of that top. -/
theorem append_mem_window {m n : Nat} {top : BitVec m} {lo hi : BitVec (m + n)} (hlo : lo.toNat = top.toNat * 2 ^ n)
    (hhi : hi.toNat = (top.toNat + 1) * 2 ^ n) (off : BitVec n) : lo ≤ top ++ off ∧ top ++ off < hi := by
  have h : (top ++ off).toNat = top.toNat * 2 ^ n + off.toNat := by
    rw [BitVec.toNat_append, ← Nat.shiftLeft_add_eq_or_of_lt off.isLt, Nat.shiftLeft_eq]
  have hoff := off.isLt
  rw [BitVec.le_def, BitVec.lt_def, h, hlo, hhi, Nat.add_mul]
  omega

theorem wramx_window (off : BitVec 12) : 0xD000#16 ≤ 0b1101#4 ++ off ∧ 0b1101#4 ++ off < 0xE000#16 :=
  append_mem_window (by decide) (by decide) off

theorem wram0_window (off : BitVec 12) : 0xC000#16 ≤ 0b1100#4 ++ off ∧ 0b1100#4 ++ off < 0xD000#16 :=
  append_mem_window (by decide) (by decide) off

theorem sram_window (off : BitVec 13) : 0xA000#16 ≤ 0b101#3 ++ off ∧ 0b101#3 ++ off < 0xC000#16 :=
  append_mem_window (by decide) (by decide) off

theorem vram_window (off : BitVec 13) : 0x8000#16 ≤ 0b100#3 ++ off ∧ 0b100#3 ++ off < 0xA000#16 :=
  append_mem_window (by decide) (by decide) off

theorem romx_window (off : BitVec 14) : 0x4000#16 ≤ 0b01#2 ++ off ∧ 0b01#2 ++ off < 0x8000#16 :=
  append_mem_window (by decide) (by decide) off

theorem rom0_window (off : BitVec 14) : 0x0000#16 ≤ 0b00#2 ++ off ∧ 0b00#2 ++ off < 0x4000#16 :=
  append_mem_window (by decide) (by decide) off

/-! ## The decoder on a window's top and an offset -/

theorem decodeRead_wramx (c : DecodeCtx) (off : BitVec 12) : decodeRead c (0b1101#4 ++ off) = .rdWramx off := by
  obtain ⟨h1, h2⟩ := wramx_window off
  rw [decodeRead_of_lt_ext c (by bv_omega), if_neg (by bv_omega), if_pos h1, extractLsb'_append_eq_right]

theorem decodeRead_wram0 (c : DecodeCtx) (off : BitVec 12) : decodeRead c (0b1100#4 ++ off) = .rdWram0 off := by
  obtain ⟨h1, h2⟩ := wram0_window off
  rw [decodeRead_of_lt_ext c (by bv_omega), if_neg (by bv_omega), if_neg (by bv_omega), if_pos h1,
    extractLsb'_append_eq_right]

theorem decodeRead_sram (c : DecodeCtx) (off : BitVec 13) : decodeRead c (0b101#3 ++ off) = decodeSramRead c off := by
  obtain ⟨h1, h2⟩ := sram_window off
  rw [decodeRead_of_lt_ext c (by bv_omega), if_neg (by bv_omega), if_neg (by bv_omega), if_neg (by bv_omega), if_pos h1,
    extractLsb'_append_eq_right]

theorem decodeRead_vram (c : DecodeCtx) (off : BitVec 13) : decodeRead c (0b100#3 ++ off) = .rdVram off := by
  obtain ⟨h1, h2⟩ := vram_window off
  rw [decodeRead_of_lt_ext c (by bv_omega), if_neg (by bv_omega), if_neg (by bv_omega), if_neg (by bv_omega),
    if_neg (by bv_omega), if_pos h1, extractLsb'_append_eq_right]

theorem decodeRead_romx (c : DecodeCtx) (off : BitVec 14) : decodeRead c (0b01#2 ++ off) = .rdRomx off := by
  obtain ⟨h1, h2⟩ := romx_window off
  rw [decodeRead_of_lt_ext c (by bv_omega), if_neg (by bv_omega), if_neg (by bv_omega), if_neg (by bv_omega),
    if_neg (by bv_omega), if_neg (by bv_omega), if_pos h1, extractLsb'_append_eq_right]

theorem decodeRead_rom0 (c : DecodeCtx) (off : BitVec 14) : decodeRead c (0b00#2 ++ off) = .rdRom0 off := by
  obtain ⟨-, h2⟩ := rom0_window off
  rw [decodeRead_of_lt_ext c (by bv_omega), if_neg (by bv_omega), if_neg (by bv_omega), if_neg (by bv_omega),
    if_neg (by bv_omega), if_neg (by bv_omega), if_neg (by bv_omega), extractLsb'_append_eq_right]

theorem decodeWrite_wramx (c : DecodeCtx) (off : BitVec 12) (v : Byte) :
    decodeWrite c (0b1101#4 ++ off) v = .wrWramx off v := by
  obtain ⟨h1, h2⟩ := wramx_window off
  rw [decodeWrite_of_lt_ext c v (by bv_omega), if_neg (by bv_omega), if_pos h1, extractLsb'_append_eq_right]

theorem decodeWrite_wram0 (c : DecodeCtx) (off : BitVec 12) (v : Byte) :
    decodeWrite c (0b1100#4 ++ off) v = .wrWram0 off v := by
  obtain ⟨h1, h2⟩ := wram0_window off
  rw [decodeWrite_of_lt_ext c v (by bv_omega), if_neg (by bv_omega), if_neg (by bv_omega), if_pos h1,
    extractLsb'_append_eq_right]

theorem decodeWrite_sram (c : DecodeCtx) (off : BitVec 13) (v : Byte) :
    decodeWrite c (0b101#3 ++ off) v = decodeSramWrite c off v := by
  obtain ⟨h1, h2⟩ := sram_window off
  rw [decodeWrite_of_lt_ext c v (by bv_omega), if_neg (by bv_omega), if_neg (by bv_omega), if_neg (by bv_omega),
    if_pos h1, extractLsb'_append_eq_right]

theorem decodeWrite_vram (c : DecodeCtx) (off : BitVec 13) (v : Byte) :
    decodeWrite c (0b100#3 ++ off) v = .wrVram off v := by
  obtain ⟨h1, h2⟩ := vram_window off
  rw [decodeWrite_of_lt_ext c v (by bv_omega), if_neg (by bv_omega), if_neg (by bv_omega), if_neg (by bv_omega),
    if_neg (by bv_omega), if_pos h1, extractLsb'_append_eq_right]

/-! ## Control writes (30_encoding.md R116, R117) -/

theorem controlRange_eq_iff {a : Addr} (h : a < 0x8000#16) (k : BitVec 2) :
    controlRange a = k ↔ a.toNat / 8192 = k.toNat := by
  rw [← BitVec.toNat_inj, toNat_controlRange, Nat.mod_eq_of_lt (by bv_omega)]

/-- The decoder on a control write's word is the control decode. -/
theorem decode_controlWord (c : DecodeCtx) {a : Addr} (h : a < 0x8000#16) (v : Byte) :
    decode c (wrWord a v) = decodeControl c a v := by
  rw [decode_wrWord, decodeWrite_of_control c v h]

theorem decode_controlWord_A {c : DecodeCtx} (hf : c.family = .A) {a : Addr} (h : a < 0x8000#16) (v : Byte) :
    decode c (wrWord a v) = decodeControlA c a v := by rw [decode_controlWord c h, decodeControl, hf]

theorem decode_controlWord_B {c : DecodeCtx} (hf : c.family = .B) {a : Addr} (h : a < 0x8000#16) (v : Byte) :
    decode c (wrWord a v) = decodeControlB a v := by rw [decode_controlWord c h, decodeControl, hf]

theorem decode_controlWord_C {c : DecodeCtx} (hf : c.family = .C) {a : Addr} (h : a < 0x8000#16) (v : Byte) :
    decode c (wrWord a v) = decodeControlC a v := by rw [decode_controlWord c h, decodeControl, hf]

theorem decode_controlWord_D {c : DecodeCtx} (hf : c.family = .D) {a : Addr} (h : a < 0x8000#16) (v : Byte) :
    decode c (wrWord a v) = decodeControlD c a v := by rw [decode_controlWord c h, decodeControl, hf]

/-- The third control range of family `A` is split by the mode. -/
theorem decodeControlA_upper (c : DecodeCtx) (v : Byte) :
    decodeControlA c 0x4000#16 v =
      if c.mode = false then .upperARom (v.extractLsb' 0 2) else .upperARam (v.extractLsb' 0 2) := rfl

/-- The third control range of family `C` is split by the selector. -/
theorem decodeControlC_select (v : Byte) :
    decodeControlC 0x4000#16 v =
      if acceptedSelector (v.extractLsb' 0 4) = true then .ramselC (v.extractLsb' 0 4)
      else .ramselCRsvd (v.extractLsb' 0 4) := rfl

/-- The third control range of family `D` is split by the cartridge's motor. -/
theorem decodeControlD_ramBank (c : DecodeCtx) (v : Byte) :
    decodeControlD c 0x4000#16 v =
      if c.hasRumble = false then .rambD (v.extractLsb' 0 4)
      else .rambDRumble (v.extractLsb' 3 1) (v.extractLsb' 0 3) := rfl

theorem decodeControlB_ignored {a : Addr} (h1 : 0x4000#16 ≤ a) (h2 : a < 0x8000#16) (v : Byte) :
    decodeControlB a v = .ignB a v := by
  simp only [decodeControlB, controlRange_eq_iff h2]
  rw [if_neg (by bv_omega), if_neg (by bv_omega)]

theorem decodeControlD_ignored (c : DecodeCtx) {a : Addr} (h1 : 0x6000#16 ≤ a) (h2 : a < 0x8000#16) (v : Byte) :
    decodeControlD c a v = .ignD a v := by
  simp only [decodeControlD, controlRange_eq_iff h2]
  rw [if_neg (by bv_omega), if_neg (by bv_omega), if_neg (by bv_omega)]

/-! ## Every instruction decodes back from its word -/

theorem decode_encode {c : DecodeCtx} {i : Instr} (h : applies c i = true) : decode c (encode i) = i := by
  obtain ⟨hwf, hc⟩ := Bool.and_eq_true_iff.1 h
  cases i
  case rdVbk | rdDmaSrcHi | rdDmaSrcLo | rdDmaDstHi | rdDmaDstLo | rdDmaCtrl | rdSvbk => exact decode_rdWord c _
  case rdExt a => exact (decode_rdWord c a).trans (decodeRead_of_isExternal c hwf)
  case rdEcho a =>
    obtain ⟨h1, h2⟩ := (isEcho_iff a).1 hwf
    rw [encode, decode_rdWord, decodeRead_of_lt_ext c h2, if_pos h1]
  case rdWramx off => exact (decode_rdWord c _).trans (decodeRead_wramx c off)
  case rdWram0 off => exact (decode_rdWord c _).trans (decodeRead_wram0 c off)
  case rdSramOff off | rdSramRtc off | rdSramNone off | rdSramBank off =>
    rw [encode, decode_rdWord, decodeRead_sram]
    simp_all [decodeSramRead, Instr.cond, Nat.pos_iff_ne_zero]
  case rdVram off => exact (decode_rdWord c _).trans (decodeRead_vram c off)
  case rdRomx off => exact (decode_rdWord c _).trans (decodeRead_romx c off)
  case rdRom0 off => exact (decode_rdWord c _).trans (decodeRead_rom0 c off)
  case wrVbk v | wrDmaSrcHi v | wrDmaSrcLo v | wrDmaDstHi v | wrDmaDstLo v | wrSvbk v => exact decode_wrWord c _ v
  case wrDmaCtrl mode n =>
    exact (decode_wrWord c _ _).trans (congrArg₂ Instr.wrDmaCtrl extractLsb'_append_eq_left extractLsb'_append_eq_right)
  case wrExt a v => exact (decode_wrWord c a v).trans (decodeWrite_of_isExternal c v hwf)
  case wrEcho a v =>
    obtain ⟨h1, h2⟩ := (isEcho_iff a).1 hwf
    rw [encode, decode_wrWord, decodeWrite_of_lt_ext c v h2, if_pos h1]
  case wrWramx off v => exact (decode_wrWord c _ v).trans (decodeWrite_wramx c off v)
  case wrWram0 off v => exact (decode_wrWord c _ v).trans (decodeWrite_wram0 c off v)
  case wrSramOff off v | wrSramRtc off v | wrSramNone off v | wrSramBank off v =>
    rw [encode, decode_wrWord, decodeWrite_sram]
    simp_all [decodeSramWrite, Instr.cond, Nat.pos_iff_ne_zero]
  case wrVram off v => exact (decode_wrWord c _ v).trans (decodeWrite_vram c off v)
  case ctlNone a v =>
    have hf : c.family = .NONE := beq_iff_eq.1 hc
    rw [encode, decode_controlWord c (of_decide_eq_true hwf), decodeControl, hf]
  case ctlEf a v =>
    have hf : c.family = .E ∨ c.family = .F := by simpa [Instr.cond] using hc
    rw [encode, decode_controlWord c (of_decide_eq_true hwf), decodeControl]
    rcases hf with hf | hf <;> rw [hf]
  case ramen nibble =>
    have hf : ((c.family = .A ∨ c.family = .B) ∨ c.family = .C) ∨ c.family = .D := by simpa [Instr.cond] using hc
    rw [encode, decode_controlWord c (by decide), decodeControl]
    rcases hf with ((hf | hf) | hf) | hf <;> rw [hf] <;> exact congrArg Instr.ramen extractLsb'_append_eq_right
  case romloA bank =>
    exact (decode_controlWord_A (beq_iff_eq.1 hc) (by decide) _).trans (congrArg Instr.romloA extractLsb'_append_eq_right)
  case upperARom upper =>
    obtain ⟨hf, hm⟩ : c.family = .A ∧ c.mode = false := by simpa [Instr.cond] using hc
    rw [encode, decode_controlWord_A hf (by decide), decodeControlA_upper, if_pos hm, extractLsb'_append_eq_right]
  case upperARam upper =>
    obtain ⟨hf, hm⟩ : c.family = .A ∧ c.mode = true := by simpa [Instr.cond] using hc
    rw [encode, decode_controlWord_A hf (by decide), decodeControlA_upper, if_neg (by simp [hm]),
      extractLsb'_append_eq_right]
  case modeA mode =>
    exact (decode_controlWord_A (beq_iff_eq.1 hc) (by decide) _).trans (congrArg Instr.modeA extractLsb'_append_eq_right)
  case rombB bank =>
    exact (decode_controlWord_B (beq_iff_eq.1 hc) (by decide) _).trans (congrArg Instr.rombB extractLsb'_append_eq_right)
  case ignB a v =>
    obtain ⟨h1, h2⟩ : 0x4000#16 ≤ a ∧ a < 0x8000#16 := by simpa [Instr.wellFormed] using hwf
    rw [encode, decode_controlWord_B (beq_iff_eq.1 hc) h2, decodeControlB_ignored h1 h2]
  case rombC bank =>
    exact (decode_controlWord_C (beq_iff_eq.1 hc) (by decide) _).trans (congrArg Instr.rombC extractLsb'_append_eq_right)
  case ramselC sel =>
    have hs : acceptedSelector sel = true := hwf
    rw [encode, decode_controlWord_C (beq_iff_eq.1 hc) (by decide), decodeControlC_select,
      extractLsb'_append_eq_right, if_pos hs]
  case ramselCRsvd sel =>
    have hn : acceptedSelector sel = false := by simpa [Instr.wellFormed] using hwf
    rw [encode, decode_controlWord_C (beq_iff_eq.1 hc) (by decide), decodeControlC_select,
      extractLsb'_append_eq_right, if_neg (by simp [hn])]
  case latchC v => exact decode_controlWord_C (beq_iff_eq.1 hc) (by decide) v
  case romloD bank => exact decode_controlWord_D (beq_iff_eq.1 hc) (by decide) bank
  case romhiD bit8 =>
    exact (decode_controlWord_D (beq_iff_eq.1 hc) (by decide) _).trans (congrArg Instr.romhiD extractLsb'_append_eq_right)
  case rambD bank =>
    obtain ⟨hf, hm⟩ : c.family = .D ∧ c.hasRumble = false := by simpa [Instr.cond] using hc
    rw [encode, decode_controlWord_D hf (by decide), decodeControlD_ramBank, if_pos hm, extractLsb'_append_eq_right]
  case rambDRumble motor bank =>
    obtain ⟨hf, hm⟩ : c.family = .D ∧ c.hasRumble = true := by simpa [Instr.cond] using hc
    have hmotor : (0#4 ++ motor ++ bank).extractLsb' 3 1 = motor :=
      (extractLsb'_append_eq_of_le (by decide)).trans extractLsb'_append_eq_right
    rw [encode, decode_controlWord_D hf (by decide), decodeControlD_ramBank, if_neg (by simp [hm]), hmotor,
      extractLsb'_append_eq_right]
  case ignD a v =>
    obtain ⟨h1, h2⟩ : 0x6000#16 ≤ a ∧ a < 0x8000#16 := by simpa [Instr.wellFormed] using hwf
    rw [encode, decode_controlWord_D (beq_iff_eq.1 hc) h2, decodeControlD_ignored c h1 h2]
  case hb | tick | load | reset | save | restore => rfl

/-- Settles O43: row by row, the window or the control range of the encoded address decides the decoder's choice. -/
theorem decodeOfEncode : Obligations.DecodeOfEncode := fun _ _ h => decode_encode h

/-! ## What is decoded applies -/

theorem applies_decode (c : DecodeCtx) (w : OpWord) : applies c (decode c w) = true := by
  unfold decode
  refine Machine.ite_elim (P := fun i => applies c i = true) (fun _ => applies_decodeRead c _) fun _ => ?_
  refine Machine.ite_elim (P := fun i => applies c i = true) (fun _ => applies_decodeWrite c _ _) fun _ => ?_
  refine Machine.ite_elim (P := fun i => applies c i = true) (fun _ => rfl) fun _ => ?_
  refine Machine.ite_elim (P := fun i => applies c i = true) (fun _ => rfl) fun _ => ?_
  refine Machine.ite_elim (P := fun i => applies c i = true) (fun _ => rfl) fun _ => ?_
  refine Machine.ite_elim (P := fun i => applies c i = true) (fun _ => rfl) fun _ => ?_
  exact Machine.ite_elim (P := fun i => applies c i = true) (fun _ => rfl) fun _ => rfl

namespace Machine

/-- `LOAD` and `SAVE` apply in every session; every other instruction has its meaning in the frame of a row. -/
theorem exec_refused_of_not_applies {i : Instr} {x : Session} (h : applies x.ctx i = false) (e : Env) :
    exec i ⟨some x, e⟩ = .refused .rowNotSelected := by
  cases i
  case load => cases h
  case save => cases h
  all_goals exact if_neg (ne_true_of_eq_false h)

end Machine

/-- Settles O45: the decoder's choice window by window, and the frame of a row, which refuses what does not apply. -/
theorem decodedRowApplies : Obligations.DecodedRowApplies :=
  ⟨applies_decode, fun _ _ e h => Machine.exec_refused_of_not_applies h e⟩

/-- Settles O46: each word evaluated in the session of its cartridge. -/
theorem specWordsDecode : Obligations.SpecWordsDecode := by
  unfold Obligations.SpecWordsDecode
  decide

end Sys2Proof
end

section
/-! PROOF that the decoder is the opcode table (30_encoding.md R111, R129): which words a row takes, as an interval of
addresses; then the table walked row by row beside the decoder's tests. -/

namespace Sys2Proof

/-! ## The words a row takes -/

theorem exists_opWord (w : OpWord) : ∃ op a v, w = opWord op a v := by
  refine ⟨fieldOp w, fieldAddr w, fieldData w, ?_⟩
  unfold opWord fieldOp fieldAddr fieldData
  have h : w.extractLsb' 24 3 ++ w.extractLsb' 8 16 = w.extractLsb' 8 19 :=
    BitVec.extractLsb'_append_extractLsb'_eq_extractLsb' rfl
  exact ((congrArg (· ++ w.extractLsb' 0 8) h).trans BitVec.extractLsb'_append_extractLsb').symm

theorem opWord_and (op op' : BitVec 3) (a a' : Addr) (v v' : Byte) :
    opWord op a v &&& opWord op' a' v' = opWord (op &&& op') (a &&& a') (v &&& v') :=
  (BitVec.and_append (x₁ := op ++ a) (x₂ := op' ++ a')).trans (congrArg (· ++ (v &&& v')) BitVec.and_append)

theorem fieldOp_and (w m : OpWord) : fieldOp (w &&& m) = fieldOp w &&& fieldOp m := BitVec.extractLsb'_and

theorem opWord_inj {op op' : BitVec 3} {a a' : Addr} {v v' : Byte} (h : opWord op a v = opWord op' a' v') :
    op = op' ∧ a = a' ∧ v = v' :=
  ⟨by simpa using congrArg fieldOp h, by simpa using congrArg fieldAddr h, by simpa using congrArg fieldData h⟩

/-- The offset of an address inside its window, read from the word. -/
theorem extractLsb'_opWord_addr (op : BitVec 3) (a : Addr) (v : Byte) {n : Nat} (hn : n ≤ 16) :
    (opWord op a v).extractLsb' 8 n = a.extractLsb' 0 n := by
  unfold opWord
  rw [BitVec.extractLsb'_append_eq_of_le (by omega), BitVec.extractLsb'_append_eq_of_add_le (by omega)]

/-- A field of the data byte, read from the word. -/
theorem extractLsb'_opWord_data (op : BitVec 3) (a : Addr) (v : Byte) {start n : Nat} (hn : start + n ≤ 8) :
    (opWord op a v).extractLsb' start n = v.extractLsb' start n :=
  BitVec.extractLsb'_append_eq_of_add_le hn

/-- The row's mask and pattern single out the words of operation `op` with an address in the aligned block of `2 ^ k`
addresses at `base`. -/
structure TableRow.HasBlock (row : TableRow) (op : BitVec 3) (k : Nat) (base : Addr) : Prop where
  mask : row.mask = opWord 7#3 (BitVec.allOnes 16 <<< k) 0#8
  pattern : row.pattern = opWord op base 0#8
  aligned : base.toNat % 2 ^ k = 0

/-- The high bits of an address are those of an aligned base exactly in the base's block. -/
theorem and_highMask_eq_iff {k : Nat} {base : Addr} (hb : base.toNat % 2 ^ k = 0) (a : Addr) :
    a &&& (BitVec.allOnes 16 <<< k) = base ↔ base.toNat ≤ a.toNat ∧ a.toNat < base.toNat + 2 ^ k := by
  have hpos : 0 < 2 ^ k := Nat.two_pow_pos k
  have ha : (a &&& (BitVec.allOnes 16 <<< k)).toNat = 2 ^ k * (a.toNat / 2 ^ k) := by
    rw [← BitVec.shiftLeft_ushiftRight, BitVec.toNat_shiftLeft, BitVec.toNat_ushiftRight, Nat.shiftLeft_eq,
      Nat.shiftRight_eq_div_pow, Nat.mul_comm, Nat.mod_eq_of_lt (Nat.lt_of_le_of_lt (Nat.mul_div_le _ _) a.isLt)]
  have hbase : 2 ^ k * (base.toNat / 2 ^ k) = base.toNat := Nat.mul_div_cancel' (Nat.dvd_of_mod_eq_zero hb)
  rw [← BitVec.toNat_inj, ha]
  constructor
  · intro h
    have h1 := Nat.div_add_mod a.toNat (2 ^ k)
    have h2 := Nat.mod_lt a.toNat hpos
    omega
  · rintro ⟨h1, h2⟩
    rw [← hbase, Nat.mul_right_inj (by omega)]
    refine Nat.div_eq_of_lt_le ?_ ?_
    · rw [Nat.mul_comm, hbase]; exact h1
    · rw [Nat.mul_comm, Nat.mul_add, hbase]; omega

theorem TableRow.HasBlock.takes_iff {row : TableRow} {o : BitVec 3} {k : Nat} {base : Addr} (h : row.HasBlock o k base)
    (c : DecodeCtx) (op : BitVec 3) (a : Addr) (v : Byte) :
    row.takes c (opWord op a v) = true ↔
      op = o ∧ (base.toNat ≤ a.toNat ∧ a.toNat < base.toNat + 2 ^ k) ∧ row.cond c (opWord op a v) = true := by
  have h7 : op &&& 7#3 = op := BitVec.and_allOnes
  rw [← and_highMask_eq_iff h.aligned, TableRow.takes, Bool.and_eq_true, beq_iff_eq, h.mask, h.pattern, opWord_and, h7,
    BitVec.and_zero, ← and_assoc]
  refine and_congr_left fun _ => ⟨fun e => ?_, fun ⟨ho, ha⟩ => by rw [ho, ha]⟩
  obtain ⟨ho, ha, -⟩ := opWord_inj e
  exact ⟨ho, ha⟩

/-! ## The first row of a list that takes a word -/

/-- What the first of the rows that takes the word reads from it. -/
def firstRow (c : DecodeCtx) (w : OpWord) (rows : List TableRow) : Option Instr :=
  (rows.find? (fun row => row.takes c w)).map (fun row => row.instr w)

theorem firstRow_append (c : DecodeCtx) (w : OpWord) (rows rows' : List TableRow) :
    firstRow c w (rows ++ rows') = (firstRow c w rows).or (firstRow c w rows') := by
  unfold firstRow
  rw [List.find?_append, Option.map_or]

theorem firstRow_cons_of_not_takes {c : DecodeCtx} {w : OpWord} {row : TableRow} (h : row.takes c w = false)
    (rows : List TableRow) : firstRow c w (row :: rows) = firstRow c w rows := by
  unfold firstRow
  rw [List.find?_cons_of_neg (by simp [h])]

/-- The first row beside the decoder's first test: the row takes the word where the test holds, and where it fails the rest
of the rows agrees with the rest of the decoder. -/
theorem firstRow_cons {c : DecodeCtx} {w : OpWord} {row : TableRow} {rows : List TableRow} {p : Prop} [Decidable p]
    {i j : Instr} (hp : row.takes c w = true ↔ p) (hi : row.instr w = i) (hj : ¬ p → firstRow c w rows = some j) :
    firstRow c w (row :: rows) = some (if p then i else j) := by
  by_cases h : p
  · rw [if_pos h, ← hi, firstRow, List.find?_cons_of_pos (hp.2 h), Option.map_some]
  · rw [if_neg h, ← hj h, firstRow_cons_of_not_takes (by simpa using mt hp.1 h)]

/-- No row of another operation takes a word. -/
theorem firstRow_of_other_op {c : DecodeCtx} {op o : BitVec 3} {rows : List TableRow}
    (h : ∀ row ∈ rows, fieldOp row.mask = 7#3 ∧ fieldOp row.pattern = o) (ho : op ≠ o) (a : Addr) (v : Byte) :
    firstRow c (opWord op a v) rows = none := by
  unfold firstRow
  rw [List.find?_eq_none.2, Option.map_none]
  intro row hrow htakes
  obtain ⟨hm, hp⟩ := h row hrow
  have hw : opWord op a v &&& row.mask = row.pattern := beq_iff_eq.1 (Bool.and_eq_true_iff.1 htakes).1
  apply ho
  calc op = op &&& 7#3 := BitVec.and_allOnes.symm
    _ = fieldOp (opWord op a v &&& row.mask) := by rw [fieldOp_and, fieldOp_opWord, hm]
    _ = o := by rw [hw, hp]

/-! ## The kinds of rows beside the kinds of tests -/

/-- A test inside a test, as a chain of tests. -/
theorem ite_ite_else {α : Type} (p q : Prop) [Decidable p] [Decidable q] (x y z : α) :
    (if p then (if q then x else y) else z) = if p ∧ q then x else if p then y else z := by
  by_cases hp : p <;> by_cases hq : q <;> simp [hp, hq]

section
variable {c : DecodeCtx} {op : BitVec 3} {a : Addr} {v : Byte} {row : TableRow} {rows : List TableRow} {i j : Instr}

/-- A row with a condition on the session or the data byte: the test is on the block and on the condition. -/
theorem firstRow_split (k : Nat) (base : Addr) {p : Prop} [Decidable p] (hb : row.HasBlock op k base)
    (hp : (base.toNat ≤ a.toNat ∧ a.toNat < base.toNat + 2 ^ k) ∧ row.cond c (opWord op a v) = true ↔ p)
    (hi : row.instr (opWord op a v) = i) (hj : ¬ p → firstRow c (opWord op a v) rows = some j) :
    firstRow c (opWord op a v) (row :: rows) = some (if p then i else j) :=
  firstRow_cons ((hb.takes_iff c op a v).trans (by rw [eq_self, true_and, hp])) hi hj

/-- A row without a condition: the test is on the block alone. -/
theorem firstRow_window (k : Nat) (base : Addr) {p : Prop} [Decidable p] (hb : row.HasBlock op k base)
    (hc : row.cond c (opWord op a v) = true) (hp : base.toNat ≤ a.toNat ∧ a.toNat < base.toNat + 2 ^ k ↔ p)
    (hi : row.instr (opWord op a v) = i) (hj : ¬ p → firstRow c (opWord op a v) rows = some j) :
    firstRow c (opWord op a v) (row :: rows) = some (if p then i else j) :=
  firstRow_split k base hb (by rw [hc, eq_self, and_true, hp]) hi hj

/-- A register's row: the test is on its one address. -/
theorem firstRow_register {r : Addr} (hb : row.HasBlock op 0 r) (hc : row.cond c (opWord op a v) = true)
    (hi : row.instr (opWord op a v) = i) (hj : ¬ a = r → firstRow c (opWord op a v) rows = some j) :
    firstRow c (opWord op a v) (row :: rows) = some (if a = r then i else j) :=
  firstRow_window 0 r hb hc (by rw [← BitVec.toNat_inj]; omega) hi hj

/-- The row of the decoder's last branch. -/
theorem firstRow_last (k : Nat) (base : Addr) (hb : row.HasBlock op k base) (hc : row.cond c (opWord op a v) = true)
    (hp : base.toNat ≤ a.toNat ∧ a.toNat < base.toNat + 2 ^ k) (hi : row.instr (opWord op a v) = i) :
    firstRow c (opWord op a v) (row :: rows) = some i :=
  (firstRow_window (rows := rows) (j := i) k base hb hc (iff_true_intro hp) hi fun h => absurd trivial h).trans
    (congrArg some (if_pos trivial))

/-- The four rows of the storage window, told apart by the session in the order of 43_mapper.md R275 and R281. -/
theorem firstRow_storage {r1 r2 r3 r4 : TableRow} {i1 i2 i3 i4 : Instr} (ha : a < 0xC000#16)
    (b1 : r1.HasBlock op 13 0xA000#16) (b2 : r2.HasBlock op 13 0xA000#16)
    (b3 : r3.HasBlock op 13 0xA000#16) (b4 : r4.HasBlock op 13 0xA000#16)
    (c1 : r1.cond c (opWord op a v) = !c.ramEnable) (c2 : r2.cond c (opWord op a v) = (c.ramEnable && c.isRtcSel))
    (c3 : r3.cond c (opWord op a v) = (c.ramEnable && !c.isRtcSel && c.ramBanks == 0))
    (c4 : r4.cond c (opWord op a v) = (c.ramEnable && !c.isRtcSel && decide (0 < c.ramBanks)))
    (h1 : r1.instr (opWord op a v) = i1) (h2 : r2.instr (opWord op a v) = i2)
    (h3 : r3.instr (opWord op a v) = i3) (h4 : r4.instr (opWord op a v) = i4)
    (hj : ¬ 0xA000#16 ≤ a → firstRow c (opWord op a v) rows = some j) :
    firstRow c (opWord op a v) (r1 :: r2 :: r3 :: r4 :: rows) =
      some (if 0xA000#16 ≤ a then
          (if c.ramEnable = false then i1 else if c.isRtcSel = true then i2 else if c.ramBanks = 0 then i3 else i4)
        else j) := by
  have hw : (0xA000#16).toNat ≤ a.toNat ∧ a.toNat < (0xA000#16).toNat + 2 ^ 13 ↔ 0xA000#16 ≤ a := by bv_omega
  simp only [ite_ite_else]
  refine firstRow_split 13 _ b1 (by rw [hw, c1, Bool.not_eq_true']) h1 fun n1 => ?_
  refine firstRow_split 13 _ b2 (by rw [hw, c2]; simp_all) h2 fun n2 => ?_
  refine firstRow_split 13 _ b3 (by rw [hw, c3]; simp_all) h3 fun n3 => ?_
  exact firstRow_split 13 _ b4 (by rw [hw, c4]; simp_all [Nat.pos_iff_ne_zero]) h4 hj

/-- An event's row: the test is on the operation select alone. -/
theorem firstRow_event (o : BitVec 3) (hb : row.HasBlock o 16 0#16) (hc : row.cond c (opWord op a v) = true)
    (hi : row.instr (opWord op a v) = i) (hj : ¬ op = o → firstRow c (opWord op a v) rows = some j) :
    firstRow c (opWord op a v) (row :: rows) = some (if op = o then i else j) :=
  firstRow_cons ((hb.takes_iff c op a v).trans (by rw [hc]; simp [a.isLt])) hi hj

/-- Rows whose condition the session does not meet are passed over. -/
theorem firstRow_drop (n : Nat) (h : ∀ row ∈ rows.take n, row.cond c (opWord op a v) = false) :
    firstRow c (opWord op a v) rows = firstRow c (opWord op a v) (rows.drop n) := by
  have hnone : (rows.take n).find? (fun row => row.takes c (opWord op a v)) = none :=
    List.find?_eq_none.2 fun row hrow => by simp [TableRow.takes, h row hrow]
  rw [← List.take_append_drop n rows, firstRow_append, firstRow, hnone, List.take_append_drop, Option.map_none,
    Option.none_or]

/-- A control range's row: the test is on the range (30_encoding.md R116). -/
theorem firstRow_range (ha : a < 0x8000#16) (k : BitVec 2) (base : Addr) (hk : base.toNat = k.toNat * 8192)
    (hb : row.HasBlock op 13 base) (hc : row.cond c (opWord op a v) = true) (hi : row.instr (opWord op a v) = i)
    (hj : ¬ controlRange a = k → firstRow c (opWord op a v) rows = some j) :
    firstRow c (opWord op a v) (row :: rows) = some (if controlRange a = k then i else j) :=
  firstRow_window 13 base hb hc (by rw [controlRange_eq_iff ha, hk]; omega) hi hj

/-- A control range's two rows, told apart by a test `q`. -/
theorem firstRow_range_pair (ha : a < 0x8000#16) (k : BitVec 2) (base : Addr) (hk : base.toNat = k.toNat * 8192)
    {q : Prop} [Decidable q] {row' : TableRow} {i' : Instr} (hb : row.HasBlock op 13 base) (hb' : row'.HasBlock op 13 base)
    (hc : row.cond c (opWord op a v) = true ↔ q) (hc' : row'.cond c (opWord op a v) = true ↔ ¬ q)
    (hi : row.instr (opWord op a v) = i) (hi' : row'.instr (opWord op a v) = i')
    (hj : ¬ controlRange a = k → firstRow c (opWord op a v) rows = some j) :
    firstRow c (opWord op a v) (row :: row' :: rows) =
      some (if controlRange a = k then (if q then i else i') else j) := by
  have hw : base.toNat ≤ a.toNat ∧ a.toNat < base.toNat + 2 ^ 13 ↔ controlRange a = k := by
    rw [controlRange_eq_iff ha, hk]; omega
  rw [ite_ite_else]
  refine firstRow_split 13 base hb (by rw [hw, hc]) hi fun hn => ?_
  refine firstRow_split 13 base hb' ?_ hi' hj
  rw [hw, hc']
  exact and_iff_left_of_imp fun hk hq => hn ⟨hk, hq⟩

end

/-! ## The table beside the decoder -/

theorem firstRow_rowsRead (c : DecodeCtx) (a : Addr) (v : Byte) :
    firstRow c (opWord 0#3 a v) rowsRead = some (decodeRead c a) := by
  unfold decodeRead decodeSramRead
  simp only [Config.block_lows]
  have addr := fieldAddr_opWord 0#3 a v
  have off := fun {n : Nat} => extractLsb'_opWord_addr 0#3 a v (n := n)
  refine firstRow_register ⟨rfl, rfl, rfl⟩ rfl rfl fun _ => ?_
  refine firstRow_register ⟨rfl, rfl, rfl⟩ rfl rfl fun _ => ?_
  refine firstRow_register ⟨rfl, rfl, rfl⟩ rfl rfl fun _ => ?_
  refine firstRow_register ⟨rfl, rfl, rfl⟩ rfl rfl fun _ => ?_
  refine firstRow_register ⟨rfl, rfl, rfl⟩ rfl rfl fun _ => ?_
  refine firstRow_register ⟨rfl, rfl, rfl⟩ rfl rfl fun _ => ?_
  refine firstRow_register ⟨rfl, rfl, rfl⟩ rfl rfl fun _ => ?_
  refine firstRow_window 9 0xFE00#16 ⟨rfl, rfl, rfl⟩ rfl (by bv_omega) (congrArg Instr.rdExt addr) fun hext => ?_
  refine firstRow_window 13 0xE000#16 ⟨rfl, rfl, rfl⟩ rfl (by bv_omega) (congrArg Instr.rdEcho addr) fun hecho => ?_
  refine firstRow_window 12 0xD000#16 ⟨rfl, rfl, rfl⟩ rfl (by bv_omega) (congrArg Instr.rdWramx (off (by decide)))
    fun hwramx => ?_
  refine firstRow_window 12 0xC000#16 ⟨rfl, rfl, rfl⟩ rfl (by bv_omega) (congrArg Instr.rdWram0 (off (by decide)))
    fun hwram0 => ?_
  refine firstRow_storage (by bv_omega) ⟨rfl, rfl, rfl⟩ ⟨rfl, rfl, rfl⟩ ⟨rfl, rfl, rfl⟩ ⟨rfl, rfl, rfl⟩ rfl rfl rfl rfl
    (congrArg Instr.rdSramOff (off (by decide))) (congrArg Instr.rdSramRtc (off (by decide)))
    (congrArg Instr.rdSramNone (off (by decide))) (congrArg Instr.rdSramBank (off (by decide))) fun hsram => ?_
  refine firstRow_window 13 0x8000#16 ⟨rfl, rfl, rfl⟩ rfl (by bv_omega) (congrArg Instr.rdVram (off (by decide)))
    fun hvram => ?_
  refine firstRow_window 14 0x4000#16 ⟨rfl, rfl, rfl⟩ rfl (by bv_omega) (congrArg Instr.rdRomx (off (by decide)))
    fun hromx => ?_
  exact firstRow_last 14 0x0000#16 ⟨rfl, rfl, rfl⟩ rfl (by bv_omega) (congrArg Instr.rdRom0 (off (by decide)))

theorem bit12_eq_zero_iff (a : Addr) : a.extractLsb' 12 1 = 0#1 ↔ a.toNat / 4096 % 2 = 0 := by
  rw [← BitVec.toNat_inj, BitVec.extractLsb'_toNat, Nat.shiftRight_eq_div_pow]
  exact Iff.rfl

theorem firstRow_rowsControl (c : DecodeCtx) {a : Addr} (ha : a < 0x8000#16) (v : Byte) :
    firstRow c (opWord 1#3 a v) rowsControl = some (decodeControl c a v) := by
  have addr := fieldAddr_opWord 1#3 a v
  have data := fieldData_opWord 1#3 a v
  have bits := fun {start n : Nat} => extractLsb'_opWord_data 1#3 a v (start := start) (n := n)
  have range := controlRange_eq_iff ha
  unfold decodeControl
  cases hf : c.family
  case NONE =>
    exact firstRow_last 15 0x0000#16 ⟨rfl, rfl, rfl⟩ (beq_iff_eq.2 hf) (by bv_omega) (congrArg₂ Instr.ctlNone addr data)
  case E =>
    rw [firstRow_drop 1 (by simp [rowsControl, hf])]
    exact firstRow_last 15 0x0000#16 ⟨rfl, rfl, rfl⟩ (by simp [hf]) (by bv_omega) (congrArg₂ Instr.ctlEf addr data)
  case F =>
    rw [firstRow_drop 1 (by simp [rowsControl, hf])]
    exact firstRow_last 15 0x0000#16 ⟨rfl, rfl, rfl⟩ (by simp [hf]) (by bv_omega) (congrArg₂ Instr.ctlEf addr data)
  case A =>
    simp only [decodeControlA]
    rw [firstRow_drop 2 (by simp [rowsControl, hf])]
    refine firstRow_range ha _ 0x0000#16 rfl ⟨rfl, rfl, rfl⟩ (by simp [hf]) (congrArg Instr.ramen (bits (by decide)))
      fun k0 => ?_
    refine firstRow_range ha _ 0x2000#16 rfl ⟨rfl, rfl, rfl⟩ (by simp [hf]) (congrArg Instr.romloA (bits (by decide)))
      fun k1 => ?_
    refine firstRow_range_pair ha _ 0x4000#16 rfl ⟨rfl, rfl, rfl⟩ ⟨rfl, rfl, rfl⟩ (by simp [hf]) (by simp [hf])
      (congrArg Instr.upperARom (bits (by decide))) (congrArg Instr.upperARam (bits (by decide))) fun k2 => ?_
    rw [range] at k0 k1 k2
    exact firstRow_last 13 0x6000#16 ⟨rfl, rfl, rfl⟩ (by simp [hf]) (by bv_omega) (congrArg Instr.modeA (bits (by decide)))
  case B =>
    simp only [decodeControlB]
    rw [firstRow_drop 2 (by simp [rowsControl, hf])]
    refine firstRow_range ha _ 0x0000#16 rfl ⟨rfl, rfl, rfl⟩ (by simp [hf]) (congrArg Instr.ramen (bits (by decide)))
      fun k0 => ?_
    rw [firstRow_drop 4 (by simp [hf])]
    refine firstRow_range ha _ 0x2000#16 rfl ⟨rfl, rfl, rfl⟩ (by simp [hf]) (congrArg Instr.rombB (bits (by decide)))
      fun k1 => ?_
    rw [range] at k0 k1
    exact firstRow_last 14 0x4000#16 ⟨rfl, rfl, rfl⟩ (by simp [hf]) (by bv_omega) (congrArg₂ Instr.ignB addr data)
  case C =>
    simp only [decodeControlC]
    rw [firstRow_drop 2 (by simp [rowsControl, hf])]
    refine firstRow_range ha _ 0x0000#16 rfl ⟨rfl, rfl, rfl⟩ (by simp [hf]) (congrArg Instr.ramen (bits (by decide)))
      fun k0 => ?_
    rw [firstRow_drop 6 (by simp [hf])]
    refine firstRow_range ha _ 0x2000#16 rfl ⟨rfl, rfl, rfl⟩ (by simp [hf]) (congrArg Instr.rombC (bits (by decide)))
      fun k1 => ?_
    refine firstRow_range_pair ha _ 0x4000#16 rfl ⟨rfl, rfl, rfl⟩ ⟨rfl, rfl, rfl⟩ (by simp [hf, bits]) (by simp [hf, bits])
      (congrArg Instr.ramselC (bits (by decide))) (congrArg Instr.ramselCRsvd (bits (by decide))) fun k2 => ?_
    rw [range] at k0 k1 k2
    exact firstRow_last 13 0x6000#16 ⟨rfl, rfl, rfl⟩ (by simp [hf]) (by bv_omega) (congrArg Instr.latchC data)
  case D =>
    simp only [decodeControlD]
    rw [firstRow_drop 2 (by simp [rowsControl, hf])]
    refine firstRow_range ha _ 0x0000#16 rfl ⟨rfl, rfl, rfl⟩ (by simp [hf]) (congrArg Instr.ramen (bits (by decide)))
      fun k0 => ?_
    rw [firstRow_drop 10 (by simp [hf]), ite_ite_else]
    have hlow : 0x2000 ≤ a.toNat ∧ a.toNat < 0x2000 + 2 ^ 12 ↔ controlRange a = 1#2 ∧ a.extractLsb' 12 1 = 0#1 := by
      rw [range, bit12_eq_zero_iff]; bv_omega
    refine firstRow_window 12 0x2000#16 ⟨rfl, rfl, rfl⟩ (by simp [hf]) hlow (congrArg Instr.romloD data) fun klow => ?_
    have hhigh : 0x3000 ≤ a.toNat ∧ a.toNat < 0x3000 + 2 ^ 12 ↔ controlRange a = 1#2 := by
      rw [← hlow] at klow; rw [range]; bv_omega
    refine firstRow_window 12 0x3000#16 ⟨rfl, rfl, rfl⟩ (by simp [hf]) hhigh (congrArg Instr.romhiD (bits (by decide)))
      fun k1 => ?_
    refine firstRow_range_pair ha _ 0x4000#16 rfl ⟨rfl, rfl, rfl⟩ ⟨rfl, rfl, rfl⟩ (by simp [hf]) (by simp [hf])
      (congrArg Instr.rambD (bits (by decide))) (congrArg₂ Instr.rambDRumble (bits (by decide)) (bits (by decide)))
      fun k2 => ?_
    rw [range] at k0 k1 k2
    exact firstRow_last 13 0x6000#16 ⟨rfl, rfl, rfl⟩ (by simp [hf]) (by bv_omega) (congrArg₂ Instr.ignD addr data)

theorem firstRow_rowsWrite_rowsControl (c : DecodeCtx) (a : Addr) (v : Byte) :
    firstRow c (opWord 1#3 a v) (rowsWrite ++ rowsControl) = some (decodeWrite c a v) := by
  unfold decodeWrite decodeSramWrite
  simp only [Config.block_lows]
  have addr := fieldAddr_opWord 1#3 a v
  have data := fieldData_opWord 1#3 a v
  have off := fun {n : Nat} => extractLsb'_opWord_addr 1#3 a v (n := n)
  have bits := fun {start n : Nat} => extractLsb'_opWord_data 1#3 a v (start := start) (n := n)
  refine firstRow_register ⟨rfl, rfl, rfl⟩ rfl (congrArg Instr.wrVbk data) fun _ => ?_
  refine firstRow_register ⟨rfl, rfl, rfl⟩ rfl (congrArg Instr.wrDmaSrcHi data) fun _ => ?_
  refine firstRow_register ⟨rfl, rfl, rfl⟩ rfl (congrArg Instr.wrDmaSrcLo data) fun _ => ?_
  refine firstRow_register ⟨rfl, rfl, rfl⟩ rfl (congrArg Instr.wrDmaDstHi data) fun _ => ?_
  refine firstRow_register ⟨rfl, rfl, rfl⟩ rfl (congrArg Instr.wrDmaDstLo data) fun _ => ?_
  refine firstRow_register ⟨rfl, rfl, rfl⟩ rfl (congrArg₂ Instr.wrDmaCtrl (bits (by decide)) (bits (by decide)))
    fun _ => ?_
  refine firstRow_register ⟨rfl, rfl, rfl⟩ rfl (congrArg Instr.wrSvbk data) fun _ => ?_
  refine firstRow_window 9 0xFE00#16 ⟨rfl, rfl, rfl⟩ rfl (by bv_omega) (congrArg₂ Instr.wrExt addr data) fun hext => ?_
  refine firstRow_window 13 0xE000#16 ⟨rfl, rfl, rfl⟩ rfl (by bv_omega) (congrArg₂ Instr.wrEcho addr data) fun hecho => ?_
  refine firstRow_window 12 0xD000#16 ⟨rfl, rfl, rfl⟩ rfl (by bv_omega) (congrArg₂ Instr.wrWramx (off (by decide)) data)
    fun hwramx => ?_
  refine firstRow_window 12 0xC000#16 ⟨rfl, rfl, rfl⟩ rfl (by bv_omega) (congrArg₂ Instr.wrWram0 (off (by decide)) data)
    fun hwram0 => ?_
  refine firstRow_storage (by bv_omega) ⟨rfl, rfl, rfl⟩ ⟨rfl, rfl, rfl⟩ ⟨rfl, rfl, rfl⟩ ⟨rfl, rfl, rfl⟩ rfl rfl rfl rfl
    (congrArg₂ Instr.wrSramOff (off (by decide)) data) (congrArg₂ Instr.wrSramRtc (off (by decide)) data)
    (congrArg₂ Instr.wrSramNone (off (by decide)) data) (congrArg₂ Instr.wrSramBank (off (by decide)) data) fun hsram => ?_
  refine firstRow_window 13 0x8000#16 ⟨rfl, rfl, rfl⟩ rfl (by bv_omega) (congrArg₂ Instr.wrVram (off (by decide)) data)
    fun hvram => ?_
  exact firstRow_rowsControl c (by bv_omega) v

theorem firstRow_rowsEvent (c : DecodeCtx) {op : BitVec 3} (h0 : ¬ op = 0#3) (h1 : ¬ op = 1#3) (a : Addr) (v : Byte) :
    firstRow c (opWord op a v) rowsEvent =
      some (if op = 2#3 then .hb else if op = 3#3 then .tick else if op = 4#3 then .load else if op = 5#3 then .reset
        else if op = 6#3 then .save else .restore) := by
  refine firstRow_event _ ⟨rfl, rfl, rfl⟩ rfl rfl fun h2 => ?_
  refine firstRow_event _ ⟨rfl, rfl, rfl⟩ rfl rfl fun h3 => ?_
  refine firstRow_event _ ⟨rfl, rfl, rfl⟩ rfl rfl fun h4 => ?_
  refine firstRow_event _ ⟨rfl, rfl, rfl⟩ rfl rfl fun h5 => ?_
  refine firstRow_event _ ⟨rfl, rfl, rfl⟩ rfl rfl fun h6 => ?_
  obtain rfl : op = 7#3 := by bv_omega
  exact firstRow_last 16 0x0000#16 ⟨rfl, rfl, rfl⟩ rfl ⟨Nat.zero_le _, by simpa using a.isLt⟩ rfl

theorem firstRow_opcodeTable (c : DecodeCtx) (w : OpWord) : firstRow c w opcodeTable = some (decode c w) := by
  obtain ⟨op, a, v, rfl⟩ := exists_opWord w
  have table : opcodeTable = rowsRead ++ (rowsWrite ++ rowsControl) ++ rowsEvent := rfl
  have reads : ∀ row ∈ rowsRead, fieldOp row.mask = 7#3 ∧ fieldOp row.pattern = 0#3 := by decide
  have writes : ∀ row ∈ rowsWrite ++ rowsControl, fieldOp row.mask = 7#3 ∧ fieldOp row.pattern = 1#3 := by decide
  rw [table, firstRow_append, firstRow_append, decode, fieldOp_opWord, fieldAddr_opWord, fieldData_opWord]
  by_cases h0 : op = 0#3
  · rw [h0, firstRow_rowsRead, Option.some_or, Option.some_or, if_pos rfl]
  rw [if_neg h0, firstRow_of_other_op reads h0, Option.none_or]
  by_cases h1 : op = 1#3
  · rw [h1, firstRow_rowsWrite_rowsControl, Option.some_or, if_pos rfl]
  rw [if_neg h1, firstRow_of_other_op writes h1, Option.none_or, firstRow_rowsEvent c h0 h1]

/-- Settles O44: the table walked row by row beside the decoder's tests. -/
theorem decoderTakesTheFirstRowThatApplies : Obligations.DecoderTakesTheFirstRowThatApplies := firstRow_opcodeTable

end Sys2Proof
end

section
/-! PROOFS of the statements on `LOAD` (40_descriptor.md): what a header of listed codes does, and its two outcomes by the
lengths of the arrays. -/

namespace Sys2Proof.Machine

/-- The header of three listed codes (40_descriptor.md R160, R163). -/
theorem describe_listed {strength : Nat} {typeByte romSizeByte ramSizeByte : Byte} {t : Family × Bool × Bool} {m : Nat}
    (ht : typeTable typeByte = some t) (hn : romSizeByte.toNat ≤ 8) (hm : ramSizeTable ramSizeByte = some m) :
    describe strength typeByte romSizeByte ramSizeByte = some (mkDesc strength t (2 ^ (romSizeByte.toNat + 1)) m) := by
  rw [describe, ht, romSizeTable_listed _ hn, hm]

theorem lengthsMatch_iff (d : Desc) (p : SidePorts) :
    lengthsMatch d p = true ↔ p.rom.len = d.romBanks * 16384 ∧ p.initSram.len = d.ramBanks * 8192 := by
  rw [lengthsMatch, Bool.and_eq_true, decide_eq_true_eq, decide_eq_true_eq, romBankSize_eq, ramBankSize_eq]

/-- `LOAD` of a header that is not malformed looks at the lengths of the arrays alone (40_descriptor.md R169). -/
theorem exec_load_of_describe {s : State} {d : Desc}
    (hd : describe s.env.par.rumbleStrength s.env.ports.typeByte s.env.ports.romSizeByte s.env.ports.ramSizeByte = some d) :
    exec .load s = if lengthsMatch d s.env.ports = true then .next (openSession d s) else .refused .arrayLengths := by
  rw [exec, execLoad, hd]

/-- Images in canonical form become the session's arrays as they are listed (log 13). -/
theorem openSession_of_canonical {s : State} (d : Desc)
    (hrom : Mem.wf (some 0x00#8) s.env.ports.rom.len s.env.ports.rom.cells)
    (hsram : Mem.wf (some 0x00#8) s.env.ports.initSram.len s.env.ports.initSram.cells) :
    openSession d s =
      ⟨some (freshSession d s.env.ports.rom.cells s.env.ports.initSram.cells s.env.hostNow s.env.draws),
        { s.env.nextDraw with result := .loadOk true }⟩ := by
  rw [openSession, Image.toMem_canonical (r := .rom) hrom, Image.toMem_canonical (r := .sram) hsram]

/-- Settles O35: the listed codes give `mkDesc`, the lengths match, and `openSession` takes the arrays as they are. -/
theorem loadOpensASession : Obligations.LoadOpensASession := by
  intro s t m ht hn hm hrom hsram wrom wsram
  have hl : lengthsMatch (mkDesc s.env.par.rumbleStrength t (2 ^ (s.env.ports.romSizeByte.toNat + 1)) m) s.env.ports = true :=
    (lengthsMatch_iff _ _).2 ⟨hrom, hsram⟩
  rw [exec_load_of_describe (describe_listed ht hn hm), if_pos hl, openSession_of_canonical _ wrom wsram]
  rfl

/-- Settles O37: a header that is not malformed leaves the test of the lengths, and one of the two arrays fails it. -/
theorem loadRefusesOtherLengths : Obligations.LoadRefusesOtherLengths := by
  intro s d hd hne
  have hl : ¬ lengthsMatch d s.env.ports = true := by rwa [lengthsMatch_iff, not_and_or]
  rw [exec_load_of_describe hd, if_neg hl]

end Sys2Proof.Machine
end

section
/-! PROOFS of the statements on the control writes (41_bank_switch.md): when each row applies, what its write leaves, the
normalisation of an index in both scopes, and the wrap of a read-only bank index. -/

namespace Sys2Proof.Machine

/-! ## When a row applies -/

theorem applies_iff (c : DecodeCtx) (i : Instr) : applies c i = true ↔ i.wellFormed = true ∧ i.cond c = true :=
  Bool.and_eq_true_iff

/-- A row with no field to check applies where its condition holds. -/
theorem applies_of_cond {c : DecodeCtx} {i : Instr} (hc : i.cond c = true) (hw : i.wellFormed = true := by rfl) :
    applies c i = true :=
  (applies_iff c i).2 ⟨hw, hc⟩

/-- The condition of the rows that ask for their family alone. -/
theorem family_beq {x : Session} {f : Family} (h : x.desc.family = f) : (x.ctx.family == f) = true :=
  beq_iff_eq.2 h

/-- The condition of the rows that ask for their family and a flag of the session. -/
theorem family_beq_and {x : Session} {f : Family} {b : Bool} (h : x.desc.family = f) (hb : b = true) :
    (x.ctx.family == f && b) = true :=
  Bool.and_eq_true_iff.2 ⟨family_beq h, hb⟩

theorem wellFormed_ramselCRsvd {sel : BitVec 4} (h : (4 ≤ sel.toNat ∧ sel.toNat ≤ 7) ∨ 13 ≤ sel.toNat) :
    (Instr.ramselCRsvd sel).wellFormed = true := by
  have hn : ¬ acceptedSelector sel = true := by rw [acceptedSelector_iff]; omega
  simpa [Instr.wellFormed] using hn

/-! ## What a control write leaves -/

/-- A write that is ignored answers nothing and changes nothing. -/
theorem writeRow_ignored {i : Instr} {x : Session} (h : applies x.ctx i = true) (e : Env) :
    writeRow i ⟨some x, e⟩ (fun r => r) = .next ⟨some x, { e with result := .none }⟩ :=
  writeRow_next h e _

/-- A write of the Bank-Switch State that reports nothing outside the block. -/
theorem writeRow_withBank {i : Instr} {x : Session} {e : Env} {f : Loaded → Loaded} {b : BankState}
    (h : applies x.ctx i = true) (hf : f ⟨x, e⟩ = Loaded.withBank ⟨x, e⟩ b) :
    writeRow i ⟨some x, e⟩ f = .next ⟨some { x with bank := b }, { e with result := .none }⟩ := by
  rw [writeRow_next h, hf]
  rfl

/-- A write of the Bank-Switch State that reports a change of the motor's level (45_rumble.md R362). -/
theorem writeRow_switchTo {i : Instr} {x : Session} {e : Env} {f : Loaded → Loaded} {b : BankState}
    (h : applies x.ctx i = true) (hf : f ⟨x, e⟩ = Loaded.switchTo ⟨x, e⟩ b) :
    writeRow i ⟨some x, e⟩ f =
      .next ⟨some { x with bank := b },
        { e with events := if x.bank.motor = b.motor then e.events else .motor b.motor :: e.events
                 result := .none }⟩ := by
  rw [writeRow_next h, hf, Loaded.toState, Loaded.answer_ses, Loaded.switchTo_ses, Loaded.answer, Loaded.switchTo_env,
    Loaded.switchTo_events]

/-! ## The flags a control write sets -/

theorem ramEnableFlag_eq (nibble : BitVec 4) : ramEnableFlag nibble = decide (nibble = 0xA#4) := rfl

theorem flagOf_eq (b : BitVec 1) : flagOf b = decide (b = 1#1) := rfl

theorem latchArms_eq (v : Byte) : latchArms v = decide (v = 0x00#8) := rfl

theorem latchCaptures_iff (armed : Bool) (v : Byte) : latchCaptures armed v = true ↔ v = 0x01#8 ∧ armed = true := by
  rw [latchCaptures, Bool.and_eq_true, beq_iff_eq]

/-- The latch range writes the latch memory, and the snapshot where it captures (41_bank_switch.md R198). -/
theorem ctlLatchC_eq (v : Byte) (r : Loaded) :
    ctlLatchC v r =
      r.withSes { r.ses with
        bank := { r.ses.bank with latchArmed := decide (v = 0x00#8) }
        snap := if v = 0x01#8 ∧ r.ses.bank.latchArmed = true then r.ses.live else r.ses.snap } := by
  unfold ctlLatchC
  simp only [latchCaptures_iff, latchArms_eq]
  split
  · rfl
  · rfl

/-! ## Zero normalisation (41_bank_switch.md R182) -/

/-- Under `combined` a family that normalises stores the index 0 as 1. -/
theorem zeroFix_combined {f : Family} (hf : zeroFixFamily f = true) (i : BitVec 9) :
    zeroFix .combined f i = if i = 0#9 then 1#9 else i := by
  unfold zeroFix
  rw [if_neg (by simp [hf])]

/-- Under `field` family `A` tests the low five bits (log 11). -/
theorem zeroFix_field_A (i : BitVec 9) : zeroFix .field .A i = if i &&& 0x1F#9 = 0#9 then i ||| 1#9 else i := by
  unfold zeroFix
  rw [if_neg (by decide)]
  simp only [lowFieldZero, beq_iff_eq]

/-- An index with one field is normalised alike in either scope. -/
theorem zeroFix_oneField {f : Family} (hf : f = .B ∨ f = .C) (scope : ZeroFixScope) (i : BitVec 9) :
    zeroFix scope f i = if i = 0#9 then 1#9 else i := by
  have hz : zeroFixFamily f = true := (zeroFixFamily_iff f).2 (.inr hf)
  have hl : lowFieldZero f i = (i == 0#9) := by rcases hf with rfl | rfl <;> rfl
  cases scope with
  | combined => exact zeroFix_combined hz i
  | field =>
    unfold zeroFix
    rw [if_neg (by simp [hz]), hl]
    by_cases hi : i = 0#9
    · subst hi; rfl
    · simp [hi]

/-- A field narrower than the index is zero where the index it makes is. -/
theorem setWidth_eq_zero {k : Nat} (hk : k ≤ 9) (v : BitVec k) : v.setWidth 9 = 0#9 ↔ v = 0#k := by
  rw [← BitVec.toNat_inj, ← BitVec.toNat_inj, BitVec.toNat_setWidth_of_le hk]
  rfl

/-- The low five bits of the index that a write of the low field makes on family `A` are the field (R185). -/
theorem romloA_index_low (old : BitVec 9) (lo : BitVec 5) :
    ((old &&& 0x60#9) ||| lo.setWidth 9) &&& 0x1F#9 = lo.setWidth 9 := by
  have field : ∀ v : BitVec 5, v.setWidth 9 &&& 0x1F#9 = v.setWidth 9 := by decide
  rw [BitVec.and_or_distrib_right, BitVec.and_assoc, field]
  simp

/-- The low five bits of the index that a write of the upper field makes on family `A` are the old ones (R186). -/
theorem upperARom_index_low (old : BitVec 9) (hi : BitVec 2) :
    ((old &&& 0x1F#9) ||| (hi.setWidth 9 <<< 5)) &&& 0x1F#9 = old &&& 0x1F#9 := by
  have field : ∀ v : BitVec 2, (v.setWidth 9 <<< 5) &&& 0x1F#9 = 0#9 := by decide
  rw [BitVec.and_or_distrib_right, BitVec.and_assoc, field, BitVec.and_self, BitVec.or_zero]

/-- The index a write of the low field stores on family `A` under `field` (log 11). -/
theorem zeroFix_field_romloA (old : BitVec 9) (lo : BitVec 5) :
    zeroFix .field .A ((old &&& 0x60#9) ||| lo.setWidth 9) =
      if lo = 0#5 then (old &&& 0x60#9) ||| 1#9 else (old &&& 0x60#9) ||| lo.setWidth 9 := by
  rw [zeroFix_field_A, romloA_index_low]
  simp only [setWidth_eq_zero (show 5 ≤ 9 by decide)]
  split
  · next hlo => subst hlo; simp
  · rfl

/-- The index a write of the upper field stores on family `A` under `field` (log 11). -/
theorem zeroFix_field_upperARom (old : BitVec 9) (hi : BitVec 2) :
    zeroFix .field .A ((old &&& 0x1F#9) ||| (hi.setWidth 9 <<< 5)) =
      if old &&& 0x1F#9 = 0#9 then (hi.setWidth 9 <<< 5) ||| 1#9
      else (old &&& 0x1F#9) ||| (hi.setWidth 9 <<< 5) := by
  rw [zeroFix_field_A, upperARom_index_low]
  split
  · next hold => rw [hold, BitVec.zero_or]
  · rfl

/-- The index a write of the one field stores on families `B` and `C` (R191, R195). -/
theorem zeroFix_setWidth {f : Family} (hf : f = .B ∨ f = .C) (scope : ZeroFixScope) {k : Nat} (hk : k ≤ 9) (v : BitVec k) :
    zeroFix scope f (v.setWidth 9) = if v = 0#k then 1#9 else v.setWidth 9 := by
  rw [zeroFix_oneField hf]
  simp only [setWidth_eq_zero hk]

/-! ## The wrap of a read-only bank index -/

/-- An index past the bank count by one round resolves to the same bank (41_bank_switch.md R210, R213). -/
theorem resolveReadOnlyBank_add {x y : Session} (hd : y.desc = x.desc)
    (h : x.bank.romBank.toNat = y.bank.romBank.toNat + x.desc.romBanks) :
    resolveReadOnlyBank x = resolveReadOnlyBank y := by
  rw [resolveReadOnlyBank, resolveReadOnlyBank, h, hd, Nat.add_mod_right]

/-- The switchable window reads the byte at `romxIndex` (43_mapper.md R273). -/
theorem exec_rdRomx (off : BitVec 14) (x : Session) (e : Env) :
    exec (.rdRomx off) ⟨some x, e⟩ = .next ⟨some x, { e with result := .data (x.romByte (romxIndex x off)) }⟩ :=
  readRow_next (i := .rdRomx off) (applies_of_cond rfl) e (readRomx off)

/-! ## The statements -/

/-- Settles O21: each of the four rows applies at its boundaries, and its write is ignored. -/
theorem ignoredControlWritesChangeNothing : Obligations.IgnoredControlWritesChangeNothing := by
  intro x e a v sel
  refine ⟨fun hf ha => ?none, fun hf hlo hhi => ?ignB, fun hf hs => ?reserved, fun hf hlo hhi => ?ignD⟩
  case none =>
    have happ : applies x.ctx (.ctlNone a v) = true := applies_of_cond (family_beq hf) (decide_eq_true ha)
    exact writeRow_ignored happ e
  case ignB =>
    have happ : applies x.ctx (.ignB a v) = true :=
      applies_of_cond (family_beq hf) (Bool.and_eq_true_iff.2 ⟨decide_eq_true hlo, decide_eq_true hhi⟩)
    exact writeRow_ignored happ e
  case reserved =>
    have happ : applies x.ctx (.ramselCRsvd sel) = true := applies_of_cond (family_beq hf) (wellFormed_ramselCRsvd hs)
    exact writeRow_ignored happ e
  case ignD =>
    have happ : applies x.ctx (.ignD a v) = true :=
      applies_of_cond (family_beq hf) (Bool.and_eq_true_iff.2 ⟨decide_eq_true hlo, decide_eq_true hhi⟩)
    exact writeRow_ignored happ e

/-- Settles O22: the row applies on both families, and its write is the mark or the switch by the policy. -/
theorem unspecifiedFamiliesMarkTheSession : Obligations.UnspecifiedFamiliesMarkTheSession := by
  intro x e a v hf ha
  have happ : applies x.ctx (.ctlEf a v) = true :=
    applies_of_cond (Bool.or_eq_true_iff.2 (hf.imp family_beq family_beq)) (decide_eq_true ha)
  refine ⟨fun hp => ?_, fun hp => ?_⟩
  · have he : ctlEf a v ⟨x, e⟩ = Loaded.withSes ⟨x, e⟩ { x with refused := true } := by simp only [ctlEf, hp]
    rw [exec, execCtlEf, writeRow_next happ, he]
    rfl
  · have he : ctlEf a v ⟨x, e⟩ = Loaded.switchTo ⟨x, e⟩ (Config.efDecode x.desc.family a v x) := by simp only [ctlEf, hp]
    exact writeRow_switchTo happ he

/-- Settles O23: the row applies on the four families, and the flag is the comparison with the magic nibble. -/
theorem enableWrite : Obligations.EnableWrite := by
  intro x e nib hf
  have happ : applies x.ctx (.ramen nib) = true := applies_of_cond (by simpa [Instr.cond, or_assoc] using hf)
  exact writeRow_withBank happ rfl

/-- Settles O24: each write stores the merged index, normalised in the scope of the machine. -/
theorem familyAIndexWrites : Obligations.FamilyAIndexWrites := by
  intro x e lo hi hf
  have hlow : applies x.ctx (.romloA lo) = true := applies_of_cond (family_beq hf)
  have hupper : x.bank.mode = false → applies x.ctx (.upperARom hi) = true := fun hm =>
    applies_of_cond (family_beq_and hf (by simp [hm]))
  refine ⟨fun hs => ?_, fun hs => ?_, fun hs hm => ?_, fun hs hm => ?_⟩
  · exact writeRow_withBank hlow (by rw [ctlRomloA, hs, zeroFix_combined rfl])
  · exact writeRow_withBank hlow (by rw [ctlRomloA, hs, zeroFix_field_romloA])
  · exact writeRow_withBank (hupper hm) (by rw [ctlUpperARom, hs, zeroFix_combined rfl])
  · exact writeRow_withBank (hupper hm) (by rw [ctlUpperARom, hs, zeroFix_field_upperARom])

/-- Settles O25: both rows apply on family `A`, the upper bits' in mode B. -/
theorem familyAModeAndStorageBank : Obligations.FamilyAModeAndStorageBank := by
  intro x e hi m hf
  refine ⟨fun hm => ?_, ?_⟩
  · exact writeRow_withBank (applies_of_cond (family_beq_and hf hm)) rfl
  · exact writeRow_withBank (applies_of_cond (family_beq hf)) rfl

/-- Settles O26: the one field is normalised alike in either scope. -/
theorem familyBAndCIndexWrites : Obligations.FamilyBAndCIndexWrites := by
  intro x e b c
  refine ⟨fun hf => ?_, fun hf => ?_⟩
  · exact writeRow_withBank (applies_of_cond (family_beq hf))
      (by rw [ctlRombB, zeroFix_setWidth (.inl rfl) _ (by decide)])
  · exact writeRow_withBank (applies_of_cond (family_beq hf))
      (by rw [ctlRombC, zeroFix_setWidth (.inr rfl) _ (by decide)])

/-- Settles O27: the selector is an accepted one, and among those the clock's begin at 8. -/
theorem familyCSelectorWrite : Obligations.FamilyCSelectorWrite := by
  intro x e sel hf hsel
  refine ⟨writeRow_withBank (applies_of_cond (family_beq hf) ((acceptedSelector_iff sel).2 hsel)) rfl, ?_⟩
  rw [isRtcSel_iff]
  exact ⟨fun ⟨_, h8, _⟩ => h8, fun h8 => ⟨hf, h8, show sel.toNat ≤ 12 by omega⟩⟩

/-- Settles O28: the latch range in one equation. -/
theorem latchWrite : Obligations.LatchWrite := by
  intro x e v hf
  have happ : applies x.ctx (.latchC v) = true := applies_of_cond (family_beq hf)
  rw [exec, execLatchC, writeRow_next happ, ctlLatchC_eq]
  rfl

/-- Settles O29: the three rows apply on family `D`, the bank's without a motor. -/
theorem familyDIndexWrites : Obligations.FamilyDIndexWrites := by
  intro x e lo b8 bank hf
  refine ⟨?_, ?_, fun hr => ?_⟩
  · exact writeRow_withBank (applies_of_cond (family_beq hf)) rfl
  · exact writeRow_withBank (applies_of_cond (family_beq hf)) rfl
  · exact writeRow_withBank (applies_of_cond (family_beq_and hf (by simp [hr]))) rfl

/-- Settles O30: the write switches to the motor bit and the three bits of the bank. -/
theorem motorWrite : Obligations.MotorWrite := by
  intro x e m bank hf hr
  exact writeRow_switchTo (applies_of_cond (family_beq_and hf hr)) rfl

/-- Settles O60: both indices resolve to one bank, so the window reads one byte of the same memory. -/
theorem bankIndexWraps : Obligations.BankIndexWraps := by
  intro x e off i k hik
  have hbank : resolveReadOnlyBank { x with bank := { x.bank with romBank := i } } =
      resolveReadOnlyBank { x with bank := { x.bank with romBank := k } } := resolveReadOnlyBank_add rfl hik
  refine ⟨_, exec_rdRomx off _ e, ?_⟩
  rw [exec_rdRomx, romxIndex, romxIndex, hbank]
  rfl

end Sys2Proof.Machine
end

section
/-! PROOFS of the statements on the clock (42_rtc.md): the advance as a split of the total and as counting, the
synchronisation in the accesses of the clock and in `TICK`, and the one writer of host time. -/

namespace Sys2Proof.Machine

/-! ## The split of the total (42_rtc.md R231, R238) -/

/-- Bit 0 of the flag register as a number. -/
theorem toNat_and_one (d : Byte) : (d &&& 1#8).toNat = (d.getLsbD 0).toNat := by
  revert d; decide

theorem ClockRegs.day_eq (r : ClockRegs) : r.day = (r.DH.getLsbD 0).toNat * 256 + r.DL.toNat := by
  rw [ClockRegs.day, toNat_and_one]

theorem ClockRegs.day_lt (r : ClockRegs) : r.day < 512 := by
  have hDL := r.DL.isLt
  have hbit := Bool.toNat_le (r.DH.getLsbD 0)
  rw [ClockRegs.day_eq]
  omega

/-- The three time registers, the day, the carry and the other bits of the flag register determine a register file. -/
theorem ClockRegs.ext_of_day {r t : ClockRegs} (hS : r.S.toNat = t.S.toNat) (hM : r.M.toNat = t.M.toNat)
    (hH : r.H.toNat = t.H.toNat) (hday : r.day = t.day) (hcarry : r.carry = t.carry)
    (hbits : ∀ i, 1 ≤ i → i ≤ 6 → r.DH.getLsbD i = t.DH.getLsbD i) : r = t := by
  have hrDL := r.DL.isLt
  have htDL := t.DL.isLt
  rw [ClockRegs.day_eq, ClockRegs.day_eq] at hday
  have hDL : r.DL = t.DL := BitVec.eq_of_toNat_eq (by omega)
  have hbit : r.DH.getLsbD 0 = t.DH.getLsbD 0 := Function.LeftInverse.injective Bool.ofNat_toNat (by omega)
  have hDH : r.DH = t.DH := by
    refine BitVec.eq_of_getLsbD_eq fun i hi => ?_
    obtain rfl | rfl | ⟨h1, h6⟩ : i = 0 ∨ i = 7 ∨ (1 ≤ i ∧ i ≤ 6) := by omega
    · exact hbit
    · exact hcarry
    · exact hbits i h1 h6
  cases r; cases t
  simp only [ClockRegs.mk.injEq]
  exact ⟨BitVec.eq_of_toNat_eq hS, BitVec.eq_of_toNat_eq hM, BitVec.eq_of_toNat_eq hH, hDL, hDH⟩

theorem toNat_ofNat_byte {n : Nat} (h : n < 256) : (BitVec.ofNat 8 n).toNat = n :=
  (BitVec.toNat_ofNat n 8).trans (Nat.mod_eq_of_lt h)

theorem advance_S (r : ClockRegs) (e : Nat) : (advance r e).S.toNat = (r.total + e) % 60 :=
  toNat_ofNat_byte (by omega)

theorem advance_M (r : ClockRegs) (e : Nat) : (advance r e).M.toNat = (r.total + e) / 60 % 60 :=
  toNat_ofNat_byte (by omega)

theorem advance_H (r : ClockRegs) (e : Nat) : (advance r e).H.toNat = (r.total + e) / 3600 % 24 :=
  toNat_ofNat_byte (by omega)

theorem advance_day (r : ClockRegs) (e : Nat) : (advance r e).day = (r.total + e) / 86400 % 512 := by
  have hDL : (advance r e).DL.toNat = (r.total + e) / 86400 % 512 % 256 := toNat_ofNat_byte (by omega)
  have hbit : (advance r e).DH.getLsbD 0 = decide ((r.total + e) / 86400 % 512 / 256 = 1) :=
    getLsbD_advanceDH r.DH _ 0 (by decide)
  rw [ClockRegs.day_eq, hDL, hbit]
  by_cases h : (r.total + e) / 86400 % 512 / 256 = 1
  · simp only [h, decide_true, Bool.toNat_true]; omega
  · simp only [h, decide_false, Bool.toNat_false]; omega

theorem advance_carry (r : ClockRegs) (e : Nat) :
    (advance r e).carry = (r.carry || decide (511 < (r.total + e) / 86400)) :=
  getLsbD_advanceDH r.DH _ 7 (by decide)

theorem advance_bits (r : ClockRegs) (e : Nat) {i : Nat} (h1 : 1 ≤ i) (h6 : i ≤ 6) :
    (advance r e).DH.getLsbD i = r.DH.getLsbD i := by
  have h : (advance r e).DH.getLsbD i = _ := getLsbD_advanceDH r.DH _ i (by omega)
  rw [h, if_neg (by omega), if_neg (by omega)]

/-- Settles O32: register by register, the flag register bit by bit. -/
theorem advanceSplitsTheTotal : Obligations.AdvanceSplitsTheTotal := fun r e =>
  ⟨advance_S r e, advance_M r e, advance_H r e, advance_day r e, advance_carry r e, fun _ => advance_bits r e⟩

/-- A register file that holds the split of the total is what the advance leaves. -/
theorem advance_eq_of_split {r t : ClockRegs} {e : Nat} (hS : t.S.toNat = (r.total + e) % 60)
    (hM : t.M.toNat = (r.total + e) / 60 % 60) (hH : t.H.toNat = (r.total + e) / 3600 % 24)
    (hday : t.day = (r.total + e) / 86400 % 512)
    (hcarry : t.carry = (r.carry || decide (511 < (r.total + e) / 86400)))
    (hbits : ∀ i, 1 ≤ i → i ≤ 6 → t.DH.getLsbD i = r.DH.getLsbD i) : advance r e = t :=
  ClockRegs.ext_of_day ((advance_S r e).trans hS.symm) ((advance_M r e).trans hM.symm) ((advance_H r e).trans hH.symm)
    ((advance_day r e).trans hday.symm) ((advance_carry r e).trans hcarry.symm)
    fun i h1 h6 => (advance_bits r e h1 h6).trans (hbits i h1 h6).symm

/-! ## Advances add up -/

theorem advance_canonical (r : ClockRegs) (e : Nat) : (advance r e).canonical := by
  refine ⟨?_, ?_, ?_⟩
  · rw [advance_S]; omega
  · rw [advance_M]; omega
  · rw [advance_H]; omega

/-- The advance counts modulo the 512 days of 86400 seconds. -/
theorem advance_total (r : ClockRegs) (e : Nat) : (advance r e).total = (r.total + e) % 44236800 := by
  rw [ClockRegs.total, advance_S, advance_M, advance_H, advance_day]
  omega

theorem advance_zero {r : ClockRegs} (h : r.canonical) : advance r 0 = r := by
  obtain ⟨hS, hM, hH⟩ := h
  have hday := r.day_lt
  have htotal : r.total = r.S.toNat + 60 * r.M.toNat + 3600 * r.H.toNat + 86400 * r.day := rfl
  have hwrap : ¬ 511 < (r.total + 0) / 86400 := by omega
  refine advance_eq_of_split (by omega) (by omega) (by omega) (by omega) ?_ fun _ _ _ => rfl
  rw [decide_eq_false hwrap, Bool.or_false]

/-- A wrap of the day counter in either of two advances is a wrap in their sum. -/
theorem wrap_or_wrap (t e : Nat) :
    (511 < t / 86400 ∨ 511 < (t % 44236800 + e) / 86400) ↔ 511 < (t + e) / 86400 := by
  omega

theorem advance_advance (r : ClockRegs) (a b : Nat) : advance (advance r a) b = advance r (a + b) := by
  refine (advance_eq_of_split ?_ ?_ ?_ ?_ ?_ fun i h1 h6 => ?_).symm
  · rw [advance_S, advance_total]; omega
  · rw [advance_M, advance_total]; omega
  · rw [advance_H, advance_total]; omega
  · rw [advance_day, advance_total]; omega
  · rw [advance_carry, advance_carry, advance_total, Bool.or_assoc, ← Bool.decide_or, ← Nat.add_assoc,
      decide_eq_decide.2 (wrap_or_wrap _ _)]
  · rw [advance_bits _ _ h1 h6, advance_bits _ _ h1 h6]

/-! ## Counting one second (42_rtc.md R238) -/

theorem toNat_add_one {b : Byte} (h : b.toNat < 255) : (b + 1#8).toNat = b.toNat + 1 := by
  rw [BitVec.toNat_add]
  exact Nat.mod_eq_of_lt (show b.toNat + 1 < 256 by omega)

/-- The flag register of a day that sets the ninth day bit. -/
theorem getLsbD_dayBit_set (d : Byte) {i : Nat} (h : i < 8) :
    (d ||| 0x01#8).getLsbD i = (d.getLsbD i || decide (i = 0)) := by
  have mask_bits : ∀ i < 8, (0x01#8).getLsbD i = decide (i = 0) := by decide
  rw [BitVec.getLsbD_or, mask_bits i h]

/-- The flag register of the day after day 511. -/
theorem getLsbD_dayBit_wrapped (d : Byte) {i : Nat} (h : i < 8) :
    ((d &&& 0xFE#8) ||| 0x80#8).getLsbD i = (d.getLsbD i && decide (i ≠ 0) || decide (i = 7)) := by
  have mask_bits : ∀ i < 8, (0xFE#8).getLsbD i = decide (i ≠ 0) ∧ (0x80#8).getLsbD i = decide (i = 7) := by decide
  rw [BitVec.getLsbD_or, BitVec.getLsbD_and, (mask_bits i h).1, (mask_bits i h).2]

/-- Within a day one second moves the time of day alone. -/
theorem advance_one_within_day {r : ClockRegs} {s m h : Byte} (hday : (r.total + 1) / 86400 = r.day)
    (hs : s.toNat = (r.total + 1) % 60) (hm : m.toNat = (r.total + 1) / 60 % 60)
    (hh : h.toNat = (r.total + 1) / 3600 % 24) : advance r 1 = { r with S := s, M := m, H := h } := by
  have hlt := r.day_lt
  refine advance_eq_of_split hs hm hh ?_ ?_ fun _ _ _ => rfl
  · rw [hday, Nat.mod_eq_of_lt hlt]; rfl
  · rw [decide_eq_false (by omega), Bool.or_false]; rfl

/-- At the end of a day one second clears the time of day and counts the day. -/
theorem advance_one_next_day {r : ClockRegs} {dl dh : Byte} (htotal : r.total + 1 = 86400 * (r.day + 1))
    (hday : (dh.getLsbD 0).toNat * 256 + dl.toNat = (r.day + 1) % 512)
    (hcarry : dh.getLsbD 7 = (r.carry || decide (r.day = 511)))
    (hbits : ∀ i, 1 ≤ i → i ≤ 6 → dh.getLsbD i = r.DH.getLsbD i) : advance r 1 = ⟨0#8, 0#8, 0#8, dl, dh⟩ := by
  have hlt := r.day_lt
  have hdays : (r.total + 1) / 86400 = r.day + 1 := by omega
  have hwrap : 511 < r.day + 1 ↔ r.day = 511 := by omega
  refine advance_eq_of_split ?_ ?_ ?_ ?_ ?_ hbits
  · rw [BitVec.toNat_zero]; omega
  · rw [BitVec.toNat_zero]; omega
  · rw [BitVec.toNat_zero]; omega
  · rw [ClockRegs.day_eq, hdays]; exact hday
  · rw [hdays, decide_eq_decide.2 hwrap]; exact hcarry

theorem advance_one {r : ClockRegs} (h : r.canonical) : advance r 1 = oneSecond r := by
  obtain ⟨hS, hM, hH⟩ := h
  have htotal : r.total = r.S.toNat + 60 * r.M.toNat + 3600 * r.H.toNat + 86400 * r.day := rfl
  have hday := r.day_eq
  have hlt := r.DL.isLt
  unfold oneSecond
  split
  · next hsec =>
    have hs := toNat_add_one (b := r.S) (by omega)
    exact advance_one_within_day (by omega) (by omega) (by omega) (by omega)
  split
  · next hmin =>
    have hm := toNat_add_one (b := r.M) (by omega)
    exact advance_one_within_day (by omega) (by rw [BitVec.toNat_zero]; omega) (by omega) (by omega)
  split
  · next hhour =>
    have hh := toNat_add_one (b := r.H) (by omega)
    exact advance_one_within_day (by omega) (by rw [BitVec.toNat_zero]; omega) (by rw [BitVec.toNat_zero]; omega) (by omega)
  have hend : r.total + 1 = 86400 * (r.day + 1) := by omega
  split
  · next hlow =>
    have hdl := toNat_add_one (b := r.DL) hlow
    have hle := Bool.toNat_le (r.DH.getLsbD 0)
    refine advance_one_next_day hend (by omega) ?_ fun _ _ _ => rfl
    rw [decide_eq_false (by omega), Bool.or_false]; rfl
  split
  · next hbit =>
    rw [hbit, Bool.toNat_false] at hday
    refine advance_one_next_day hend ?_ ?_ fun i h1 h6 => ?_
    · rw [getLsbD_dayBit_set _ (by decide), hbit, BitVec.toNat_zero]
      show 256 + 0 = _
      omega
    · rw [getLsbD_dayBit_set _ (by decide), decide_eq_false (p := r.day = 511) (by omega)]; rfl
    · rw [getLsbD_dayBit_set _ (by omega), decide_eq_false (by omega), Bool.or_false]
  · next hbit =>
    rw [Bool.eq_true_of_not_eq_false hbit, Bool.toNat_true] at hday
    have hlast : r.day = 511 := by omega
    refine advance_one_next_day hend ?_ ?_ fun i h1 h6 => ?_
    · rw [getLsbD_dayBit_wrapped _ (by decide), hlast, decide_eq_false (by decide), Bool.and_false]; rfl
    · rw [getLsbD_dayBit_wrapped _ (by decide), decide_eq_true hlast, Bool.or_true]; exact Bool.or_true _
    · rw [getLsbD_dayBit_wrapped _ (by omega), decide_eq_true (by omega), decide_eq_false (by omega), Bool.and_true,
        Bool.or_false]

/-- Counting seconds from a canonical register file is the advance by their number, 0 included. -/
theorem countSeconds_eq_advance {r : ClockRegs} (h : r.canonical) (e : Nat) : countSeconds e r = advance r e := by
  induction e generalizing r with
  | zero => exact (advance_zero h).symm
  | succ e ih =>
    calc countSeconds (e + 1) r = countSeconds e (advance r 1) := by rw [countSeconds, advance_one h]
      _ = advance (advance r 1) e := ih (advance_canonical r 1)
      _ = advance r (e + 1) := by rw [advance_advance, Nat.add_comm]

/-- Settles O33: one second is an advance by 1, and advances add up. -/
theorem advanceIsSecondBySecondCounting : Obligations.AdvanceIsSecondBySecondCounting :=
  fun _ e h _ => (countSeconds_eq_advance h e).symm

/-! ## The synchronisation and the register accesses (42_rtc.md R236, R244 to R248) -/

theorem syncSession_eq (now : Nat) (x : Session) :
    syncSession now x =
      if x.live.halt = true then x
      else { x with
        live := if x.lastSync < now then advance x.live (now - x.lastSync) else x.live
        lastSync := now } := by
  by_cases h : x.live.halt = true
  · rw [if_pos h, syncSession_of_halt h]
  · rw [if_neg h, syncSession_of_running (Bool.eq_false_of_not_eq_true h)]

/-- A synchronisation, register file and timestamp apart. -/
theorem syncSession_fields (now : Nat) (x : Session) :
    syncSession now x =
      { x with
        live := if x.live.halt = true ∨ now ≤ x.lastSync then x.live else advance x.live (now - x.lastSync)
        lastSync := if x.live.halt = true then x.lastSync else now } := by
  by_cases h : x.live.halt = true
  · rw [syncSession_of_halt h, if_pos h, if_pos (.inl h)]
  · rw [syncSession_of_running (Bool.eq_false_of_not_eq_true h), if_neg h, ← ite_not]
    simp only [h, Bool.false_eq_true, false_or, Nat.not_lt]

theorem syncSession_halt (now : Nat) (x : Session) : (syncSession now x).live.halt = x.live.halt := by
  rw [syncSession_fields]
  simp only [apply_ite ClockRegs.halt, advance_halt, ite_self]

/-- The register a selector names, selector by selector (42_rtc.md R245). -/
theorem get_ofSel (r : ClockRegs) (sel : BitVec 4) :
    r.get (.ofSel sel) =
      if sel = 8#4 then r.S else if sel = 9#4 then r.M else if sel = 10#4 then r.H else if sel = 11#4 then r.DL
      else r.DH := by
  rw [ClockReg.ofSel, apply_ite r.get, apply_ite r.get, apply_ite r.get, apply_ite r.get]
  rfl

/-- The masked write of the register a selector names, selector by selector (42_rtc.md R246, R248). -/
theorem set_ofSel (r : ClockRegs) (sel : BitVec 4) (v : Byte) :
    r.set (.ofSel sel) v =
      if sel = 8#4 then { r with S := v &&& 0x3F#8 }
      else if sel = 9#4 then { r with M := v &&& 0x3F#8 }
      else if sel = 10#4 then { r with H := v &&& 0x1F#8 }
      else if sel = 11#4 then { r with DL := v }
      else { r with DH := v &&& 0xC1#8 } := by
  have all : v &&& clockMask .DL = v := BitVec.and_allOnes
  have pick := apply_ite (fun reg => r.set reg v)
  rw [ClockReg.ofSel, pick, pick, pick, pick]
  simp only [ClockRegs.set, all]
  rfl

/-- Among the clock's selectors the last one names `DH`. -/
theorem ofSel_eq_DH_iff : ∀ sel : BitVec 4, 8 ≤ sel.toNat → sel.toNat ≤ 12 → (ClockReg.ofSel sel = .DH ↔ sel = 12#4) := by
  decide

/-- A write of `DH` stores the halt flag of the byte written. -/
theorem halt_set_DH (r : ClockRegs) (v : Byte) : (r.set .DH v).halt = v.getLsbD 6 := by
  have mask_bit : (clockMask .DH).getLsbD 6 = true := by decide
  show (v &&& clockMask .DH).getLsbD 6 = _
  rw [BitVec.getLsbD_and, mask_bit, Bool.and_true]

/-- When a register write clears the halt flag (42_rtc.md R247). -/
theorem clears_halt_iff {sel : BitVec 4} (hlo : 8 ≤ sel.toNat) (hhi : sel.toNat ≤ 12) (r : ClockRegs) (v : Byte) :
    (ClockReg.ofSel sel = .DH ∧ r.halt = true ∧ (r.set (.ofSel sel) v).halt = false) ↔
      sel = 12#4 ∧ r.halt = true ∧ v.getLsbD 6 = false := by
  rw [ofSel_eq_DH_iff sel hlo hhi]
  refine and_congr_right fun hsel => ?_
  rw [(ofSel_eq_DH_iff sel hlo hhi).2 hsel, halt_set_DH]

/-- A register write by the selector, on a synchronised session (42_rtc.md R246, R247). -/
theorem writeClock_ofSel {sel : BitVec 4} (hlo : 8 ≤ sel.toNat) (hhi : sel.toNat ≤ 12) (now : Nat) (v : Byte)
    (x : Session) :
    writeClock now (.ofSel sel) v x =
      { x with
        live := x.live.set (.ofSel sel) v
        lastSync := if sel = 12#4 ∧ x.live.halt = true ∧ v.getLsbD 6 = false then now else x.lastSync } := by
  simp only [writeClock, clears_halt_iff hlo hhi]

theorem clockRow_cond {x : Session} (hen : x.bank.ramEnable = true) (hf : x.desc.family = .C)
    (hlo : 8 ≤ x.bank.ramBank.toNat) (hhi : x.bank.ramBank.toNat ≤ 12) :
    (x.ctx.ramEnable && x.ctx.isRtcSel) = true :=
  Bool.and_eq_true_iff.2 ⟨hen, (isRtcSel_iff x).2 ⟨hf, hlo, hhi⟩⟩

/-- Settles O5: the row applies, its session is the synchronised one, and its byte is of the snapshot, which the
synchronisation leaves. -/
theorem clockReadSynchronisesAndServesSnapshot : Obligations.ClockReadSynchronisesAndServesSnapshot := by
  intro x e off hen hf hlo hhi
  have happ : applies x.ctx (.rdSramRtc off) = true := applies_of_cond (clockRow_cond hen hf hlo hhi)
  have hsnap : (syncSession e.hostNow x).snap = x.snap := by rw [syncSession_frame]
  have hread : readSramRtc ⟨x, e⟩ = (⟨syncSession e.hostNow x, e⟩, x.snap.get (.ofSel x.bank.ramBank)) := by
    rw [← hsnap]; rfl
  rw [exec, execRdSramRtc, readRow_next happ, hread, get_ofSel, syncSession_eq]
  rfl

/-- Settles O11: the row applies, and its store is made in the synchronised session. -/
theorem clockWriteSynchronisesAndStores : Obligations.ClockWriteSynchronisesAndStores := by
  rintro x e off v hen hf hlo hhi live last rfl rfl
  have happ : applies x.ctx (.wrSramRtc off v) = true := applies_of_cond (clockRow_cond hen hf hlo hhi)
  have hstore : writeSramRtc v ⟨x, e⟩ =
      ⟨writeClock e.hostNow (.ofSel x.bank.ramBank) v (syncSession e.hostNow x), e⟩ := rfl
  rw [exec, execWrSramRtc, writeRow_next happ, hstore, writeClock_ofSel hlo hhi, syncSession_halt, set_ofSel,
    syncSession_fields]
  rfl

/-- Settles O31: `TICK` has no condition, and is a synchronisation at the host time it raised. -/
theorem tickAdvancesTheClock : Obligations.TickAdvancesTheClock := by
  intro x e
  have happ : applies x.ctx .tick = true := applies_of_cond rfl
  rw [exec, execTick, onRow_next happ, tickBy, rtcSync, syncSession_eq]
  rfl

/-! ## What moves host time (42_rtc.md R235, 10_state.md R51) -/

/-- Two environments with one set of parameters, one queue and one host time. -/
def SameHost (e f : Env) : Prop := f.par = e.par ∧ f.queue = e.queue ∧ f.hostNow = e.hostNow

theorem SameHost.refl (e : Env) : SameHost e e := ⟨rfl, rfl, rfl⟩

theorem SameHost.trans {e f g : Env} (h : SameHost e f) (k : SameHost f g) : SameHost e g :=
  ⟨k.1.trans h.1, k.2.1.trans h.2.1, k.2.2.trans h.2.2⟩

theorem read_sameHost (a : Addr) (r : Loaded) : SameHost r.env (read a r).1.env := by
  rw [(read_frame a r).2]
  exact ⟨rfl, rfl, rfl⟩

theorem write_sameHost (a : Addr) (v : Byte) (r : Loaded) : SameHost r.env (write a v r).env := by
  refine writeWith_elim (P := fun t => SameHost r.env t.env) (.refl _) (fun _ => ?_) (fun _ => .refl _) (fun _ _ => .refl _)
    (fun _ _ => .refl _) (.refl _) ⟨rfl, rfl, rfl⟩ ⟨rfl, rfl, rfl⟩ (fun _ _ _ _ _ => .refl _) ⟨rfl, rfl, rfl⟩ fun _ => ?_
  · rw [onWrite_env]
    exact ⟨rfl, rfl, rfl⟩
  · obtain ⟨vram, sram, live, last, calls, events, d, ht, -⟩ := trigger_spec (v.extractLsb' 7 1) (v.extractLsb' 0 7) r
    unfold triggerByte
    rw [ht]
    exact ⟨rfl, rfl, rfl⟩

theorem moveBytes_sameHost (r : Loaded) : SameHost r.env (moveBytes write r).env :=
  foldl_keeps (P := fun t : Loaded => SameHost r.env t.env) _ _
    (fun _ ht _ _ => (ht.trans (read_sameHost _ _)).trans (write_sameHost _ _ _)) (.refl _)

theorem finishUnit_sameHost (r : Loaded) : SameHost r.env (finishUnit r).env := by
  show SameHost r.env (if 16#12 ≤ r.ses.dma.remaining then r.env else r.env.nextDraw)
  split
  · exact .refl _
  · exact ⟨rfl, rfl, rfl⟩

/-- A unit keeps the host's part of the environment wherever its destination lies. -/
theorem horizontalBlank_sameHost (r : Loaded) : SameHost r.env (horizontalBlank r).env := by
  show SameHost r.env (advanceOneUnit write r).env
  by_cases hp : r.ses.dma.phase = .idle
  · rw [advanceOneUnit_idle hp]; exact .refl _
  · rw [advanceOneUnit_active hp]; exact (moveBytes_sameHost r).trans (finishUnit_sameHost _)

theorem restoreFrom_sameHost (b : List Byte) (track : Bool) (r : Loaded) : SameHost r.env (restoreFrom b track r).env := by
  unfold restoreFrom
  split <;> exact ⟨rfl, rfl, rfl⟩

theorem exec_load_sameHost {s t : State} (h : exec .load s = .next t) : SameHost s.env t.env := by
  rcases load_cases h with rfl | ⟨d, -, -, rfl⟩ <;> exact ⟨rfl, rfl, rfl⟩

/-- The seconds an operation adds to host time: the operand of `TICK` (42_rtc.md R241). -/
def tickOperand (w : OpWord) (p : SidePorts) : Nat := if fieldOp w = 3#3 then p.delta else 0

/-- An instruction of a loaded session moves host time by the operand of `TICK` and nothing else of the host's part. -/
theorem decoded_host {x : Session} {e : Env} {w : OpWord} {t : State} (h : exec (decode x.ctx w) ⟨some x, e⟩ = .next t) :
    SameHost { e with hostNow := e.hostNow + tickOperand w e.ports } t.env := by
  have other : fieldOp w ≠ 3#3 → SameHost e t.env →
      SameHost { e with hostNow := e.hostNow + tickOperand w e.ports } t.env := fun ho hk => by
    rw [tickOperand, if_neg ho]; exact hk
  rcases decoded_cases h with
    ⟨ho, rfl⟩ | ⟨ho, rfl⟩ | ⟨ho, rfl⟩ | ⟨ho, rfl⟩ | ⟨ho, he⟩ | ⟨ho, rfl⟩ | ⟨ho, -, rfl⟩ | ⟨ho, rfl⟩
  case inr.inr.inr.inl => rw [tickOperand, if_pos ho]; exact ⟨rfl, rfl, rfl⟩
  all_goals refine other (by rw [ho]; decide) ?_
  · exact read_sameHost _ ⟨x, e⟩
  · exact write_sameHost _ _ ⟨x, e⟩
  · exact horizontalBlank_sameHost ⟨x, e⟩
  · exact exec_load_sameHost he
  · exact ⟨rfl, rfl, rfl⟩
  · exact ⟨rfl, rfl, rfl⟩
  · exact restoreFrom_sameHost _ _ ⟨x, e⟩

/-- A step that takes an operation moves host time by the operand of `TICK` after it took the operation. -/
theorem step_host {s t : State} (h : step s = .next t) :
    (s.env.queue = [] ∧ t = s) ∨
      ∃ q rest, s.env.queue = q :: rest ∧ t.env.par = s.env.par ∧ t.env.queue = rest ∧
        t.env.hostNow = (takeRequest s q rest).env.hostNow + tickOperand q.word q.ports := by
  rcases step_cases h with idle | ⟨q, rest, hq, ⟨-, ho, he⟩ | ⟨x, -, he⟩⟩
  · exact .inl idle
  · obtain ⟨hpar, hqueue, hnow⟩ := exec_load_sameHost he
    have hno : tickOperand q.word q.ports = 0 := by rw [tickOperand, ho]; rfl
    exact .inr ⟨q, rest, hq, hpar, hqueue, by rw [hnow, hno, Nat.add_zero]⟩
  · obtain ⟨hpar, hqueue, hnow⟩ := decoded_host he
    exact .inr ⟨q, rest, hq, hpar, hqueue, hnow⟩

theorem takeRequest_hostNow_of_byTick {s : State} (h : Launch.HostTimeByTick s) (q : Request) (rest : List Request) :
    (takeRequest s q rest).env.hostNow = s.env.hostNow :=
  if_neg (by rw [h]; decide)

theorem takeRequest_hostNow_le (s : State) (q : Request) (rest : List Request) :
    s.env.hostNow ≤ (takeRequest s q rest).env.hostNow := by
  show _ ≤ if s.env.par.silentAdvance = true then s.env.hostNow + q.silent else s.env.hostNow
  split
  · exact Nat.le_add_right _ _
  · exact Nat.le_refl _

/-- Settles O57: an idle step changes nothing, and a step that takes an operation moves what `step_host` says. -/
theorem hostTimeMovesOnlyByTick : Obligations.HostTimeMovesOnlyByTick := by
  intro s t h
  rcases step_host h with ⟨hq, rfl⟩ | ⟨q, rest, hq, hpar, hqueue, hnow⟩
  · refine ⟨rfl, ?_, Nat.le_refl _, fun _ => ?_⟩
    · rw [Launch.HostSerial, hq]; rfl
    · rw [hq]; rfl
  · refine ⟨hpar, ?_, ?_, fun hb => ?_⟩
    · rw [Launch.HostSerial, hqueue, hq]; rfl
    · rw [Launch.HostTimeMonotone, hnow]
      exact Nat.le_add_right_of_le (takeRequest_hostNow_le s q rest)
    · rw [hnow, takeRequest_hostNow_of_byTick hb, hq]; rfl

end Sys2Proof.Machine
end

section
/-! PROOFS of the statements on the Mapper (43_mapper.md): the byte each window names, the stores, the forwarded accesses, a
read after a write, the engine's writes, and what only `LOAD` writes. -/

namespace Sys2Proof.Machine

/-! ## When the rows of the storage window apply (43_mapper.md R275, R281) -/

theorem offRow_cond {x : Session} (hen : x.bank.ramEnable = false) : (!x.ctx.ramEnable) = true := by
  rw [Session.ctx_ramEnable, hen]; rfl

theorem noneRow_cond {x : Session} (hen : x.bank.ramEnable = true) (hsel : x.isRtcSel = false)
    (hbanks : x.desc.ramBanks = 0) : (x.ctx.ramEnable && !x.ctx.isRtcSel && x.ctx.ramBanks == 0) = true := by
  simp [hen, hsel, hbanks]

theorem bankRow_cond {x : Session} (hen : x.bank.ramEnable = true) (hsel : x.isRtcSel = false)
    (hbanks : 0 < x.desc.ramBanks) : (x.ctx.ramEnable && !x.ctx.isRtcSel && decide (0 < x.ctx.ramBanks)) = true := by
  simp [hen, hsel, hbanks]

/-! ## The echo window is work memory 0x2000 lower (43_mapper.md R290, R291) -/

/-- The `wram` index an echo address stands for. -/
def echoIndex (x : Session) (a : Addr) : Nat :=
  if a.toNat < 0xF000 then a.toNat - 0xE000 else x.wramBank.toNat * 4096 + (a.toNat - 0xF000)

theorem isEcho_of_toNat {a : Addr} (hlo : 0xE000 ≤ a.toNat) (hhi : a.toNat < 0xFE00) : isEcho a = true :=
  (isEcho_iff a).2 ⟨hlo, hhi⟩

theorem echoTarget_toNat {a : Addr} (hlo : 0xE000 ≤ a.toNat) : (echoTarget a).toNat = a.toNat - 0x2000 := by
  unfold echoTarget
  bv_omega

theorem echoTarget_offset {a : Addr} (hlo : 0xE000 ≤ a.toNat) :
    ((echoTarget a).extractLsb' 0 12).toNat = (a.toNat - 0x2000) % 4096 := by
  rw [BitVec.extractLsb'_toNat, Nat.shiftRight_zero, echoTarget_toNat hlo]

/-- Below 0xF000 an echo address stands for one of `WRAM0`, from there on for one of `WRAMX`. -/
theorem wramxLo_le_echoTarget_iff {a : Addr} (hlo : 0xE000 ≤ a.toNat) :
    Config.block.wramxLo ≤ echoTarget a ↔ ¬ a.toNat < 0xF000 := by
  have ht := echoTarget_toNat hlo
  rw [Config.block_wramxLo, BitVec.le_def]
  show 0xD000 ≤ (echoTarget a).toNat ↔ _
  omega

theorem echoIndex_wram0 {a : Addr} (hlo : 0xE000 ≤ a.toNat) (h : a.toNat < 0xF000) (x : Session) :
    ((echoTarget a).extractLsb' 0 12).toNat = echoIndex x a := by
  rw [echoTarget_offset hlo, echoIndex, if_pos h]
  omega

theorem echoIndex_wramx {a : Addr} (hlo : 0xF000 ≤ a.toNat) (x : Session) :
    wramxIndex x ((echoTarget a).extractLsb' 0 12) = echoIndex x a := by
  have ha := a.isLt
  rw [wramxIndex, wramBankSize_eq, echoTarget_offset (by omega), echoIndex, if_neg (by omega)]
  omega

theorem readEcho_eq {a : Addr} (hlo : 0xE000 ≤ a.toNat) (r : Loaded) :
    readEcho a r = (r, r.ses.wramByte (echoIndex r.ses a)) := by
  unfold readEcho
  by_cases h : a.toNat < 0xF000
  · rw [if_neg (by rw [wramxLo_le_echoTarget_iff hlo]; omega), readWram0, echoIndex_wram0 hlo h r.ses]
  · rw [if_pos ((wramxLo_le_echoTarget_iff hlo).2 h), readWramx, echoIndex_wramx (by omega)]

theorem writeEcho_eq {a : Addr} (hlo : 0xE000 ≤ a.toNat) (v : Byte) (r : Loaded) :
    writeEcho a v r = r.withSes (r.ses.storeWram (echoIndex r.ses a) v) := by
  unfold writeEcho
  by_cases h : a.toNat < 0xF000
  · rw [if_neg (by rw [wramxLo_le_echoTarget_iff hlo]; omega), writeWram0, echoIndex_wram0 hlo h r.ses]
  · rw [if_pos ((wramxLo_le_echoTarget_iff hlo).2 h), writeWramx, echoIndex_wramx (by omega)]

/-! ## Reads -/

/-- Settles O1: none of the five rows has a condition, and each window reads the byte at its index. -/
theorem plainWindowReads : Obligations.PlainWindowReads := by
  intro x e o14 o13 o12
  refine ⟨?_, exec_rdRomx o14 x e, ?_, ?_, ?_⟩
  · exact readRow_next (i := .rdRom0 o14) (applies_of_cond rfl) e (readRom0 o14)
  · exact readRow_next (i := .rdVram o13) (applies_of_cond rfl) e (readVram o13)
  · exact readRow_next (i := .rdWram0 o12) (applies_of_cond rfl) e (readWram0 o12)
  · exact readRow_next (i := .rdWramx o12) (applies_of_cond rfl) e (readWramx o12)

/-- Settles O2: the row applies in the whole window, and reads the byte at `echoIndex`. -/
theorem echoWindowReadsWorkMemory : Obligations.EchoWindowReadsWorkMemory := by
  intro x e a hlo hhi
  have happ : applies x.ctx (.rdEcho a) = true := applies_of_cond rfl (isEcho_of_toNat hlo hhi)
  rw [exec, execRdEcho, readRow_next happ, readEcho_eq hlo, echoIndex, apply_ite x.wramByte]
  rfl

/-- Settles O3: in both cases the reading row answers the unmapped byte and the writing row does nothing. -/
theorem deadStorageWindow : Obligations.DeadStorageWindow := by
  intro x e off v
  refine ⟨fun hen => ⟨?_, ?_⟩, fun hen hsel hbanks => ⟨?_, ?_⟩⟩
  · exact readRow_next (i := .rdSramOff off) (applies_of_cond (offRow_cond hen)) e readUnmapped
  · exact writeRow_ignored (i := .wrSramOff off v) (applies_of_cond (offRow_cond hen)) e
  · exact readRow_next (i := .rdSramNone off) (applies_of_cond (noneRow_cond hen hsel hbanks)) e readUnmapped
  · exact writeRow_ignored (i := .wrSramNone off v) (applies_of_cond (noneRow_cond hen hsel hbanks)) e

/-- Settles O4: the row applies, and reads the byte at `sramIndex`. -/
theorem storageBankRead : Obligations.StorageBankRead := by
  intro x e off hen hsel hbanks
  exact readRow_next (i := .rdSramBank off) (applies_of_cond (bankRow_cond hen hsel hbanks)) e (readSramBank off)

/-! ## Forwarded accesses (43_mapper.md R292 to R297) -/

/-- A device address whose number is none of the seven registers' is forwarded. -/
theorem isExternal_of_toNat {a : Addr} (hlo : 0xFE00 ≤ a.toNat)
    (hn : a.toNat ∉ [0xFF4F, 0xFF51, 0xFF52, 0xFF53, 0xFF54, 0xFF55, 0xFF70]) : isExternal a = true := by
  have other : ∀ b : Addr, b.toNat ∈ [0xFF4F, 0xFF51, 0xFF52, 0xFF53, 0xFF54, 0xFF55, 0xFF70] → a ≠ b := by
    rintro b hb rfl
    exact hn hb
  exact isExternal_of hlo (other _ (by decide)) (other _ (by decide)) (other _ (by decide)) (other _ (by decide))
    (other _ (by decide)) (other _ (by decide)) (other _ (by decide))

/-- Settles O7: each row applies, and is one call of the external port. -/
theorem forwardedReadsAnswerTheOracle : Obligations.ForwardedReadsAnswerTheOracle := by
  intro x e
  refine ⟨?_, ?_, fun a hlo hn => ?_⟩
  · exact readRow_next (i := .rdVbk) (applies_of_cond rfl) e (extRead regVbk)
  · exact readRow_next (i := .rdSvbk) (applies_of_cond rfl) e (extRead regSvbk)
  · exact readRow_next (i := .rdExt a) (applies_of_cond rfl (isExternal_of_toNat hlo hn)) e (extRead a)

/-- Settles O12: each row applies, and is one call of the external port after the bank select it snoops. -/
theorem forwardedWrites : Obligations.ForwardedWrites := by
  intro x e v
  refine ⟨?_, ?_, fun a hlo hn => ?_⟩
  · exact writeRow_next (i := .wrVbk v) (applies_of_cond rfl) e (writeVbk v)
  · exact writeRow_next (i := .wrSvbk v) (applies_of_cond rfl) e (writeSvbk v)
  · exact writeRow_next (i := .wrExt a v) (applies_of_cond rfl (isExternal_of_toNat hlo hn)) e (extWrite a v)

/-! ## Stores -/

/-- Settles O8: each row is a store at the index its window names, and a store changes one byte. -/
theorem videoAndWorkMemoryStores : Obligations.VideoAndWorkMemoryStores := by
  intro x e o13 o12 v
  refine ⟨⟨_, ?vram, fun i => x.vramByte_storeVram (vramIndex x o13) i v⟩,
    ⟨_, ?wram0, fun i => x.wramByte_storeWram o12.toNat i v⟩,
    ⟨_, ?wramx, fun i => x.wramByte_storeWram (wramxIndex x o12) i v⟩⟩
  case vram => exact writeRow_next (i := .wrVram o13 v) (applies_of_cond rfl) e (writeVram o13 v)
  case wram0 => exact writeRow_next (i := .wrWram0 o12 v) (applies_of_cond rfl) e (writeWram0 o12 v)
  case wramx => exact writeRow_next (i := .wrWramx o12 v) (applies_of_cond rfl) e (writeWramx o12 v)

/-- Settles O9: the row is a store at `echoIndex`. -/
theorem echoWindowStoresWorkMemory : Obligations.EchoWindowStoresWorkMemory := by
  intro x e a v hlo hhi
  have happ : applies x.ctx (.wrEcho a v) = true := applies_of_cond rfl (isEcho_of_toNat hlo hhi)
  refine ⟨_, ?_, fun i => x.wramByte_storeWram (echoIndex x a) i v⟩
  rw [exec, execWrEcho, writeRow_next happ, writeEcho_eq hlo]
  rfl

/-- Settles O10: the row is a store at `sramIndex`, and a store to a canonical array changes one byte. -/
theorem storageBankStore : Obligations.StorageBankStore := by
  rintro x e off v hen hsel hbanks ⟨-, ⟨hsorted, -⟩, -, -⟩
  refine ⟨_, ?_, fun i => Session.sramByte_storeSram hsorted (sramIndex x off) i v⟩
  exact writeRow_next (i := .wrSramBank off v) (applies_of_cond (bankRow_cond hen hsel hbanks)) e (writeSramBank off v)

/-! ## `Read` and `Write` by the window of the address -/

theorem read_of_lt_ext {a : Addr} (h : a < 0xFE00#16) (r : Loaded) :
    read a r =
      if 0xE000#16 ≤ a then readEcho a r
      else if 0xD000#16 ≤ a then readWramx (a.extractLsb' 0 12) r
      else if 0xC000#16 ≤ a then readWram0 (a.extractLsb' 0 12) r
      else if 0xA000#16 ≤ a then readSram (a.extractLsb' 0 13) r
      else if 0x8000#16 ≤ a then readVram (a.extractLsb' 0 13) r
      else if 0x4000#16 ≤ a then readRomx (a.extractLsb' 0 14) r
      else readRom0 (a.extractLsb' 0 14) r := by
  unfold read
  simp only [Config.block_lows]
  rw [if_neg (ne_of_lt_ext h (by decide)), if_neg (ne_of_lt_ext h (by decide)), if_neg (ne_of_lt_ext h (by decide)),
    if_neg (ne_of_lt_ext h (by decide)), if_neg (ne_of_lt_ext h (by decide)), if_neg (ne_of_lt_ext h (by decide)),
    if_neg (ne_of_lt_ext h (by decide)), if_neg (by bv_omega)]

theorem read_vram {a : Addr} (h1 : 0x8000#16 ≤ a) (h2 : a < 0xA000#16) (r : Loaded) :
    read a r = readVram (a.extractLsb' 0 13) r := by
  rw [read_of_lt_ext (by bv_omega), if_neg (by bv_omega), if_neg (by bv_omega), if_neg (by bv_omega),
    if_neg (by bv_omega), if_pos h1]

theorem read_sram {a : Addr} (h1 : 0xA000#16 ≤ a) (h2 : a < 0xC000#16) (r : Loaded) :
    read a r = readSram (a.extractLsb' 0 13) r := by
  rw [read_of_lt_ext (by bv_omega), if_neg (by bv_omega), if_neg (by bv_omega), if_neg (by bv_omega), if_pos h1]

/-- The `wram` index of an address in work memory or the echo, 0xC000 to 0xFDFF. -/
def workIndex (x : Session) (a : Addr) : Nat :=
  if 0xE000#16 ≤ a then echoIndex x a
  else if 0xD000#16 ≤ a then wramxIndex x (a.extractLsb' 0 12)
  else (a.extractLsb' 0 12).toNat

/-- A store does not move the index. -/
theorem workIndex_storeWram (x : Session) (a : Addr) (i : Nat) (v : Byte) :
    workIndex (x.storeWram i v) a = workIndex x a := rfl

theorem read_work {a : Addr} (h1 : 0xC000#16 ≤ a) (h2 : a < 0xFE00#16) (r : Loaded) :
    read a r = (r, r.ses.wramByte (workIndex r.ses a)) := by
  rw [read_of_lt_ext h2, workIndex]
  by_cases hecho : 0xE000#16 ≤ a
  · rw [if_pos hecho, if_pos hecho, readEcho_eq hecho]
  rw [if_neg hecho, if_neg hecho]
  by_cases hx : 0xD000#16 ≤ a
  · rw [if_pos hx, if_pos hx, readWramx]
  · rw [if_neg hx, if_neg hx, if_pos h1, readWram0]

theorem writeWith_work {a : Addr} (h1 : 0xC000#16 ≤ a) (h2 : a < 0xFE00#16) (trig : Byte → Loaded → Loaded) (v : Byte)
    (r : Loaded) : writeWith trig a v r = r.withSes (r.ses.storeWram (workIndex r.ses a) v) := by
  unfold writeWith workIndex
  simp only [Config.block_lows]
  rw [if_neg (ne_of_lt_ext h2 (by decide)), if_neg (ne_of_lt_ext h2 (by decide)), if_neg (ne_of_lt_ext h2 (by decide)),
    if_neg (ne_of_lt_ext h2 (by decide)), if_neg (ne_of_lt_ext h2 (by decide)), if_neg (ne_of_lt_ext h2 (by decide)),
    if_neg (ne_of_lt_ext h2 (by decide)), if_neg (by bv_omega)]
  by_cases hecho : 0xE000#16 ≤ a
  · rw [if_pos hecho, if_pos hecho, writeEcho_eq hecho]
  rw [if_neg hecho, if_neg hecho]
  by_cases hx : 0xD000#16 ≤ a
  · rw [if_pos hx, if_pos hx, writeWramx]
  · rw [if_neg hx, if_neg hx, if_pos h1, writeWram0]

/-- Settles O47: the two words decode to their address's row, and that row is `Read` or `Write`. -/
theorem busRowsAreReadAndWrite : Obligations.BusRowsAreReadAndWrite := by
  intro x e a v
  rw [decode_rdWord, decode_wrWord]
  exact ⟨exec_decodeRead x e a, exec_decodeWrite x e a v⟩

/-! ## A read after a write (43_mapper.md R303) -/

theorem readSram_bank {r : Loaded} (hen : r.ses.bank.ramEnable = true) (hsel : r.ses.isRtcSel = false)
    (hbanks : 0 < r.ses.desc.ramBanks) (off : BitVec 13) : readSram off r = readSramBank off r := by
  rw [readSram, if_neg (by simp [hen]), if_neg (by simp [hsel]), if_neg (by omega)]

theorem writeSram_bank {r : Loaded} (hen : r.ses.bank.ramEnable = true) (hsel : r.ses.isRtcSel = false)
    (hbanks : 0 < r.ses.desc.ramBanks) (off : BitVec 13) (v : Byte) : writeSram off v r = writeSramBank off v r := by
  rw [writeSram, if_neg (by simp [hen]), if_neg (by simp [hsel]), if_neg (by omega)]

section
variable {a : Addr} {v : Byte} {r t : Loaded} (ht : t.ses = (write a v r).ses)
include ht

theorem read_write_vram (h1 : 0x8000#16 ≤ a) (h2 : a < 0xA000#16) : read a t = (t, v) := by
  have hses : t.ses = r.ses.storeVram (vramIndex r.ses (a.extractLsb' 0 13)) v := by
    rw [ht, write, writeWith_vram h1 h2]; rfl
  rw [read_vram h1 h2, readVram, hses]
  exact congrArg (Prod.mk t) ((Session.vramByte_storeVram _ _ _ _).trans (if_pos rfl))

theorem read_write_work (h1 : 0xC000#16 ≤ a) (h2 : a < 0xFE00#16) : read a t = (t, v) := by
  have hses : t.ses = r.ses.storeWram (workIndex r.ses a) v := by
    rw [ht, write, writeWith_work h1 h2]; rfl
  rw [read_work h1 h2, hses, workIndex_storeWram, Session.wramByte_storeWram, if_pos rfl]

theorem read_write_sram (h1 : 0xA000#16 ≤ a) (h2 : a < 0xC000#16) (hen : r.ses.bank.ramEnable = true)
    (hsel : r.ses.isRtcSel = false) (hbanks : 0 < r.ses.desc.ramBanks)
    (hsorted : r.ses.sram.Pairwise (fun c d => c.1 < d.1)) : read a t = (t, v) := by
  have hses : t.ses = r.ses.storeSram (sramIndex r.ses (a.extractLsb' 0 13)) v := by
    rw [ht, write, writeWith_sram h1 h2, writeSram_bank hen hsel hbanks]; rfl
  have hbank : readSram (a.extractLsb' 0 13) t = readSramBank (a.extractLsb' 0 13) t :=
    readSram_bank (by rw [hses]; exact hen) (by rw [hses]; exact hsel) (by rw [hses]; exact hbanks) _
  rw [read_sram h1 h2, hbank, readSramBank, hses]
  exact congrArg (Prod.mk t) ((Session.sramByte_storeSram hsorted _ _ _).trans (if_pos rfl))

end

/-- Settles O59: both rows are `Write` and `Read`, and each kind of memory reads back what it stored. -/
theorem readAfterWrite : Obligations.ReadAfterWrite := by
  rintro x e a v ⟨-, ⟨hsorted, -⟩, -, -⟩ hwin
  have back : read a ((write a v ⟨x, e⟩).answer .none) = ((write a v ⟨x, e⟩).answer .none, v) := by
    rcases hwin with ⟨h1, h2⟩ | ⟨h1, h2⟩ | ⟨h1, h2, hen, hsel, hbanks⟩
    · exact read_write_vram rfl h1 h2
    · exact read_write_work rfl h1 h2
    · exact read_write_sram rfl h1 h2 hen hsel hbanks hsorted
  refine ⟨((write a v ⟨x, e⟩).answer .none).ses, ((write a v ⟨x, e⟩).answer .none).env, ?_, ?_⟩
  · rw [decode_wrWord]
    exact exec_decodeWrite x e a v
  · rw [decode_rdWord, exec_decodeRead, back]
    rfl

/-! ## The engine's writes -/

/-- Settles O20: right after arming the transfer is in reach, so its units never write `REG_DMA_CTRL`. -/
theorem engineWritesThroughTheMapper : Obligations.EngineWritesThroughTheMapper := by
  intro a v r
  have hunits : ∀ n : BitVec 7,
      runUnits unitWrite (n.toNat + 1) (armFrom n r) = runUnits write (n.toNat + 1) (armFrom n r) := fun n =>
    runUnits_trig _ _ _ (armFrom_consistent n r) (armFrom_inReach n r) (by rw [armFrom_remaining]; omega)
  exact writeWith_congr (trigger_congr (hunits _))

/-! ## What only `LOAD` writes (43_mapper.md R302, 40_descriptor.md R170) -/

/-- Two sessions of one cartridge, with the same contents of its read-only memory. -/
def SameRom (x y : Session) : Prop := y.rom = x.rom ∧ y.desc = x.desc

theorem SameRom.refl (x : Session) : SameRom x x := ⟨rfl, rfl⟩

theorem SameRom.trans {x y z : Session} (h : SameRom x y) (k : SameRom y z) : SameRom x z :=
  ⟨k.1.trans h.1, k.2.trans h.2⟩

theorem read_sameRom (a : Addr) (r : Loaded) : SameRom r.ses (read a r).1.ses := by
  rw [(read_frame a r).1]
  exact ⟨rfl, rfl⟩

theorem syncSession_sameRom (now : Nat) (x : Session) : SameRom x (syncSession now x) := by
  rw [syncSession_frame]
  exact ⟨rfl, rfl⟩

theorem write_sameRom (a : Addr) (v : Byte) (r : Loaded) : SameRom r.ses (write a v r).ses := by
  refine writeWith_elim (P := fun t => SameRom r.ses t.ses) (.refl _) (fun _ => ?control) (fun _ => ⟨rfl, rfl⟩)
    (fun _ _ => ⟨rfl, rfl⟩) (fun _ _ => ⟨rfl, rfl⟩) (syncSession_sameRom _ _) ⟨rfl, rfl⟩ ⟨rfl, rfl⟩
    (fun _ _ _ _ _ => ⟨rfl, rfl⟩) (.refl _) fun _ => ?trigger
  case control =>
    obtain ⟨bank, snap, mark, hses, -⟩ := onWrite_ses a v r
    rw [hses]
    exact ⟨rfl, rfl⟩
  case trigger =>
    obtain ⟨vram, sram, live, last, calls, events, d, ht, -⟩ := trigger_spec (v.extractLsb' 7 1) (v.extractLsb' 0 7) r
    unfold triggerByte
    rw [ht]
    exact ⟨rfl, rfl⟩

theorem finishUnit_sameRom (r : Loaded) : SameRom r.ses (finishUnit r).ses := ⟨rfl, rfl⟩

/-- A unit keeps the cartridge wherever its destination lies. -/
theorem horizontalBlank_sameRom (r : Loaded) : SameRom r.ses (horizontalBlank r).ses := by
  have hbytes : SameRom r.ses (moveBytes write r).ses :=
    foldl_keeps (P := fun t : Loaded => SameRom r.ses t.ses) _ _
      (fun _ ht _ _ => (ht.trans (read_sameRom _ _)).trans (write_sameRom _ _ _)) (.refl _)
  show SameRom r.ses (advanceOneUnit write r).ses
  by_cases hp : r.ses.dma.phase = .idle
  · rw [advanceOneUnit_idle hp]; exact .refl _
  · rw [advanceOneUnit_active hp]; exact hbytes.trans (finishUnit_sameRom _)

theorem reconcile_sameRom (now t : Nat) (track : Bool) (x : Session) : SameRom x (reconcile now t track x) := by
  unfold reconcile
  split
  · exact syncSession_sameRom now { x with lastSync := t }
  · exact ⟨rfl, rfl⟩

theorem restoreFrom_sameRom (b : List Byte) (track : Bool) (r : Loaded) :
    SameRom r.ses (restoreFrom b track r).ses := by
  unfold restoreFrom
  split
  · exact reconcile_sameRom _ _ _ (restoreFields b r.ses)
  · exact .refl _

/-- Every operation of a loaded session but `LOAD` leaves one of the same cartridge. -/
theorem decoded_sameRom {x : Session} {e : Env} {w : OpWord} {t : State} (ho : fieldOp w ≠ 4#3)
    (h : exec (decode x.ctx w) ⟨some x, e⟩ = .next t) : ∃ y, t.session = some y ∧ SameRom x y := by
  rcases decoded_cases h with
    ⟨-, rfl⟩ | ⟨-, rfl⟩ | ⟨-, rfl⟩ | ⟨-, rfl⟩ | ⟨hload, -⟩ | ⟨-, rfl⟩ | ⟨-, -, rfl⟩ | ⟨-, rfl⟩
  · exact ⟨_, rfl, read_sameRom _ ⟨x, e⟩⟩
  · exact ⟨_, rfl, write_sameRom _ _ ⟨x, e⟩⟩
  · exact ⟨_, rfl, horizontalBlank_sameRom ⟨x, e⟩⟩
  · exact ⟨_, rfl, syncSession_sameRom _ x⟩
  · exact absurd hload ho
  · exact ⟨_, rfl, rfl, rfl⟩
  · exact ⟨_, rfl, .refl x⟩
  · exact ⟨_, rfl, restoreFrom_sameRom _ _ ⟨x, e⟩⟩

/-- Settles O55: an idle step changes nothing, and a step that takes another operation than `LOAD` keeps the cartridge. -/
theorem onlyLoadWritesRomAndDescriptor : Obligations.OnlyLoadWritesRomAndDescriptor := by
  intro s t x hx hw h
  rcases step_cases h with ⟨-, rfl⟩ | ⟨q, rest, hq, hcase⟩
  · exact ⟨x, hx, SameRom.refl x⟩
  have ho : fieldOp q.word ≠ 4#3 := hw q.word (by simp [State.nextWord, hq])
  rcases hcase with ⟨-, hload, -⟩ | ⟨y, hy, he⟩
  · exact absurd hload ho
  · obtain rfl : x = y := Option.some.inj (hx.symm.trans hy)
    exact decoded_sameRom ho he

end Sys2Proof.Machine
end

section
/-! PROOFS of the statements on the DMA engine (44_dma.md): its registers, the two trigger writes, the bytes one unit leaves in
video memory and storage, `k` executions of `HB` as `k` units, and the reach of a transfer. -/

namespace Sys2Proof.Machine

/-! ## The registers -/

/-- The status byte where the spec gives it a value (44_dma.md R342). -/
theorem dmaStatus_of_unit_left {d : Dma} (h : d.phase = .idle ∨ 16 ≤ d.remaining.toNat) :
    dmaStatus d = if d.phase = .idle then 0xFF#8 else BitVec.ofNat 8 (d.remaining.toNat / 16 - 1) &&& 0x7F#8 := by
  unfold dmaStatus
  by_cases hp : d.phase = .idle
  · rw [if_pos hp, if_pos hp, unmapped_eq]
  · rw [if_neg hp, if_neg hp, dmaUnit_eq, if_pos (h.resolve_left hp)]

/-- Settles O6: none of the five rows has a condition; four answer the unmapped byte, the fifth the status byte. -/
theorem dmaRegisterReads : Obligations.DmaRegisterReads := by
  intro x e
  refine ⟨?_, ?_, ?_, ?_, fun h => ?_⟩
  · exact readRow_next (i := .rdDmaSrcHi) (applies_of_cond rfl) e readUnmapped
  · exact readRow_next (i := .rdDmaSrcLo) (applies_of_cond rfl) e readUnmapped
  · exact readRow_next (i := .rdDmaDstHi) (applies_of_cond rfl) e readUnmapped
  · exact readRow_next (i := .rdDmaDstLo) (applies_of_cond rfl) e readUnmapped
  · rw [← dmaStatus_of_unit_left h]
    exact readRow_next (i := .rdDmaCtrl) (applies_of_cond rfl) e readDmaCtrl

/-- Settles O13: none of the four rows has a condition, and each writes one field of the DMA registers. -/
theorem stagingRegisterWrites : Obligations.StagingRegisterWrites := by
  intro x e v
  refine ⟨?_, ?_, ?_, ?_⟩
  · exact writeRow_next (i := .wrDmaSrcHi v) (applies_of_cond rfl) e (writeDmaSrcHi v)
  · exact writeRow_next (i := .wrDmaSrcLo v) (applies_of_cond rfl) e (writeDmaSrcLo v)
  · exact writeRow_next (i := .wrDmaDstHi v) (applies_of_cond rfl) e (writeDmaDstHi v)
  · exact writeRow_next (i := .wrDmaDstLo v) (applies_of_cond rfl) e (writeDmaDstLo v)

/-! ## The trigger write -/

theorem exec_wrDmaCtrl (mode : BitVec 1) (n : BitVec 7) (x : Session) (e : Env) :
    exec (.wrDmaCtrl mode n) ⟨some x, e⟩ = .next ((trigger unitWrite mode n ⟨x, e⟩).answer .none).toState :=
  writeRow_next (i := .wrDmaCtrl mode n) (applies_of_cond rfl) e (trigger unitWrite mode n)

theorem trigger_paced (wr : Addr → Byte → Loaded → Loaded) (n : BitVec 7) (r : Loaded) :
    trigger wr 1#1 n r = armFrom n r :=
  if_pos rfl

theorem trigger_immediate (wr : Addr → Byte → Loaded → Loaded) (n : BitVec 7) (r : Loaded) :
    trigger wr 0#1 n r = runUnits wr (n.toNat + 1) (armFrom n r) :=
  if_neg (by decide)

/-- Settles O14: with the mode bit set the trigger is the arming alone. -/
theorem pacedTriggerArms : Obligations.PacedTriggerArms := by
  intro x e n
  rw [exec_wrDmaCtrl, trigger_paced, armFrom_eq]
  rfl

/-- An immediate trigger write moves every unit it arms, so it ends idle with both pointers past the last byte
(44_dma.md R328). -/
theorem trigger_immediate_spec (n : BitVec 7) (r : Loaded) :
    ∃ (vram sram : Mem) (live : ClockRegs) (last calls : Nat) (events : List Event),
      trigger unitWrite 0#1 n r =
        { ses := { r.ses with
            vram := vram
            sram := sram
            live := live
            lastSync := last
            dma := { r.ses.dma with
              src := r.ses.dma.armSrc + BitVec.ofNat 16 ((n.toNat + 1) * 16)
              dst := r.ses.dma.armDst + BitVec.ofNat 16 ((n.toNat + 1) * 16)
              remaining := 0#12
              phase := .idle } }
          env := { r.env with extCalls := calls, events := events } } := by
  have hrem := armFrom_remaining n r
  obtain ⟨vram, sram, live, last, calls, events, h⟩ :=
    runUnits_spec (fun v r => armFrom (v.extractLsb' 0 7) r) (n.toNat + 1) (armFrom_consistent n r) (armFrom_inReach n r)
      (by omega)
  refine ⟨vram, sram, live, last, calls, events, (trigger_immediate unitWrite n r).trans (h.trans ?_)⟩
  rw [if_neg (by omega), if_pos (by omega), armFrom_eq, Nat.mul_comm 16]
  simp

/-- The frame of a transfer does not look at the DMA registers. -/
theorem TransferFrame.of_dma {src dst : Addr} {n : Nat} {x y : Session} {e f : Env} {d : Dma}
    (h : TransferFrame src dst n x e { y with dma := d } f) : TransferFrame src dst n x e y f :=
  ⟨h.vram, h.sram, h.sramStays, h.clockStays, h.arrays, h.port⟩

/-- Settles O15: the end of the units armed, and the frame of the whole transfer. -/
theorem immediateTriggerCompletes : Obligations.ImmediateTriggerCompletes := by
  intro x e n
  obtain ⟨vram, sram, live, last, calls, events, h⟩ := trigger_immediate_spec n ⟨x, e⟩
  have hframe := trigger_transfer n ⟨x, e⟩
  rw [h] at hframe
  refine ⟨vram, sram, live, last, calls, events, ?_, hframe.of_dma⟩
  rw [exec_wrDmaCtrl, h]
  rfl

/-! ## The bytes of a unit, once it has moved (44_dma.md R336) -/

theorem toNat_add_ofNat {d : Addr} {i : Nat} (h : d.toNat + i < 0x10000) :
    (d + BitVec.ofNat 16 i).toNat = d.toNat + i := by
  rw [BitVec.toNat_add, BitVec.toNat_ofNat]
  omega

/-- Two bytes of a unit have different offsets in the windows of video memory and storage. -/
theorem unit_offset_ne (d : Addr) {i j : Nat} (hij : i < j) (hj : j < 16) :
    ((d + BitVec.ofNat 16 i).extractLsb' 0 13).toNat ≠ ((d + BitVec.ofNat 16 j).extractLsb' 0 13).toNat := by
  simp only [BitVec.extractLsb'_toNat, Nat.shiftRight_zero, BitVec.toNat_add, BitVec.toNat_ofNat]
  omega

theorem vramIndex_ne (x : Session) {o p : BitVec 13} (h : o.toNat ≠ p.toNat) : vramIndex x o ≠ vramIndex x p := by
  unfold vramIndex
  omega

theorem sramIndex_ne (x : Session) {o p : BitVec 13} (h : o.toNat ≠ p.toNat) : sramIndex x o ≠ sramIndex x p := by
  unfold sramIndex
  omega

/-- A byte moved to the video-memory window is the one read. -/
theorem moveByte_vram {trig : Byte → Loaded → Loaded} {t : Loaded} {i : Nat}
    (h1 : 0x8000#16 ≤ t.ses.dma.dst + BitVec.ofNat 16 i) (h2 : t.ses.dma.dst + BitVec.ofNat 16 i < 0xA000#16) :
    (moveByte (writeWith trig) t i).ses.vramByte
        (vramIndex t.ses ((t.ses.dma.dst + BitVec.ofNat 16 i).extractLsb' 0 13)) =
      (read (t.ses.dma.src + BitVec.ofNat 16 i) t).2 := by
  have hb := (read_frame (t.ses.dma.src + BitVec.ofNat 16 i) t).unit.banks
  rw [moveByte_eq, writeWith_vram h1 h2, ← hb.vramIndex]
  exact (Session.vramByte_storeVram _ _ _ _).trans (if_pos rfl)

/-- A byte moved to the storage window is the one read, where the window shows a bank. -/
theorem moveByte_sram {trig : Byte → Loaded → Loaded} {t : Loaded} {i : Nat}
    (hwin : inStorageWindow (t.ses.dma.dst + BitVec.ofNat 16 i)) (hen : t.ses.bank.ramEnable = true)
    (hsel : t.ses.isRtcSel = false) (hbanks : 0 < t.ses.desc.ramBanks)
    (hsorted : t.ses.sram.Pairwise (fun c d => c.1 < d.1)) :
    (moveByte (writeWith trig) t i).ses.sramByte
        (sramIndex t.ses ((t.ses.dma.dst + BitVec.ofNat 16 i).extractLsb' 0 13)) =
      (read (t.ses.dma.src + BitVec.ofNat 16 i) t).2 := by
  have hf := read_frame (t.ses.dma.src + BitVec.ofNat 16 i) t
  have hb := hf.unit.banks
  have hs : (read (t.ses.dma.src + BitVec.ofNat 16 i) t).1.ses.sram = t.ses.sram := by rw [hf.1]
  rw [moveByte_eq, writeWith_sram hwin.1 hwin.2,
    writeSram_bank (by rw [hb.1]; exact hen) (hb.isRtcSel.trans hsel) (by rw [hb.2.1]; exact hbanks), ← hb.sramIndex]
  exact (Session.sramByte_storeSram (by rw [hs]; exact hsorted) _ _ _).trans (if_pos rfl)

section
variable (trig : Byte → Loaded → Loaded) {r : Loaded} (h1 : 0x8000 ≤ r.ses.dma.dst.toNat)
  (h2 : r.ses.dma.dst.toNat + 16 ≤ 0xC000)
include h1 h2

/-- The first `i` bytes of a unit. -/
theorem moveFirst_transfer {i : Nat} (hi : i ≤ 16) :
    TransferFrame r.ses.dma.src r.ses.dma.dst i r.ses r.env ((List.range i).foldl (moveByte (writeWith trig)) r).ses
      ((List.range i).foldl (moveByte (writeWith trig)) r).env := by
  have h := (moveRun_transfer trig i 0 (by omega) (.refl r) h1 h2).2
  rwa [BitVec.add_zero, BitVec.add_zero, ← List.range_eq_range'] at h

/-- Byte `i` of a unit, where it lies in video memory: the bytes after it are written elsewhere. -/
theorem moveBytes_vram {i : Nat} (hi : i < 16) (hlow : (r.ses.dma.dst + BitVec.ofNat 16 i).toNat < 0xA000) :
    (moveBytes (writeWith trig) r).ses.vramByte
        (vramIndex r.ses ((r.ses.dma.dst + BitVec.ofNat 16 i).extractLsb' 0 13)) =
      (read (r.ses.dma.src + BitVec.ofNat 16 i) ((List.range i).foldl (moveByte (writeWith trig)) r)).2 := by
  obtain ⟨hu, hb, hrest⟩ := moveBytes_split trig h1 h2 hi
  have hbyte := moveByte_vram (trig := trig) (t := (List.range i).foldl (moveByte (writeWith trig)) r) (i := i)
    (by rw [hu.dma]; exact (dst_window h1 h2 hi).1) (by rw [hu.dma]; exact hlow)
  rw [hu.dma, hu.banks.vramIndex] at hbyte
  refine (hrest.vram _ fun k hk _ => ?_).trans hbyte
  rw [hb.vramIndex, add_ofNat_add]
  exact vramIndex_ne _ (unit_offset_ne _ (by omega) (by omega))

/-- Byte `i` of a unit, where it lies in the storage bank shown: the bytes after it are written elsewhere. -/
theorem moveBytes_sram {i : Nat} (hi : i < 16) (hwin : inStorageWindow (r.ses.dma.dst + BitVec.ofNat 16 i))
    (hen : r.ses.bank.ramEnable = true) (hsel : r.ses.isRtcSel = false) (hbanks : 0 < r.ses.desc.ramBanks)
    (harr : r.ses.arraysOk) :
    (moveBytes (writeWith trig) r).ses.sramByte
        (sramIndex r.ses ((r.ses.dma.dst + BitVec.ofNat 16 i).extractLsb' 0 13)) =
      (read (r.ses.dma.src + BitVec.ofNat 16 i) ((List.range i).foldl (moveByte (writeWith trig)) r)).2 := by
  obtain ⟨hu, hb, hrest⟩ := moveBytes_split trig h1 h2 hi
  obtain ⟨-, ⟨hsorted, -⟩, -, -⟩ := (moveFirst_transfer trig h1 h2 (by omega : i ≤ 16)).arrays harr
  have harr' := (moveFirst_transfer trig h1 h2 (by omega : i + 1 ≤ 16)).arrays harr
  rw [List.range_succ, List.foldl_append] at harr'
  have hub := hu.banks
  have hbyte := moveByte_sram (trig := trig) (t := (List.range i).foldl (moveByte (writeWith trig)) r) (i := i)
    (by rw [hu.dma]; exact hwin) (by rw [hub.1]; exact hen) (hub.isRtcSel.trans hsel) (by rw [hub.2.1]; exact hbanks) hsorted
  rw [hu.dma, hub.sramIndex] at hbyte
  refine (hrest.sram harr' _ fun k hk _ => ?_).trans hbyte
  rw [hb.sramIndex, add_ofNat_add]
  exact sramIndex_ne _ (unit_offset_ne _ (by omega) (by omega))

end

/-! ## `HB` -/

theorem exec_hb (r : Loaded) : exec .hb r.toState = .next (horizontalBlank r).toState :=
  onRow_next (i := .hb) (applies_of_cond rfl) r.env horizontalBlank

/-- `HB` answers whether the unit it moved leaves the transfer in progress. -/
theorem horizontalBlank_eq (r : Loaded) :
    horizontalBlank r = (advanceOneUnit write r).answer (.pending (advanceOneUnit write r).ses.dma.active) := rfl

theorem exec_hb_idle {x : Session} (h : x.dma.phase = .idle) (e : Env) :
    exec .hb ⟨some x, e⟩ = .next ⟨some x, { e with result := .pending false }⟩ := by
  have hinactive : x.dma.active = false := by rw [Dma.active, h]; rfl
  have hidle : advanceOneUnit write ⟨x, e⟩ = ⟨x, e⟩ := advanceOneUnit_idle h
  refine (exec_hb ⟨x, e⟩).trans ?_
  rw [horizontalBlank_eq, hidle, hinactive]
  rfl

/-- What is pending after a unit: the transfer, unless that was its last one. -/
theorem active_of_phase {m : BitVec 12} {d : Dma} (h : d.phase = if m = 16#12 then .idle else .transferring) :
    d.active = decide (m ≠ 16#12) := by
  rw [Dma.active, h]
  by_cases hm : m = 16#12
  · simp [hm]
  · simp [hm]

/-- `HB` on a transfer whose phase after the unit is known. -/
theorem exec_hb_of_phase {x : Session} {e : Env} {m : BitVec 12}
    (h : (advanceOneUnit write ⟨x, e⟩).ses.dma.phase = if m = 16#12 then .idle else .transferring) :
    exec .hb ⟨some x, e⟩ = .next ((advanceOneUnit write ⟨x, e⟩).answer (.pending (decide (m ≠ 16#12)))).toState := by
  refine (exec_hb ⟨x, e⟩).trans ?_
  rw [horizontalBlank_eq, active_of_phase h]

/-- The end of a unit writes no byte. -/
theorem advanceOneUnit_bytes {wr : Addr → Byte → Loaded → Loaded} {r : Loaded} (hp : r.ses.dma.phase ≠ .idle) :
    (advanceOneUnit wr r).ses.vramByte = (moveBytes wr r).ses.vramByte ∧
      (advanceOneUnit wr r).ses.sramByte = (moveBytes wr r).ses.sramByte := by
  rw [advanceOneUnit_active hp]
  exact ⟨rfl, rfl⟩

/-- Settles O16: idle, nothing moves; else one unit in reach, with its frame and the byte at each of its addresses. -/
theorem horizontalBlankMovesOneUnit : Obligations.HorizontalBlankMovesOneUnit := by
  intro x e
  refine ⟨fun hidle => exec_hb_idle hidle e, fun hp hc hr => ?_⟩
  obtain ⟨h1, hend⟩ := hr hp
  have h16 := hc.sixteen_le hp
  have h2 : x.dma.dst.toNat + 16 ≤ 0xC000 := by omega
  obtain ⟨vram, sram, live, last, calls, events, h⟩ :=
    advanceOneUnit_spec (r := ⟨x, e⟩) (triggerByte unitWrite) hp hc h1 h2
  have hframe := advanceOneUnit_transfer (r := ⟨x, e⟩) (triggerByte unitWrite) hp hc h1 h2
  obtain ⟨hvram, hsram⟩ := advanceOneUnit_bytes (wr := writeWith (triggerByte unitWrite)) (r := ⟨x, e⟩) hp
  have hexec := exec_hb_of_phase (x := x) (e := e) (m := x.dma.remaining) (by rw [write, h])
  rw [write, h] at hexec
  rw [h] at hframe hvram hsram
  refine ⟨vram, sram, live, last, calls, events, hexec, hframe.of_dma, fun i hi b hb => ⟨fun hlow => ?_, ?_⟩⟩
  · rw [hb]
    exact (congrFun hvram _).trans (moveBytes_vram (r := ⟨x, e⟩) _ h1 h2 hi hlow)
  · intro hwin hen hsel hbanks harr
    rw [hb]
    exact (congrFun hsram _).trans (moveBytes_sram (r := ⟨x, e⟩) _ h1 h2 hi hwin hen hsel hbanks harr)

/-! ## A unit from read-only or work memory to video memory -/

/-- The addresses of read-only and work memory, the echo included: what they read as does not depend on video memory. -/
def InPlainSource (a : Addr) : Prop := a.toNat < 0x8000 ∨ (0xC000 ≤ a.toNat ∧ a.toNat < 0xFE00)

/-- The loaded machine with another video memory. -/
def Loaded.withVram (r : Loaded) (m : Mem) : Loaded := r.withSes { r.ses with vram := m }

theorem read_withVram {a : Addr} (ha : InPlainSource a) (r : Loaded) (m : Mem) :
    read a (r.withVram m) = (r.withVram m, (read a r).2) := by
  rcases ha with hrom | ⟨hlo, hhi⟩
  · have hread : ∀ t : Loaded, read a t =
        if 0x4000#16 ≤ a then readRomx (a.extractLsb' 0 14) t else readRom0 (a.extractLsb' 0 14) t := fun t => by
      rw [read_of_lt_ext (by bv_omega), if_neg (by bv_omega), if_neg (by bv_omega), if_neg (by bv_omega),
        if_neg (by bv_omega), if_neg (by bv_omega)]
    rw [hread, hread]
    split <;> rfl
  · rw [read_work hlo hhi, read_work hlo hhi]
    rfl

section
variable (trig : Byte → Loaded → Loaded) {r : Loaded}
  (hsrc : ∀ i < 16, InPlainSource (r.ses.dma.src + BitVec.ofNat 16 i)) (h1 : 0x8000 ≤ r.ses.dma.dst.toNat)
  (h2 : r.ses.dma.dst.toNat + 16 ≤ 0xA000)
include hsrc h1 h2

/-- The bytes of such a unit leave everything but video memory as it was. -/
theorem moveFirst_withVram {i : Nat} (hi : i ≤ 16) :
    ∃ m, (List.range i).foldl (moveByte (writeWith trig)) r = r.withVram m := by
  induction i with
  | zero => exact ⟨r.ses.vram, rfl⟩
  | succ i ih =>
    obtain ⟨m, hm⟩ := ih (by omega)
    have hdst : (r.ses.dma.dst + BitVec.ofNat 16 i).toNat < 0xA000 := by rw [toNat_add_ofNat (by omega)]; omega
    have hread : read ((r.withVram m).ses.dma.src + BitVec.ofNat 16 i) (r.withVram m) = _ :=
      read_withVram (hsrc i hi) r m
    rw [List.range_succ, List.foldl_append, hm, List.foldl_cons, List.foldl_nil, moveByte_eq, hread]
    exact ⟨_, (writeWith_vram (dst_window h1 (by omega) hi).1 hdst trig _ (r.withVram m)).trans rfl⟩

/-- Byte `i` of such a unit is what its source read before the unit. -/
theorem moveBytes_withVram_byte {i : Nat} (hi : i < 16) :
    (moveBytes (writeWith trig) r).ses.vramByte
        (vramIndex r.ses ((r.ses.dma.dst + BitVec.ofNat 16 i).extractLsb' 0 13)) =
      (read (r.ses.dma.src + BitVec.ofNat 16 i) r).2 := by
  have hlow : (r.ses.dma.dst + BitVec.ofNat 16 i).toNat < 0xA000 := by rw [toNat_add_ofNat (by omega)]; omega
  obtain ⟨m, hm⟩ := moveFirst_withVram trig hsrc h1 h2 (by omega : i ≤ 16)
  rw [moveBytes_vram trig h1 (by omega) hi hlow, hm, read_withVram (hsrc i hi)]

end

/-- The end of a unit with bytes left (44_dma.md R336). -/
theorem finishUnit_eq {t : Loaded} (h16 : 16#12 ≤ t.ses.dma.remaining) :
    finishUnit t =
      { ses := { t.ses with
          dma := { t.ses.dma with
            src := t.ses.dma.src + 16#16
            dst := t.ses.dma.dst + 16#16
            remaining := t.ses.dma.remaining - 16#12
            phase := if t.ses.dma.remaining = 16#12 then .idle else .transferring } }
        env := t.env } := by
  have hlast : (t.ses.dma.remaining - 16#12 = 0#12) = (t.ses.dma.remaining = 16#12) := by
    rw [BitVec.sub_eq_iff_eq_add, BitVec.zero_add]
  simp only [finishUnit, afterUnit, remainingAfter, if_pos h16, hlast]

/-- The `vram` index of byte `i` of a unit written inside the video-memory window. -/
theorem vramIndex_unit (x : Session) {d : Addr} (h1 : 0x8000 ≤ d.toNat) (h2 : d.toNat + 16 ≤ 0xA000) {i : Nat}
    (hi : i < 16) :
    vramIndex x ((d + BitVec.ofNat 16 i).extractLsb' 0 13) = x.vramBank.toNat * 8192 + (d.toNat - 0x8000) + i := by
  rw [vramIndex, vramBankSize_eq, BitVec.extractLsb'_toNat, Nat.shiftRight_zero, toNat_add_ofNat (by omega)]
  omega

/-- Settles O17: no byte of the unit changes what a later one reads, and each lands at its own index. -/
theorem unitCopiesSixteenBytes : Obligations.UnitCopiesSixteenBytes := by
  intro x e hp hc hsrc h1 h2
  have hplain : ∀ i < 16, InPlainSource (x.dma.src + BitVec.ofNat 16 i) := fun i hi => by
    rw [InPlainSource, toNat_add_ofNat (by omega)]
    omega
  have hwindow : x.dma.dst.toNat + 16 ≤ 0xC000 := by omega
  obtain ⟨m, hm⟩ : ∃ m, moveBytes write ⟨x, e⟩ = Loaded.withVram ⟨x, e⟩ m :=
    moveFirst_withVram (r := ⟨x, e⟩) (triggerByte unitWrite) hplain h1 h2 le_rfl
  have hunit : advanceOneUnit write ⟨x, e⟩ = _ :=
    (advanceOneUnit_active hp).trans (finishUnit_eq (by rw [hm]; exact hc.sixteen_le hp))
  rw [hm] at hunit
  have hexec := exec_hb_of_phase (x := x) (e := e) (m := x.dma.remaining) (by rw [hunit]; rfl)
  rw [hunit] at hexec
  refine ⟨m, hexec, fun j => ?_⟩
  have hbyte : ({ x with vram := m } : Session).vramByte j = (moveBytes write ⟨x, e⟩).ses.vramByte j := by rw [hm]; rfl
  rw [hbyte]
  split
  next hin =>
    obtain ⟨i, rfl⟩ := Nat.exists_eq_add_of_le hin.1
    have hi : i < 16 := by omega
    rw [Nat.add_sub_cancel_left, ← vramIndex_unit x h1 h2 hi]
    exact moveBytes_withVram_byte (r := ⟨x, e⟩) (triggerByte unitWrite) hplain h1 h2 hi
  next hout =>
    refine (moveBytes_transfer (r := ⟨x, e⟩) (triggerByte unitWrite) h1 hwindow).vram j fun i hi _ => ?_
    rw [vramIndex_unit x h1 h2 hi]
    omega

/-! ## The answer on the output ports is not looked at -/

theorem Loaded.answer_answer (r : Loaded) (v w : Result) : (r.answer v).answer w = r.answer w := rfl

/-- A read's outcome `p'` is `p` with another answer on the ports. -/
def Reanswered (v : Result) (p p' : Loaded × Byte) : Prop := p' = (p.1.answer v, p.2)

theorem Reanswered.ite {v : Result} {p q p' q' : Loaded × Byte} {c : Prop} [Decidable c] (h1 : Reanswered v p p')
    (h2 : Reanswered v q q') : Reanswered v (if c then p else q) (if c then p' else q') := by
  split
  · exact h1
  · exact h2

theorem readEcho_answer (a : Addr) (r : Loaded) (v : Result) : Reanswered v (readEcho a r) (readEcho a (r.answer v)) :=
  .ite rfl rfl

theorem readSram_answer (off : BitVec 13) (r : Loaded) (v : Result) :
    Reanswered v (readSram off r) (readSram off (r.answer v)) :=
  .ite rfl (.ite rfl (.ite rfl rfl))

theorem read_answer (a : Addr) (r : Loaded) (v : Result) :
    read a (r.answer v) = ((read a r).1.answer v, (read a r).2) := by
  have hecho := readEcho_answer a r v
  have hsram := readSram_answer (a.extractLsb' 0 13) r v
  exact Reanswered.ite rfl (.ite rfl (.ite rfl (.ite rfl (.ite rfl (.ite rfl (.ite rfl (.ite rfl (.ite hecho (.ite rfl (.ite rfl
    (.ite hsram (.ite rfl (.ite rfl rfl)))))))))))))

theorem writeSram_answer (off : BitVec 13) (b : Byte) (r : Loaded) (v : Result) :
    writeSram off b (r.answer v) = (writeSram off b r).answer v := by
  unfold writeSram
  rw [Loaded.answer_ses]
  split_ifs <;> rfl

theorem writeWith_window_answer {a : Addr} (h1 : 0x8000#16 ≤ a) (h2 : a < 0xC000#16) (trig : Byte → Loaded → Loaded)
    (b : Byte) (r : Loaded) (v : Result) : writeWith trig a b (r.answer v) = (writeWith trig a b r).answer v := by
  by_cases h : a < 0xA000#16
  · rw [writeWith_vram h1 h, writeWith_vram h1 h]
    rfl
  · rw [writeWith_sram (by bv_omega) h2, writeWith_sram (by bv_omega) h2, writeSram_answer]

theorem finishUnit_answer (r : Loaded) (v : Result) : finishUnit (r.answer v) = (finishUnit r).answer v := by
  unfold finishUnit
  rw [Loaded.answer_ses]
  by_cases h : 16#12 ≤ r.ses.dma.remaining
  · rw [if_pos h, if_pos h]; rfl
  · rw [if_neg h, if_neg h]; rfl

section
variable (trig : Byte → Loaded → Loaded) {r : Loaded} (v : Result)

theorem moveFirst_answer (h1 : 0x8000 ≤ r.ses.dma.dst.toNat) (h2 : r.ses.dma.dst.toNat + 16 ≤ 0xC000) {i : Nat}
    (hi : i ≤ 16) :
    (List.range i).foldl (moveByte (writeWith trig)) (r.answer v) =
      ((List.range i).foldl (moveByte (writeWith trig)) r).answer v := by
  induction i with
  | zero => rfl
  | succ i ih =>
    obtain ⟨hu, -⟩ := moveBytes_split trig h1 h2 hi
    have hw := dst_window h1 h2 hi
    rw [← hu.dma] at hw
    simp only [List.range_succ, List.foldl_append, List.foldl_cons, List.foldl_nil, ih (by omega), moveByte_eq,
      Loaded.answer_ses, read_answer]
    exact writeWith_window_answer hw.1 hw.2 trig _ _ v

theorem advanceOneUnit_answer (hp : r.ses.dma.phase ≠ .idle) (h1 : 0x8000 ≤ r.ses.dma.dst.toNat)
    (h2 : r.ses.dma.dst.toNat + 16 ≤ 0xC000) :
    advanceOneUnit (writeWith trig) (r.answer v) = (advanceOneUnit (writeWith trig) r).answer v := by
  have hmove : moveBytes (writeWith trig) (r.answer v) = (moveBytes (writeWith trig) r).answer v :=
    moveFirst_answer trig v h1 h2 le_rfl
  rw [advanceOneUnit_active hp, advanceOneUnit_active (r := r.answer v) hp, hmove,
    finishUnit_answer]

theorem runUnits_answer (k : Nat) (hc : r.ses.dma.consistent) (hr : r.ses.dmaInReach)
    (hk : 16 * k ≤ r.ses.dma.remaining.toNat) :
    runUnits (writeWith trig) k (r.answer v) = (runUnits (writeWith trig) k r).answer v := by
  induction k generalizing r with
  | zero => rfl
  | succ k ih =>
    have hp := hc.active_of_pos (by omega)
    obtain ⟨h1, h2⟩ := hr hp
    have h16 := hc.sixteen_le hp
    obtain ⟨hc', hr', hn'⟩ := advanceOneUnit_keeps trig hp hc hr
    rw [runUnits, runUnits, advanceOneUnit_answer trig v hp h1 (by omega)]
    exact ih hc' hr' (by omega)

end

/-! ## `k` executions of `HB` are `k` units (44_dma.md R337, R338) -/

theorem repeatInstr_hb (k : Nat) {r : Loaded} (hc : r.ses.dma.consistent) (hr : r.ses.dmaInReach)
    (hk : 16 * k ≤ r.ses.dma.remaining.toNat) :
    ∃ res, repeatInstr .hb k r.toState = .next ((runUnits write k r).answer res).toState := by
  induction k generalizing r with
  | zero => exact ⟨r.env.result, rfl⟩
  | succ k ih =>
    have hp := hc.active_of_pos (by omega)
    obtain ⟨hc', hr', hn'⟩ := advanceOneUnit_keeps (triggerByte unitWrite) hp hc hr
    have hk' : 16 * k ≤ (advanceOneUnit write r).ses.dma.remaining.toNat := by rw [write, hn']; omega
    have hunits (v : Result) := runUnits_answer (triggerByte unitWrite) v k hc' hr' hk'
    obtain ⟨res, h⟩ := ih (r := horizontalBlank r) hc' hr' hk'
    refine ⟨res, ?_⟩
    calc repeatInstr .hb (k + 1) r.toState
        = repeatInstr .hb k (horizontalBlank r).toState := by rw [repeatInstr, exec_hb]
      _ = .next ((runUnits write k (horizontalBlank r)).answer res).toState := h
      _ = .next ((runUnits write (k + 1) r).answer res).toState :=
        by rw [horizontalBlank_eq, write, hunits]; rfl

/-- Settles O18: `j` units of the transfer, read off field by field. -/
theorem pacedTransferEndsAfterItsUnits : Obligations.PacedTransferEndsAfterItsUnits := by
  intro x e j hp hc hr hj
  have h16 := hc.sixteen_le hp
  have hk : 16 * j ≤ x.dma.remaining.toNat := by omega
  obtain ⟨res, hrep⟩ := repeatInstr_hb j (r := ⟨x, e⟩) hc hr hk
  obtain ⟨vram, sram, live, last, calls, events, h⟩ := runUnits_spec (triggerByte unitWrite) j (r := ⟨x, e⟩) hc hr hk
  rw [write, h] at hrep
  refine ⟨_, _, hrep, rfl, rfl, ?_, ?_⟩
  · have hlen := x.dma.remaining.isLt
    show (x.dma.remaining - BitVec.ofNat 12 (16 * j)).toNat = _
    have hbytes : (BitVec.ofNat 12 (16 * j)).toNat = 16 * j := by rw [BitVec.toNat_ofNat]; omega
    rw [BitVec.toNat_sub_of_le (by rw [BitVec.le_def, hbytes]; exact hk), hbytes]
  · show (if j = 0 then x.dma.phase else if 16 * j = x.dma.remaining.toNat then .idle else .transferring) = .idle ↔ _
    have hmul := hc.1
    split_ifs with hzero hlast
    · exact iff_of_false hp (by omega)
    · exact iff_of_true rfl (by omega)
    · exact iff_of_false (by decide) (by omega)

/-! ## The two modes of a trigger write -/

/-- The units of a transfer just armed are the same through either `Write` (44_dma.md R332). -/
theorem runUnits_armFrom (n : BitVec 7) (r : Loaded) :
    runUnits unitWrite (n.toNat + 1) (armFrom n r) = runUnits write (n.toNat + 1) (armFrom n r) :=
  runUnits_trig _ _ _ (armFrom_consistent n r) (armFrom_inReach n r) (by rw [armFrom_remaining]; omega)

/-- Settles O19: both modes arm, and then run the same units, which do not look at the answer. -/
theorem immediateTransferIsPacedTransferAtOnce : Obligations.ImmediateTransferIsPacedTransferAtOnce := by
  intro x e n
  have hk : 16 * (n.toNat + 1) ≤ (armFrom n ⟨x, e⟩).ses.dma.remaining.toNat := by rw [armFrom_remaining]; omega
  have hc := armFrom_consistent n ⟨x, e⟩
  have hr := armFrom_inReach n ⟨x, e⟩
  obtain ⟨res, hrep⟩ := repeatInstr_hb (n.toNat + 1) (r := (armFrom n ⟨x, e⟩).answer .none) hc hr hk
  rw [write, runUnits_answer _ _ _ hc hr hk, Loaded.answer_answer] at hrep
  refine ⟨_, _, by rw [exec_wrDmaCtrl, trigger_paced], hrep, ?_⟩
  rw [exec_wrDmaCtrl, trigger_immediate, runUnits_armFrom]
  rfl

/-! ## The reach of a transfer -/

/-- Settles O53: the reach by the cases of `StepResult`. -/
theorem stepKeepsDmaInReach : Obligations.StepKeepsDmaInReach :=
  fun _ _ hs hr ho h => step_dmaInReach h hs hr ho

end Sys2Proof.Machine
end

section
/-! PROOF of the statement on the rumble channel (45_rumble.md): what `Read`, `Write`, a trigger write, a unit in reach and the
control writes of each family do to the motor and to the mark, and from it what every operation does. -/

namespace Sys2Proof.Machine

/-! ## Keeping the motor and the mark -/

/-- Two sessions with one level of the motor and one mark. -/
def SameMotorAndMark (x y : Session) : Prop := y.bank.motor = x.bank.motor ∧ y.refused = x.refused

theorem SameMotorAndMark.refl (x : Session) : SameMotorAndMark x x := ⟨rfl, rfl⟩

theorem SameButUnit.sameMotorAndMark {r t : Loaded} (h : SameButUnit r t) : SameMotorAndMark r.ses t.ses := by
  rw [h.1]
  exact ⟨rfl, rfl⟩

theorem syncSession_sameMotorAndMark (now : Nat) (x : Session) : SameMotorAndMark x (syncSession now x) := by
  rw [syncSession_frame]
  exact ⟨rfl, rfl⟩

theorem writeRegister_sameMotorAndMark (sel : ClockReg) (v : Byte) (r : Loaded) :
    SameMotorAndMark r.ses (writeRegister sel v r).ses := by
  obtain ⟨live, last, hses⟩ := writeRegister_ses sel v r
  rw [hses]
  exact ⟨rfl, rfl⟩

/-- A trigger write's destinations are in reach, so its units make no control write (44_dma.md R332). -/
theorem trigger_sameMotorAndMark (mode : BitVec 1) (n : BitVec 7) (r : Loaded) :
    SameMotorAndMark r.ses (trigger unitWrite mode n r).ses := by
  obtain ⟨vram, sram, live, last, calls, events, d, ht, -⟩ := trigger_spec mode n r
  rw [ht]
  exact ⟨rfl, rfl⟩

/-- A unit of a transfer in reach makes no control write (44_dma.md R332). -/
theorem horizontalBlank_sameMotorAndMark {r : Loaded} (hc : r.ses.dma.consistent) (hr : r.ses.dmaInReach) :
    SameMotorAndMark r.ses (horizontalBlank r).ses := by
  obtain ⟨vram, sram, live, last, calls, events, d, res, hb, -⟩ := horizontalBlank_spec hc hr
  rw [hb]
  exact ⟨rfl, rfl⟩

/-! ## The control writes, family by family -/

/-- What the operation `i` can do to the motor and the mark under the policy `p`, from `x` to `y`. -/
inductive MotorAndMarkBy (i : Instr) (p : EfPolicy) (x y : Session) : Prop
  | kept : SameMotorAndMark x y → MotorAndMarkBy i p x y
  | motor (m : BitVec 1) (b : BitVec 3) : i = .rambDRumble m b → y.refused = x.refused → MotorAndMarkBy i p x y
  | marked (a : Addr) (v : Byte) :
    i = .ctlEf a v → y.bank.motor = x.bank.motor → y.refused = true → MotorAndMarkBy i p x y
  | decoded (a : Addr) (v : Byte) : i = .ctlEf a v → p = .decode → y.refused = x.refused → MotorAndMarkBy i p x y

theorem onWriteA_sameMotorAndMark (a : Addr) (v : Byte) (r : Loaded) : SameMotorAndMark r.ses (onWriteA a v r).ses := by
  unfold onWriteA
  split; · exact ⟨rfl, rfl⟩
  split; · exact ⟨rfl, rfl⟩
  split
  · split <;> exact ⟨rfl, rfl⟩
  · exact ⟨rfl, rfl⟩

theorem onWriteB_sameMotorAndMark (a : Addr) (v : Byte) (r : Loaded) : SameMotorAndMark r.ses (onWriteB a v r).ses := by
  unfold onWriteB
  split; · exact ⟨rfl, rfl⟩
  split <;> exact ⟨rfl, rfl⟩

theorem onWriteC_sameMotorAndMark (a : Addr) (v : Byte) (r : Loaded) : SameMotorAndMark r.ses (onWriteC a v r).ses := by
  unfold onWriteC
  split; · exact ⟨rfl, rfl⟩
  split; · exact ⟨rfl, rfl⟩
  split
  · split <;> exact ⟨rfl, rfl⟩
  · rw [ctlLatchC_eq]
    exact ⟨rfl, rfl⟩

/-- On family `D` the motor cartridge's storage-bank write alone writes the motor (41_bank_switch.md R204). -/
theorem onWriteD_motorAndMark (a : Addr) (v : Byte) (p : EfPolicy) (r : Loaded) :
    MotorAndMarkBy (decodeControlD r.ses.ctx a v) p r.ses (onWriteD a v r).ses := by
  unfold decodeControlD onWriteD
  by_cases h0 : controlRange a = 0#2
  · simp only [if_pos h0]
    exact .kept ⟨rfl, rfl⟩
  simp only [if_neg h0]
  by_cases h1 : controlRange a = 1#2
  · simp only [if_pos h1]
    refine .kept ?_
    split <;> exact ⟨rfl, rfl⟩
  simp only [if_neg h1]
  by_cases h2 : controlRange a = 2#2
  · simp only [if_pos h2, Session.ctx_hasRumble]
    by_cases hm : r.ses.desc.hasRumble = false
    · simp only [if_pos hm]
      exact .kept ⟨rfl, rfl⟩
    · simp only [if_neg hm]
      exact .motor _ _ (if_neg hm) (by rw [ctlRambDRumble, Loaded.switchTo_ses])
  · simp only [if_neg h2]
    exact .kept (.refl _)

/-- On family `E` or `F` a control write sets the mark, or switches the Bank-Switch State, by the policy (41_bank_switch.md
R206). -/
theorem ctlEf_motorAndMark (a : Addr) (v : Byte) (r : Loaded) :
    MotorAndMarkBy (.ctlEf a v) r.env.par.efPolicy r.ses (ctlEf a v r).ses := by
  unfold ctlEf
  split
  · exact .marked a v rfl rfl rfl
  · next hp => exact .decoded a v rfl hp (by rw [Loaded.switchTo_ses])

theorem onWrite_motorAndMark (a : Addr) (v : Byte) (r : Loaded) :
    MotorAndMarkBy (decodeControl r.ses.ctx a v) r.env.par.efPolicy r.ses (onWrite a v r).ses := by
  unfold decodeControl onWrite
  rw [Session.ctx_family]
  cases r.ses.desc.family
  case NONE => exact .kept (.refl _)
  case A => exact .kept (onWriteA_sameMotorAndMark a v r)
  case B => exact .kept (onWriteB_sameMotorAndMark a v r)
  case C => exact .kept (onWriteC_sameMotorAndMark a v r)
  case D => exact onWriteD_motorAndMark a v _ r
  case E => exact ctlEf_motorAndMark a v r
  case F => exact ctlEf_motorAndMark a v r

/-! ## Every operation -/

/-- `Write` reaches the motor and the mark through a control write alone. -/
theorem write_motorAndMark (a : Addr) (v : Byte) (r : Loaded) :
    MotorAndMarkBy (decodeWrite r.ses.ctx a v) r.env.par.efPolicy r.ses (write a v r).ses := by
  refine writeWith_elim (P := fun t => MotorAndMarkBy (decodeWrite r.ses.ctx a v) r.env.par.efPolicy r.ses t.ses)
    (.kept (.refl _)) (fun hlt => ?control) (fun _ => .kept ⟨rfl, rfl⟩) (fun _ _ => .kept ⟨rfl, rfl⟩)
    (fun _ _ => .kept ⟨rfl, rfl⟩) (.kept (writeRegister_sameMotorAndMark _ v r)) (.kept ⟨rfl, rfl⟩) (.kept ⟨rfl, rfl⟩)
    (fun _ _ _ _ _ => .kept ⟨rfl, rfl⟩) (.kept (.refl _)) fun _ => .kept (trigger_sameMotorAndMark _ _ r)
  rw [decodeWrite_of_control _ v hlt]
  exact onWrite_motorAndMark a v r

/-- A row that answers a next state applied, so it is what the session's decoder reads from a word, its own. -/
theorem exists_word_of_exec {i : Instr} {x : Session} {e : Env} {t : State} (h : exec i ⟨some x, e⟩ = .next t) :
    ∃ w, i = decode x.ctx w := by
  refine ⟨encode i, (decode_encode ?_).symm⟩
  by_contra ha
  rw [exec_refused_of_not_applies (Bool.eq_false_iff.2 ha)] at h
  cases h

/-- Every operation but `LOAD`, `RESET` and `RESTORE`, from a session whose transfer is in reach. -/
theorem exec_motorAndMark {i : Instr} {x y : Session} {e f : Env} (hload : i ≠ .load) (hreset : i ≠ .reset)
    (hrestore : i ≠ .restore) (hc : x.dma.consistent) (hr : x.dmaInReach)
    (h : exec i ⟨some x, e⟩ = .next ⟨some y, f⟩) : MotorAndMarkBy i e.par.efPolicy x y := by
  obtain ⟨w, rfl⟩ := exists_word_of_exec h
  rcases decoded_cases h with
    ⟨-, ⟨⟩⟩ | ⟨ho, ⟨⟩⟩ | ⟨-, ⟨⟩⟩ | ⟨-, ⟨⟩⟩ | ⟨ho, -⟩ | ⟨ho, -⟩ | ⟨-, -, ⟨⟩⟩ | ⟨ho, -⟩
  · exact .kept (read_frame _ ⟨x, e⟩).unit.sameMotorAndMark
  · have hw : decode x.ctx w = decodeWrite x.ctx (fieldAddr w) (fieldData w) := by simp [decode, ho]
    rw [hw]
    exact write_motorAndMark _ _ ⟨x, e⟩
  · exact .kept (horizontalBlank_sameMotorAndMark (r := ⟨x, e⟩) hc hr)
  · exact .kept (syncSession_sameMotorAndMark _ x)
  · exact absurd (by simp [decode, ho]) hload
  · exact absurd (by simp [decode, ho]) hreset
  · exact .kept (.refl _)
  · exact absurd (by simp [decode, ho]) hrestore

/-- Settles O56: the four cases of `MotorAndMarkBy`; each one that changes the motor or the mark names its control write. -/
theorem motorAndMarkHaveTheirWriters : Obligations.MotorAndMarkHaveTheirWriters := by
  intro i x y e f hload hreset hrestore hc hr h
  cases exec_motorAndMark hload hreset hrestore hc hr h with
  | kept hsame => exact ⟨fun hn => absurd hsame.1 hn, fun hn => absurd hsame.2 hn⟩
  | motor m b hi hmark => exact ⟨fun _ => .inl ⟨m, b, hi⟩, fun hn => absurd hmark hn⟩
  | marked a v hi hmotor hset => exact ⟨fun hn => absurd hmotor hn, fun _ => ⟨⟨a, v, hi⟩, hset⟩⟩
  | decoded a v hi hp hmark => exact ⟨fun _ => .inr ⟨hp, a, v, hi⟩, fun hn => absurd hmark hn⟩

end Sys2Proof.Machine
end

section
/-! PROOFS of the statements on the host's interface (46_host_interface.md): the record of `SAVE` field by field, the two
outcomes of `RESTORE`, a record restored, `RESET`, and the instruction a step runs. -/

namespace Sys2Proof.Machine

/-! ## `SAVE` (46_host_interface.md R371, R378) -/

theorem timeFits_iff (r : Loaded) : timeFits r = true ↔ r.env.hostNow < 2 ^ 64 ∧ r.ses.lastSync < 2 ^ 64 := by
  rw [timeFits, Bool.and_eq_true, decide_eq_true_eq, decide_eq_true_eq]

theorem exec_save_of_timeFits {x : Session} {e : Env} (h : timeFits ⟨x, e⟩ = true) :
    exec .save ⟨some x, e⟩ = .next ⟨some x, { e with result := .record (saveRecord x) }⟩ :=
  if_pos h

theorem exec_save_of_not_timeFits {x : Session} {e : Env} (h : ¬ timeFits ⟨x, e⟩ = true) :
    exec .save ⟨some x, e⟩ = .refused .timeDoesNotFit :=
  if_neg h

/-- The flag byte as a sum of its flags' weights (46_host_interface.md R378, offset 6). -/
theorem toNat_flagByte (x : Session) :
    (flagByte x).toNat =
      x.bank.mode.toNat + 2 * x.bank.ramEnable.toNat + 4 * x.bank.latchArmed.toNat + 8 * x.bank.motor.toNat +
        16 * x.vramBank.toNat := by
  unfold flagByte
  generalize x.bank.mode = mode
  generalize x.bank.ramEnable = enable
  generalize x.bank.latchArmed = armed
  generalize x.bank.motor = motor
  generalize x.vramBank = vram
  revert vram mode enable armed motor
  decide

/-- The code of the DMA engine's phase (46_host_interface.md R378, offset 36). -/
theorem toNat_phaseByte (p : Phase) :
    (phaseByte p).toNat = match p with | .idle => 0 | .armed => 1 | .transferring => 2 := by
  cases p <;> rfl

theorem saveRecord_lastSync_of_lt {x : Session} (h : x.lastSync < 2 ^ 64) :
    recordField (saveRecord x) 18 8 = x.lastSync := by
  rw [saveRecord_lastSync, Nat.mod_eq_of_lt h]

/-- Settles O39: the answer is `saveRecord`; a field of several bytes is read back by its `saveRecord_` lemma, a byte stands
in the record as it is. -/
theorem saveRecordLayout : Obligations.SaveRecordLayout := by
  intro x e
  refine ⟨fun hn => exec_save_of_not_timeFits (mt (timeFits_iff _).1 hn), fun hnow hsync => ?_⟩
  have hram : (x.bank.ramBank.setWidth 8).toNat = x.bank.ramBank.toNat :=
    BitVec.toNat_setWidth_of_le (by decide)
  have hwram : (x.wramBank.setWidth 8).toNat = x.wramBank.toNat := BitVec.toNat_setWidth_of_le (by decide)
  exact ⟨saveRecord x, exec_save_of_timeFits ((timeFits_iff _).2 ⟨hnow, hsync⟩), saveRecord_length x, rfl,
    saveRecord_romBank x, hram, toNat_flagByte x, hwram, rfl, rfl, saveRecord_lastSync_of_lt hsync, rfl, saveRecord_src x,
    saveRecord_dst x, saveRecord_remaining x, toNat_phaseByte x.dma.phase⟩

/-! ## `RESTORE` (46_host_interface.md R379, R380, R381) -/

theorem exec_restore (x : Session) (e : Env) :
    exec .restore ⟨some x, e⟩ = .next (restoreFrom e.ports.record e.ports.trackRealTime ⟨x, e⟩).toState :=
  onRow_next (i := .restore) (applies_of_cond rfl) e fun r => restoreFrom r.env.ports.record r.env.ports.trackRealTime r

theorem exec_restore_of_valid {e : Env} (h : validRecord e.ports.record = true) (x : Session) :
    exec .restore ⟨some x, e⟩ =
      .next
        ⟨some (reconcile e.hostNow (recordField e.ports.record 18 8) e.ports.trackRealTime
            (restoreFields e.ports.record x)),
          { e with result := .restoreOk true }⟩ := by
  rw [exec_restore, restoreFrom, if_pos h]
  rfl

theorem exec_restore_of_not_valid {e : Env} (h : ¬ validRecord e.ports.record = true) (x : Session) :
    exec .restore ⟨some x, e⟩ = .next ⟨some x, { e with result := .restoreOk false }⟩ := by
  rw [exec_restore, restoreFrom, if_neg h]
  rfl

/-- Settles O40: each ground contradicts one conjunct of `validRecord_iff`. -/
theorem badRecordsAreIgnored : Obligations.BadRecordsAreIgnored := by
  rintro x e b rfl hbad
  refine exec_restore_of_not_valid (fun hv => ?_) x
  obtain ⟨hlen, hmagic, hphase, hmod, hmax, hagree⟩ := (validRecord_iff _).1 hv
  rcases hbad with h | h | h | h | h | h
  · exact h hlen
  · exact h hmagic
  · exact absurd hphase (Nat.not_le.2 h)
  · exact h hmod
  · exact absurd hmax (Nat.not_le.2 h)
  · exact h hagree

/-- The reconciliation in all its cases: the clock catches up where it is tracked and runs, and the timestamp stays the
record's where the clock is tracked and halted (46_host_interface.md R381). -/
theorem reconcile_eq (now t : Nat) (track : Bool) (x : Session) :
    reconcile now t track x =
      { x with
        live := if track = true ∧ x.live.halt = false ∧ t < now then advance x.live (now - t) else x.live
        lastSync := if track = true ∧ x.live.halt = true then t else now } := by
  cases track with
  | false => rfl
  | true =>
    rw [reconcile, if_pos rfl]
    cases hh : x.live.halt with
    | true => rw [syncSession_of_halt (x := { x with lastSync := t }) hh]; simp
    | false => rw [syncSession_of_running (x := { x with lastSync := t }) hh]; simp

/-- The masks of the clock registers in numbers; the one of `DL` keeps the whole byte (42_rtc.md R248). -/
theorem ClockRegs.masked_eq (s m h dl dh : Byte) :
    ClockRegs.masked s m h dl dh =
      { S := s &&& 0x3F#8, M := m &&& 0x3F#8, H := h &&& 0x1F#8, DL := dl, DH := dh &&& 0xC1#8 } :=
  congrArg (fun d => ClockRegs.mk (s &&& 0x3F#8) (m &&& 0x3F#8) (h &&& 0x1F#8) d (dh &&& 0xC1#8))
    (BitVec.and_allOnes (x := dl))

/-- Settles O41: the record is valid by `validRecord_iff`; `reconcile_eq` and `ClockRegs.masked_eq` give the fields. -/
theorem restoreLoadsTheRecord : Obligations.RestoreLoadsTheRecord := by
  rintro x e b live rfl hlen hmagic hphase hmod hmax hagree rfl
  have hv : validRecord e.ports.record = true := (validRecord_iff _).2 ⟨hlen, hmagic, hphase, hmod, hmax, hagree⟩
  rw [exec_restore_of_valid hv, reconcile_eq, restoreFields, ClockRegs.masked_eq, ClockRegs.masked_eq]
  rfl

/-- A session's own record, restored without tracking real time (46_host_interface.md R381, R383). -/
theorem exec_restore_saveRecord {x : Session} {f : Env} (hx : x.ok) (hrec : f.ports.record = saveRecord x)
    (htrack : f.ports.trackRealTime = false) (y : Session) :
    exec .restore ⟨some y, f⟩ =
      .next
        ⟨some { y with
          bank := x.bank, vramBank := x.vramBank, wramBank := x.wramBank, live := x.live, snap := x.snap
          lastSync := f.hostNow, dma := x.dma },
         { f with result := .restoreOk true }⟩ := by
  obtain ⟨-, hwram, hlive, hsnap, hdma, -⟩ := hx
  have hv : validRecord f.ports.record = true := by rw [hrec]; exact validRecord_saveRecord hdma
  rw [exec_restore_of_valid hv, hrec, htrack, restoreFields_saveRecord y hwram hlive hsnap]
  rfl

/-- Settles O42: what `SAVE` answered is `saveRecord`, so `exec_restore_saveRecord` says what comes back. -/
theorem saveRestoreRoundTrip : Obligations.SaveRestoreRoundTrip := by
  intro x y e f r hx hnow hsync hsave hrec htrack
  have hr : r = saveRecord x := by
    rw [exec_save_of_timeFits ((timeFits_iff _).2 ⟨hnow, hsync⟩)] at hsave
    cases hsave
    rfl
  have hrestore := exec_restore_saveRecord hx (hrec.trans hr) htrack y
  exact ⟨hrestore, fun hsame => hsame ▸ hrestore⟩

/-! ## `RESET` (46_host_interface.md R370) -/

theorem exec_reset (x : Session) (e : Env) : exec .reset ⟨some x, e⟩ = .next (resetMachine ⟨x, e⟩).toState :=
  onRow_next (i := .reset) (applies_of_cond rfl) e resetMachine

/-- Settles O38: `resetSession` written out. -/
theorem resetKeepsTheCartridge : Obligations.ResetKeepsTheCartridge := fun x e => exec_reset x e

/-! ## Steps (46_host_interface.md R386, 30_encoding.md R111, R112) -/

theorem step_of_no_request {s : State} (hq : s.env.queue = []) : step s = .next s := by
  rw [step, takeNext, hq]

theorem step_of_request {s : State} {q : Request} {rest : List Request} {i : Instr} (hq : s.env.queue = q :: rest)
    (hd : decodeIn s.ctx q.word = .ok i) : step s = exec i (takeRequest s q rest) := by
  rw [step, takeNext, hq]
  simp only [hd]

/-- Settles O48: `step_of_no_request`, and `step_of_request` with what the decoder reads in each condition of the block. -/
theorem stepRunsTheDecodedInstruction : Obligations.StepRunsTheDecodedInstruction := by
  refine ⟨fun s hq => step_of_no_request hq, fun s x q rest hs hq => ?loaded, fun s q rest hs hq ho => ?unloaded⟩
  case loaded =>
    have hd : decodeIn s.ctx q.word = .ok (decode x.ctx q.word) := by rw [State.ctx, hs]; rfl
    exact step_of_request hq hd
  case unloaded =>
    have hd : decodeIn s.ctx q.word = .ok .load := by rw [State.ctx, hs]; exact if_pos ho
    exact step_of_request hq hd

end Sys2Proof.Machine
end

section
/-! PROOFS of the statements on exceptions (60_exceptions.md): `InvalidHeader` from each malformed header byte, and the
operations that always have a next state. -/

namespace Sys2Proof.Machine

/-! ## `InvalidHeader` (60_exceptions.md R401, 40_descriptor.md R165, R171) -/

theorem describe_of_type_unlisted {typeByte : Byte} (h : typeTable typeByte = none) (strength : Nat)
    (romSizeByte ramSizeByte : Byte) : describe strength typeByte romSizeByte ramSizeByte = none := by
  rw [describe, h]

theorem describe_of_romSize_unlisted {romSizeByte : Byte} (h : romSizeTable romSizeByte = none) (strength : Nat)
    (typeByte ramSizeByte : Byte) : describe strength typeByte romSizeByte ramSizeByte = none := by
  rw [describe, h]
  cases typeTable typeByte <;> rfl

theorem describe_of_ramSize_unlisted {ramSizeByte : Byte} (h : ramSizeTable ramSizeByte = none) (strength : Nat)
    (typeByte romSizeByte : Byte) : describe strength typeByte romSizeByte ramSizeByte = none := by
  rw [describe, h]
  cases typeTable typeByte with
  | none => rfl
  | some _ => cases romSizeTable romSizeByte <;> rfl

/-- `LOAD` of a malformed header takes the exception, whatever the arrays on the ports. -/
theorem exec_load_of_malformed {s : State}
    (hd : describe s.env.par.rumbleStrength s.env.ports.typeByte s.env.ports.romSizeByte s.env.ports.ramSizeByte = none) :
    exec .load s = .next (raiseInvalidHeader s) := by
  rw [exec, execLoad, hd]

/-- Settles O36: each cause leaves one header table without an entry, so there is no descriptor. -/
theorem malformedHeaderUnloads : Obligations.MalformedHeaderUnloads := by
  rintro s (htype | hrom | hram)
  · exact exec_load_of_malformed (describe_of_type_unlisted (typeTable_none _ htype) _ _ _)
  · exact exec_load_of_malformed (describe_of_romSize_unlisted (romSizeTable_none _ hrom) _ _ _)
  · exact exec_load_of_malformed (describe_of_ramSize_unlisted (ramSizeTable_none _ hram) _ _ _)

/-! ## Operations that complete (60_exceptions.md R403, R404) -/

theorem exec_tick (x : Session) (e : Env) :
    exec .tick ⟨some x, e⟩ = .next ((tickBy e.ports.delta ⟨x, e⟩).answer .none).toState :=
  onRow_next (i := .tick) (applies_of_cond rfl) e fun r => (tickBy r.env.ports.delta r).answer .none

/-- What a loaded session decodes from any word but `LOAD`'s has a next state; from `SAVE`'s, where the time fits
(46_host_interface.md R378). -/
theorem exec_decode_completes {x : Session} {e : Env} {w : OpWord} (ho : fieldOp w ≠ 4#3)
    (hsave : fieldOp w = 6#3 → timeFits ⟨x, e⟩ = true) : ∃ t, exec (decode x.ctx w) ⟨some x, e⟩ = .next t := by
  unfold decode
  split_ifs
  · exact ⟨_, exec_decodeRead x e _⟩
  · exact ⟨_, exec_decodeWrite x e _ _⟩
  · exact ⟨_, exec_hb ⟨x, e⟩⟩
  · exact ⟨_, exec_tick x e⟩
  · exact ⟨_, exec_reset x e⟩
  · exact ⟨_, exec_save_of_timeFits (hsave ‹_›)⟩
  · exact ⟨_, exec_restore x e⟩

/-- `LOAD` has a next state where the arrays have the lengths of the descriptor, if the header gives one
(40_descriptor.md R169). -/
theorem exec_load_completes {s : State}
    (hlen : ∀ d, describe s.env.par.rumbleStrength s.env.ports.typeByte s.env.ports.romSizeByte s.env.ports.ramSizeByte =
      some d → lengthsMatch d s.env.ports = true) : ∃ t, exec .load s = .next t := by
  cases hd : describe s.env.par.rumbleStrength s.env.ports.typeByte s.env.ports.romSizeByte s.env.ports.ramSizeByte with
  | none => exact ⟨_, exec_load_of_malformed hd⟩
  | some d => exact ⟨_, by rw [exec_load_of_describe hd, if_pos (hlen d hd)]⟩

/-- The word of `LOAD` is read alike in either condition of the block (10_state.md R20). -/
theorem decodeIn_of_load {w : OpWord} (ho : fieldOp w = 4#3) (c : Option DecodeCtx) : decodeIn c w = .ok .load := by
  cases c with
  | none => exact if_pos ho
  | some c => simp [decodeIn, decode, ho]

theorem exists_request_of_nextWord {s : State} {w : OpWord} (h : s.nextWord = some w) :
    ∃ q rest, s.env.queue = q :: rest ∧ q.word = w := by
  obtain ⟨q, hq, hw⟩ := Option.map_eq_some_iff.1 h
  obtain ⟨rest, hq⟩ := List.head?_eq_some_iff.1 hq
  exact ⟨q, rest, hq, hw⟩

/-- Settles O50: the step runs what the decoder reads, which completes by `exec_decode_completes`, or by
`exec_load_completes` where the word is `LOAD`'s. -/
theorem loadedOperationsComplete : Obligations.LoadedOperationsComplete := by
  refine ⟨fun s x w hx hw ho hnow hsync => ?loaded, fun s w hw ho hlen => ?load⟩
  all_goals obtain ⟨q, rest, hq, rfl⟩ := exists_request_of_nextWord hw
  case loaded =>
    have hd : decodeIn s.ctx q.word = .ok (decode x.ctx q.word) := by rw [State.ctx, hx]; rfl
    rw [step_of_request hq hd, takeRequest_of_session hx]
    exact exec_decode_completes ho fun hsave => (timeFits_iff _).2 ⟨hnow q rest hq hsave, hsync hsave⟩
  case load =>
    rw [step_of_request hq (decodeIn_of_load ho s.ctx)]
    exact exec_load_completes fun d hd => hlen q rest d hq ho hd

end Sys2Proof.Machine
end

section
/-! PROOFS of the statements on the hazards (70_reset_and_hazards.md): the host's cadence of `TICK` does not show in the
session, and a read changes of the session at most the clock it is routed to. -/

namespace Sys2Proof.Machine

/-! ## The cadence of `TICK` (70_reset_and_hazards.md R461) -/

/-- Two synchronisations at rising host times that do not lie behind `lastSync` are the later one. -/
theorem syncSession_syncSession {x : Session} {m n : Nat} (hm : x.lastSync ≤ m) (hn : m ≤ n) :
    syncSession n (syncSession m x) = syncSession n x := by
  by_cases hhalt : x.live.halt = true
  · rw [syncSession_of_halt hhalt]
  have hrun : x.live.halt = false := Bool.eq_false_of_not_eq_true hhalt
  rw [syncSession_of_running ((syncSession_halt m x).trans hrun), syncSession_of_running hrun, syncSession_of_running hrun]
  rcases hm.eq_or_lt with rfl | hm
  · rw [if_neg (Nat.lt_irrefl _)]
  rcases hn.eq_or_lt with rfl | hn
  · rw [if_neg (Nat.lt_irrefl _)]
  have hsum : m - x.lastSync + (n - m) = n - x.lastSync := by omega
  rw [if_pos hm, if_pos hn, if_pos (hm.trans hn), advance_advance, hsum]

/-- Settles O34: each `TICK` is a synchronisation at the host time it raised, and the first of the two is absorbed. -/
theorem tickCadenceIsFree : Obligations.TickCadenceIsFree := by
  intro x e a b h
  refine ⟨_, _, _, exec_tick _ _, exec_tick _ _, exec_tick _ _, congrArg some ?_, Nat.add_assoc e.hostNow a b⟩
  calc syncSession (e.hostNow + a + b) (syncSession (e.hostNow + a) x)
      _ = syncSession (e.hostNow + a + b) x := syncSession_syncSession (Nat.le_add_right_of_le h) (Nat.le_add_right _ b)
      _ = syncSession (e.hostNow + (a + b)) x := by rw [Nat.add_assoc]

/-! ## What a read changes of the session (20_memory.md R73, 70_reset_and_hazards.md R463) -/

/-- Settles O58: the row of a read's word is `Read`, whose frame and whose unrouted case are laws of the Mapper. -/
theorem readsChangeOnlyTheClock : Obligations.ReadsChangeOnlyTheClock := by
  intro x y e f a h
  rw [decode_rdWord, exec_decodeRead] at h
  cases h
  refine ⟨⟨_, _, (read_frame a ⟨x, e⟩).1⟩, fun hclock => read_ses_of_not_clock fun ⟨hlo, hhi, hrouted⟩ => ?_⟩
  exact hclock ⟨BitVec.le_def.1 hlo, BitVec.lt_def.1 hhi, hrouted⟩

end Sys2Proof.Machine
end
